-- ==== Sys2Proof/Word.lean ====
section
/-! DEFINITION. The word types of WSCORE: bytes of the buffers and 32-bit registers
(spec/00_scope.md R6, R8). -/

namespace Sys2Proof

/-- One byte of a buffer or of a byte sequence (R9). -/
abbrev Byte := BitVec 8

/-- One 32-bit register or command word (R6, R100). -/
abbrev Word := BitVec 32

/-- A byte address on the host port, `addr[18:0]` (R70). -/
abbrev Addr := BitVec 19

end Sys2Proof
end

