-- ==== Sys2Proof/Syntax.lean ====
section
/-! DEFINITION. The commands of WSCORE: one constructor for each row of spec/opcode_table.json, with
the operand fields of spec/30_encoding.md R101 that the row uses. -/

namespace Sys2Proof

/-- The input source field SRC (R103). -/
inductive Src where
  /-- SRC = 0: `IBUF[0..ILEN)`. -/
  | ibuf
  /-- SRC = 1: `OBUF[0..OLEN)`. -/
  | obuf
deriving DecidableEq, Repr

/-- One WSCORE command (R102). -/
inductive Instr where
  /-- NOP (R136). -/
  | nop
  /-- SHA_INIT (R155). -/
  | shaInit
  /-- SHA_BLOCK (R156). -/
  | shaBlock
  /-- SHA_MSG src (R157). -/
  | shaMsg (src : Src)
  /-- B64_ENC src (R182). -/
  | b64Enc (src : Src)
  /-- FD_DECODE src (R205). -/
  | fdDecode (src : Src)
  /-- FE_ENCODE src, fopc (R232), with the FIN field R105 keeps and requires to be 1. -/
  | feEncode (src : Src) (fopc : BitVec 4) (fin : Bool)
deriving DecidableEq, Repr

end Sys2Proof
end

