-- ==== Sys2Proof/WellFormed.lean ====
section
/-! DEFINITION. Which commands are legal as syntax. SRC and FOPC take every value of their fields
(spec/30_encoding.md R103, R104); the one check is FIN = 1 in FE_ENCODE (R105). -/

namespace Sys2Proof

/-- The command can be written as a legal command word (R105, R106). -/
def Instr.wellFormed : Instr → Bool
  | .nop => true
  | .shaInit => true
  | .shaBlock => true
  | .shaMsg _ => true
  | .b64Enc _ => true
  | .fdDecode _ => true
  | .feEncode _ _ fin => fin

/-- `wellFormed` as a proposition, for statements. -/
abbrev Instr.WellFormed (i : Instr) : Prop := i.wellFormed = true

end Sys2Proof
end

