-- ==== Sys2Proof/Decode.lean ====
section
/-! DEFINITION. Decoding and encoding command words (spec/30_encoding.md R100 to R108). A decoder
always reads exactly 32 bits (R100), so the decoder's input is one word; it is total and answers
with the reason for a word it rejects. The reasons are the model's names for the four kinds of illegal
word R107 lists; the machine performs every illegal word alike (R137). -/

namespace Sys2Proof

/-- Why a command word is illegal (R107). -/
inductive DecodeError where
  /-- Bits 31:17 or 11:9 are not 0. -/
  | reservedBits
  /-- OP is none of the values of R102. -/
  | reservedOp
  /-- SRC, FOPC or FIN is set and the command does not use it. -/
  | unusedField
  /-- FE_ENCODE with FIN = 0 (R105). -/
  | finClear
deriving DecidableEq, Repr

/-- Field OP, bits 7:0 (R101). -/
def opField (c : Word) : BitVec 8 := c.extractLsb' 0 8

/-- Field SRC, bit 8 (R101). -/
def srcField (c : Word) : BitVec 1 := c.extractLsb' 8 1

/-- The reserved field, bits 11:9 (R101). -/
def lowReserved (c : Word) : BitVec 3 := c.extractLsb' 9 3

/-- Field FOPC, bits 15:12 (R101). -/
def fopcField (c : Word) : BitVec 4 := c.extractLsb' 12 4

/-- Field FIN, bit 16 (R101). -/
def finField (c : Word) : BitVec 1 := c.extractLsb' 16 1

/-- The reserved field, bits 31:17 (R101). -/
def highReserved (c : Word) : BitVec 15 := c.extractLsb' 17 15

/-- SRC = 0 is IBUF, SRC = 1 is OBUF (R103). -/
def srcOfBit (b : BitVec 1) : Src := if b = 0 then .ibuf else .obuf

/-- The inverse of `srcOfBit`. -/
def srcBit : Src → BitVec 1
  | .ibuf => 0
  | .obuf => 1

/-- The decoder (R106): the command its OP names, with the operands SRC and FOPC. -/
def decode (c : Word) : Except DecodeError Instr :=
  if highReserved c ≠ 0 ∨ lowReserved c ≠ 0 then .error .reservedBits
  else if opField c = 0x00 ∨ opField c = 0x01 ∨ opField c = 0x02 then
    if srcField c ≠ 0 ∨ fopcField c ≠ 0 ∨ finField c ≠ 0 then .error .unusedField
    else if opField c = 0x00 then .ok .nop
    else if opField c = 0x01 then .ok .shaInit
    else .ok .shaBlock
  else if opField c = 0x03 ∨ opField c = 0x10 ∨ opField c = 0x20 then
    if fopcField c ≠ 0 ∨ finField c ≠ 0 then .error .unusedField
    else if opField c = 0x03 then .ok (.shaMsg (srcOfBit (srcField c)))
    else if opField c = 0x10 then .ok (.b64Enc (srcOfBit (srcField c)))
    else .ok (.fdDecode (srcOfBit (srcField c)))
  else if opField c = 0x30 then
    if finField c = 0 then .error .finClear
    else .ok (.feEncode (srcOfBit (srcField c)) (fopcField c) true)
  else .error .reservedOp

/-- A word of the given fields, in the layout of R101. -/
def layout (fin : BitVec 1) (fopc : BitVec 4) (src : BitVec 1) (op : BitVec 8) : Word :=
  (0#15 ++ fin ++ fopc ++ 0#3 ++ src ++ op : BitVec 32)

/-- The encoder (R108). -/
def encode : Instr → Word
  | .nop => layout 0 0 0 0x00
  | .shaInit => layout 0 0 0 0x01
  | .shaBlock => layout 0 0 0 0x02
  | .shaMsg src => layout 0 0 (srcBit src) 0x03
  | .b64Enc src => layout 0 0 (srcBit src) 0x10
  | .fdDecode src => layout 0 0 (srcBit src) 0x20
  | .feEncode src fopc fin => layout (BitVec.ofBool fin) fopc (srcBit src) 0x30

/-- The instruction the decoder reads from the low `nbits` bits of `w`. A command word is 32 bits and
there is no other length (R100): more than 32 bits are refused. -/
def decodeTableWord (nbits w : Nat) : Option Instr :=
  if nbits ≤ 32 then (decode (BitVec.ofNat 32 (w % 2 ^ nbits))).toOption else none

end Sys2Proof
end

