-- ==== Sys2Proof/Config.lean ====
section
/-! DEFINITION. The implementation parameters of spec/00_scope.md R6. They are plain data, held in
the machine's state and never changed by a step (DESIGN CHOICE, safe: notes/assumptions/1.md), so a
statement over all states covers every parameter value. -/

namespace Sys2Proof

/-- The parameters of R6, in bytes. -/
structure Params where
  ibufBytes : Nat
  obufBytes : Nat
  maxPayloadReset : Nat
deriving DecidableEq, Repr

/-- The legal values of R6. -/
def Params.legal (p : Params) : Bool :=
  p.ibufBytes % 4 == 0 && 64 ≤ p.ibufBytes && p.ibufBytes ≤ 131072 &&
  p.obufBytes % 4 == 0 && 64 ≤ p.obufBytes && p.obufBytes ≤ 131072 &&
  p.maxPayloadReset ≤ p.obufBytes

/-- The defaults of R6. -/
def Params.default : Params :=
  { ibufBytes := 131072, obufBytes := 131072, maxPayloadReset := 65536 }

end Sys2Proof
end

