-- ==== Sys2Proof/Machine/State.lean ====
section
/-! DEFINITION. The machine's state, its reset value, and the reasons a step can stop
(spec/10_state.md R20 to R42, spec/20_memory.md R70, R72, R86). -/

namespace Sys2Proof.Machine

/-- A buffer's bytes by offset, offsets strictly rising; an offset that is not listed holds no value
(R35, R36, R86). -/
abbrev Memory := List Host.Cell

/-- The five accumulators H0 to H4, in that order (R30). -/
abbrev Digest := Vector Word 5

/-- The 512-bit block W0 to W15, in that order (R31). -/
abbrev Block := Vector Word 16

/-- The result codes of R250, in the order of their values 0x00 to 0x07. -/
inductive ResultCode where
  | ok
  | incomplete
  | protoUnmasked
  | protoOpcode
  | protoTooLong
  | illegalCmd
  | badLength
  | outOverflow
deriving DecidableEq, Repr

/-- The stored fields of CTRL (R24). -/
structure Ctrl where
  irqEn : Bool
  lenientUnmasked : Bool
deriving DecidableEq, Repr

/-- The stored fields of STATUS (R25); BUSY is read from `seq` (R37). -/
structure Status where
  done : Bool
  err : Bool
  overrun : Bool
  code : ResultCode
deriving DecidableEq, Repr

/-- The fields of FD_HDR (R32). -/
structure FdHdr where
  b0 : Byte
  b1 : Byte
  hlen : BitVec 4
  close : Bool
  stage : BitVec 2
deriving DecidableEq, Repr

/-- The frame decoder's result registers FD_HDR, FD_PLEN_LO, FD_PLEN_HI, FD_MASKKEY (R32 to R34). -/
structure FdRegs where
  hdr : FdHdr
  plenLo : Word
  plenHi : Word
  maskkey : Word
deriving DecidableEq, Repr

/-- The sequencer's state (R37). -/
inductive Seq where
  | idle
  /-- Performing the command word. -/
  | busy (c : Word)
deriving DecidableEq, Repr

/-- The size of a host transaction (R72). -/
inductive Size where
  | one
  | two
  | four
deriving DecidableEq, Repr

/-- A host transaction (R72). A write of `n` bytes carries the low `8n` bits of its data. -/
inductive Transaction where
  | read (addr : Addr) (size : Size)
  | write (addr : Addr) (size : Size) (data : Word)
deriving DecidableEq, Repr

/-- What reaches the block from outside in one step (R70; DESIGN CHOICE, safe: log 2). -/
inductive PortInput where
  /-- No transaction and no reset: the sequencer may move. -/
  | quiet
  /-- A host transaction. -/
  | bus (t : Transaction)
  /-- `rst` is asserted (R280). -/
  | rst
deriving DecidableEq, Repr

/-- A transaction's response (R72, R74); `readData` is the data of a read, none for a write. -/
structure Response where
  busError : Bool
  readData : Option Word
deriving DecidableEq, Repr

/-- The state of WSCORE (R20), with the two fields of the model's own, `inputs` and `response`. -/
structure State where
  /-- IBUF_BYTES, OBUF_BYTES (read as PARAM_IBUF, PARAM_OBUF; R22, R23) and MAX_PAYLOAD_RESET (R6). -/
  params : Params
  /-- CTRL (R24). -/
  ctrl : Ctrl
  /-- STATUS (R25). -/
  status : Status
  /-- ILEN (R27). -/
  ilen : Word
  /-- OLEN (R28). -/
  olen : Word
  /-- MAX_PAYLOAD (R29). -/
  maxPayload : Word
  /-- H0 to H4 (R30). -/
  h : Digest
  /-- W0 to W15 (R31). -/
  w : Block
  /-- FD_HDR, FD_PLEN_LO, FD_PLEN_HI, FD_MASKKEY (R32 to R34). -/
  fd : FdRegs
  /-- IBUF (R35). -/
  ibuf : Memory
  /-- OBUF (R36). -/
  obuf : Memory
  /-- The command sequencer (R37). -/
  seq : Seq
  /-- The model's own: what arrives from outside, one entry a step, the next first (log 2). -/
  inputs : List PortInput
  /-- The model's own: the response of the last host transaction (log 5). -/
  response : Option Response
deriving DecidableEq, Repr

/-- Why the machine stops: the model faults of R86 and R259, which the spec prescribes. Both are safe
(the hardware goes on with an unknown value). -/
inductive Fault where
  /-- A host read of a buffer byte that holds no value; raised by `hostRead` (safe). -/
  | readOfUnwrittenBufferByte
  /-- A command's input range holds a byte with no value; raised by SHA_MSG, B64_ENC, FD_DECODE and
  FE_ENCODE (safe). -/
  | commandInputUnwritten
deriving DecidableEq, Repr

/-- Why an instruction has no meaning. -/
inductive Refusal where
  /-- The instruction is not modelled; raised by `exec` alone, and by no arm of it now (safe). -/
  | notModelled (mnemonic : String)
deriving DecidableEq, Repr

/-- What a meaning answers. -/
abbrev Result := Host.Outcome State Fault Refusal

/-- The decoder's result registers, all zero (R32 to R34 at reset). -/
def FdRegs.zero : FdRegs :=
  { hdr := { b0 := 0, b1 := 0, hlen := 0, close := false, stage := 0 }
    plenLo := 0, plenHi := 0, maskkey := 0 }

/-- The reset state for given parameters (R42). -/
def State.resetWith (p : Params) : State :=
  { params := p
    ctrl := { irqEn := false, lenientUnmasked := false }
    status := { done := false, err := false, overrun := false, code := .ok }
    ilen := 0
    olen := 0
    maxPayload := BitVec.ofNat 32 p.maxPayloadReset
    h := #v[0x67452301, 0xEFCDAB89, 0x98BADCFE, 0x10325476, 0xC3D2E1F0]
    w := #v[0, 0, 0, 0, 0, 0, 0, 0, 0, 0, 0, 0, 0, 0, 0, 0]
    fd := FdRegs.zero
    ibuf := []
    obuf := []
    seq := .idle
    inputs := []
    response := none }

/-- The machine right after reset, with the default parameters of R6. -/
def State.reset : State := State.resetWith Params.default

end Sys2Proof.Machine
end

