-- ==== Sys2Proof/Machine/Bytes.lean ====
section
/-! DEFINITION. Byte order and bit helpers: the byte-sequence and arithmetic notation of
spec/00_scope.md R9 and R10, and the host port's lanes of spec/20_memory.md R76. -/

namespace Sys2Proof.Machine

/-- `bytes_be(v, n)`: the n-byte big-endian encoding of `v mod 2^(8n)` (R9). -/
def bytesBE (v : Nat) : Nat → List Byte
  | 0 => []
  | n + 1 => BitVec.ofNat 8 (v >>> (8 * n)) :: bytesBE v n

/-- `be_value(s)`: the unsigned value of s read big-endian (R9). -/
def beValue (s : List Byte) : Nat := s.foldl (fun v b => 256 * v + b.toNat) 0

/-- `be32(s, i)`: the word of bytes i to i+3, the first in the high bits (R9). -/
def be32 (s : List Byte) (i : Nat) : Word := BitVec.ofNat 32 (beValue ((s.drop i).take 4))

/-- The n low bytes of v, least significant first: the host port's lanes (R76). -/
def bytesLE (v : Nat) : Nat → List Byte
  | 0 => []
  | n + 1 => BitVec.ofNat 8 v :: bytesLE (v >>> 8) n

/-- The value of bytes in the host port's lanes, the first in bits 7:0 (R76). -/
def leValue : List Byte → Nat
  | [] => 0
  | b :: bs => b.toNat + 256 * leValue bs

/-- `rotl32(x, n)`, for 0 < n < 32 (R10). -/
def rotl32 (x : Word) (n : Nat) : Word := (x <<< n) ||| (x >>> (32 - n))

/-- The number of bytes of a transaction (R72). -/
def Size.bytes : Size → Nat
  | .one => 1
  | .two => 2
  | .four => 4

end Sys2Proof.Machine
end

