-- ==== Sys2Proof/Machine/Flags.lean ====
section
/-! DEFINITION. Every status computation of WSCORE: the result codes' values and which are errors
(spec/60_exceptions.md R250, R251), the words CTRL, STATUS and FD_HDR as the host reads them
(spec/10_state.md R24, R25, R32), write-1-to-clear (R25, R78) and the interrupt output (R38). -/

namespace Sys2Proof.Machine

/-- The value of STATUS.CODE for a result code (R250). -/
def ResultCode.value : ResultCode → BitVec 8
  | .ok => 0x00
  | .incomplete => 0x01
  | .protoUnmasked => 0x02
  | .protoOpcode => 0x03
  | .protoTooLong => 0x04
  | .illegalCmd => 0x05
  | .badLength => 0x06
  | .outOverflow => 0x07

/-- A result code is an error when its value is at least 0x02 (R251). -/
def ResultCode.isError (k : ResultCode) : Bool := decide (0x02 ≤ k.value.toNat)

/-- CTRL as the host reads it (R24). -/
def Ctrl.toWord (c : Ctrl) : Word :=
  (0#30 ++ BitVec.ofBool c.lenientUnmasked ++ BitVec.ofBool c.irqEn : BitVec 32)

/-- What a host write of v stores in CTRL: bits 1:0 (R24, R78). -/
def Ctrl.ofWord (v : Word) : Ctrl :=
  { irqEn := v.getLsbD 0, lenientUnmasked := v.getLsbD 1 }

/-- STATUS.BUSY (R37). -/
def Seq.isBusy : Seq → Bool
  | .idle => false
  | .busy _ => true

/-- STATUS as the host reads it, with BUSY from the sequencer (R25). -/
def Status.toWord (s : Status) (busy : Bool) : Word :=
  (0#16 ++ s.code.value ++ 0#4 ++ BitVec.ofBool s.overrun ++ BitVec.ofBool busy ++
    BitVec.ofBool s.err ++ BitVec.ofBool s.done : BitVec 32)

/-- A host write of v to STATUS: bits 0, 1 and 3 are cleared where v has a 1 (R25, R78). -/
def Status.writeOneToClear (v : Word) (s : Status) : Status :=
  { s with
    done := s.done && !v.getLsbD 0
    err := s.err && !v.getLsbD 1
    overrun := s.overrun && !v.getLsbD 3 }

/-- STATUS after the issue of a command: DONE, ERR and CODE cleared, OVERRUN kept (R130). -/
def Status.issued (s : Status) : Status := { s with done := false, err := false, code := .ok }

/-- STATUS after a completion with code k (R134). -/
def Status.completed (k : ResultCode) (s : Status) : Status :=
  { s with code := k, err := k.isError, done := true }

/-- STATUS after a lost write (R79). -/
def Status.overrunSet (s : Status) : Status := { s with overrun := true }

/-- FD_HDR as the host reads it (R32, R206). -/
def FdHdr.toWord (r : FdHdr) : Word :=
  (0#9 ++ r.stage ++ BitVec.ofBool r.close ++ r.hlen ++ r.b1 ++ r.b0 : BitVec 32)

/-- The interrupt output (R38). -/
def State.irq (s : State) : Bool := s.status.done && s.ctrl.irqEn

end Sys2Proof.Machine
end

