-- ==== Sys2Proof/Machine/Ops.lean ====
section
/-! DEFINITION. The named operations over the buffers and the registers: reading and writing buffer
ranges (spec/10_state.md R35, R36; spec/20_memory.md R86), issue (spec/40_command_common.md R130),
the one commit that ends every command, with an error or without (R134, R135; the block's only
analogue of taking an exception, spec/60_exceptions.md R253), and the reset
(spec/70_reset_and_hazards.md R280). The acknowledgement that answers a completion (R255) is a
STATUS write, in Machine/HostPort.lean. -/

namespace Sys2Proof.Machine

/-! ## Buffers -/

/-- The canonical form of a buffer: offsets strictly rising. Every listed byte is a value, and an
offset that is not listed reads as no value. -/
def Memory.wf : Memory → Bool
  | [] => true
  | [_] => true
  | x :: y :: m => decide (x.1 < y.1) && Memory.wf (y :: m)

/-- Every listed offset exists in a buffer of n bytes. -/
def Memory.within (n : Nat) (m : Memory) : Bool := m.all fun c => decide (c.1 < n)

/-- The byte at an offset, or none where nothing has been written (R86). -/
def Memory.get? (m : Memory) (o : Nat) : Option Byte := List.lookup o m

/-- The bytes at offsets `[o, o + n)`, or none where one of them holds no value (R86). -/
def Memory.readRange (m : Memory) : Nat → Nat → Option (List Byte)
  | _, 0 => some []
  | o, n + 1 =>
    match m.get? o with
    | none => none
    | some b => (Memory.readRange m (o + 1) n).map (b :: ·)

/-- The bytes as cells at consecutive offsets. -/
def cellsFrom : Nat → List Byte → Memory
  | _, [] => []
  | o, b :: bs => (o, b) :: cellsFrom (o + 1) bs

/-- Write bytes at offsets from o on, whatever stood there. -/
def Memory.writeRange (m : Memory) (o : Nat) (bs : List Byte) : Memory :=
  m.filter (fun c => decide (c.1 < o)) ++ cellsFrom o bs ++
    m.filter (fun c => decide (o + bs.length ≤ c.1))

/-! ## Issue, commit and reset -/

/-- The issue of command word c (R130). -/
def State.issue (c : Word) (s : State) : State :=
  { s with seq := .busy c, status := s.status.issued }

/-- The outputs of a command that ends with OK; a field that is none is not written (R134). -/
structure Outputs where
  /-- H0 to H4. -/
  digest : Option Digest := none
  /-- W0 to W15. -/
  block : Option Block := none
  /-- `OBUF[0..OLEN)`, and with it OLEN. -/
  bytes : Option (List Byte) := none
deriving DecidableEq, Repr

/-- Write `OBUF[0..OLEN)` and OLEN (R36, R28); OBUF above it is unchanged. -/
def State.writeOutput (bs : List Byte) (s : State) : State :=
  { s with obuf := s.obuf.writeRange 0 bs, olen := BitVec.ofNat 32 bs.length }

/-- Write the outputs (the first line of R134's commit). -/
def State.writeOutputs (o : Outputs) (s : State) : State :=
  let s := match o.digest with
    | some h => { s with h := h }
    | none => s
  let s := match o.block with
    | some w => { s with w := w }
    | none => s
  match o.bytes with
  | some bs => s.writeOutput bs
  | none => s

/-- The frame decoder's result registers, written by a legal FD_DECODE only (R134, R206). -/
def State.writeFd (r : Option FdRegs) (s : State) : State :=
  match r with
  | some r => { s with fd := r }
  | none => s

/-- The end of every command: STATUS and `seq` (R134). -/
def State.complete (k : ResultCode) (s : State) : State :=
  { s with status := s.status.completed k, seq := .idle }

/-- The commit of R134 with result code k: outputs only when k = OK (R135). -/
def State.commit (k : ResultCode) (o : Outputs) (fd : Option FdRegs) (s : State) : State :=
  let s := if k = .ok then s.writeOutputs o else s
  (s.writeFd fd).complete k

/-- `finish OK` with the given outputs (R11). -/
def State.finishOk (o : Outputs) (s : State) : State := s.commit .ok o none

/-- `raise k`: the command ends with code k and no output (R11, R135). -/
def State.raise (k : ResultCode) (s : State) : State := s.commit k {} none

/-- One step with `rst` asserted: every register at its reset value, no buffer byte holding a value,
a command in progress cancelled (R280 to R282). What is still to arrive from outside is not the
block's, and stays. -/
def State.applyReset (s : State) : State :=
  { State.resetWith s.params with inputs := s.inputs }

end Sys2Proof.Machine
end

