-- ==== Sys2Proof/Machine/Operands.lean ====
section
/-! DEFINITION. The one operand form of WSCORE that reads data: the input source SRC
(spec/30_encoding.md R103, spec/40_command_common.md R132). FOPC and FIN are values of the command
word itself (R104, R105). -/

namespace Sys2Proof.Machine

/-- What forming the input byte sequence answers (R132, R86). -/
inductive Input where
  /-- The bytes of `src`. -/
  | bytes (bs : List Byte)
  /-- SRC = 0 and ILEN > IBUF_BYTES. -/
  | badLength
  /-- A byte of the range holds no value. -/
  | unwritten
deriving DecidableEq, Repr

/-- The input of a range read. -/
def Input.ofRange : Option (List Byte) → Input
  | some bs => .bytes bs
  | none => .unwritten

/-- `input(c)`: the input byte sequence (R132). -/
def inputOf (src : Src) (s : State) : Input :=
  match src with
  | .ibuf =>
    if s.params.ibufBytes < s.ilen.toNat then .badLength
    else Input.ofRange (s.ibuf.readRange 0 s.ilen.toNat)
  | .obuf => Input.ofRange (s.obuf.readRange 0 s.olen.toNat)

/-- A command over its input: `onBadLength` where R132 raises BAD_LENGTH, the fault of R86 where a
byte holds no value, and otherwise `k` of the bytes. The whole range is read before anything else
(R133; DEDUCED, safe: log 7). -/
def withInput (src : Src) (s : State) (onBadLength : State) (k : List Byte → State) : Result :=
  match inputOf src s with
  | .bytes bs => .next (k bs)
  | .badLength => .next onBadLength
  | .unwritten => .fault .commandInputUnwritten

end Sys2Proof.Machine
end

