-- ==== Sys2Proof/Machine/Base64.lean ====
section
/-! DEFINITION. The Base64 encoder (spec/42_base64.md R180 to R182). The ASCII codes are the rule's
own; it marks them as general knowledge (PRESUMED: log 15). -/

namespace Sys2Proof.Machine

/-- The byte of a 6-bit group value (R180). -/
def enc6 (v : BitVec 6) : Byte :=
  if v.toNat < 26 then BitVec.ofNat 8 (0x41 + v.toNat)
  else if v.toNat < 52 then BitVec.ofNat 8 (0x61 + (v.toNat - 26))
  else if v.toNat < 62 then BitVec.ofNat 8 (0x30 + (v.toNat - 52))
  else if v.toNat = 62 then 0x2B
  else 0x2F

/-- The padding character `=` (R180). -/
def padChar : Byte := 0x3D

/-- The inner loop of R181: the 6-bit groups that `nbits` pending bits of `acc` give, and the number of
bits left. The fuel bounds the groups; `nbits` of fuel is enough. -/
def drainGroups : Nat → Nat → Nat → List Byte × Nat
  | 0, _, nbits => ([], nbits)
  | fuel + 1, acc, nbits =>
    if 6 ≤ nbits then
      let r := drainGroups fuel acc (nbits - 6)
      (enc6 (BitVec.ofNat 6 (acc >>> (nbits - 6))) :: r.1, r.2)
    else ([], nbits)

/-- The loop of R181 over the remaining bytes, with the pending bits `acc` and their number, and the
flush of the bits left at the end. -/
def base64Groups : List Byte → Nat → Nat → List Byte
  | [], acc, nbits =>
    if 0 < nbits then [enc6 (BitVec.ofNat 6 (acc <<< (6 - nbits)))] else []
  | b :: bs, acc, nbits =>
    let acc := (acc <<< 8) ||| b.toNat
    let r := drainGroups (nbits + 8) acc (nbits + 8)
    r.1 ++ base64Groups bs (acc &&& ((1 <<< r.2) - 1)) r.2

/-- Pad to a multiple of 4 characters (R181; DEDUCED, safe: log 18). -/
def padToFour (out : List Byte) : List Byte :=
  out ++ List.replicate ((4 - out.length % 4) % 4) padChar

/-- `base64(s)` (R181). -/
def base64 (s : List Byte) : List Byte := padToFour (base64Groups s 0 0)

/-- `4 * ceil(n / 3)`, the encoded length (R182). -/
def base64Length (n : Nat) : Nat := 4 * ((n + 2) / 3)

/-- B64_ENC src (R182). -/
def execB64Enc (src : Src) (s : State) : Result :=
  withInput src s (s.raise .badLength) fun bs =>
    if s.params.obufBytes < base64Length bs.length then s.raise .outOverflow
    else s.finishOk { bytes := some (base64 bs) }

end Sys2Proof.Machine
end

