-- ==== Sys2Proof/Machine/FrameDecoder.lean ====
section
/-! DEFINITION. The WebSocket frame decoder (spec/43_frame_decoder.md R200 to R207). The numeric frame
opcodes but CLOSE are the rule's own; it marks them as general knowledge (PRESUMED: log 15). -/

namespace Sys2Proof.Machine

/-- RESERVED_OPC: 0x3 to 0x7 and 0xB to 0xF (R201). -/
def reservedOpcode (opc : BitVec 4) : Bool :=
  (0x3 ≤ opc.toNat && opc.toNat ≤ 0x7) || 0xB ≤ opc.toNat

/-- The frame opcode, bits 3:0 of byte 0 (R200). -/
def frameOpcode (b0 : Byte) : BitVec 4 := b0.extractLsb' 0 4

/-- The MASK bit, bit 7 of byte 1 (R200). -/
def maskBit (b1 : Byte) : Bool := b1.getLsbD 7

/-- The base length, bits 6:0 of byte 1 (R200). -/
def baseLength (b1 : Byte) : Nat := (b1.extractLsb' 0 7).toNat

/-- `x(l7)`: the number of extended-length bytes (R202). -/
def extLength (l7 : Nat) : Nat := if l7 = 126 then 2 else if l7 = 127 then 8 else 0

/-- The payload length of a frame whose length field is present (R202). -/
def payloadLength (l7 : Nat) (frame : List Byte) : Nat :=
  if extLength l7 = 0 then l7 else beValue ((frame.drop 2).take (extLength l7))

/-- The header length `hlen` (R203). -/
def headerLength (b1 : Byte) : Nat :=
  2 + extLength (baseLength b1) + (if maskBit b1 then 4 else 0)

/-- Byte `i mod 4` of the mask key: `K[31 - 8*(i mod 4) : 24 - 8*(i mod 4)]` (R204). -/
def keyByte (key : Word) (i : Nat) : Byte := key.extractLsb' (24 - 8 * (i % 4)) 8

/-- The XOR mask over bytes that stand at payload positions from i on (R204). -/
def xorMask (key : Word) : Nat → List Byte → List Byte
  | _, [] => []
  | i, b :: bs => (b ^^^ keyByte key i) :: xorMask key (i + 1) bs

/-- `unmask(raw, hlen, plen, K)` (R204). -/
def unmask (raw : List Byte) (hlen plen : Nat) (key : Word) : List Byte :=
  xorMask key 0 ((raw.drop hlen).take plen)

/-- What the decoder answers: the result code, its result registers, and on OK the payload. -/
structure FdResult where
  code : ResultCode
  regs : FdRegs
  payload : List Byte
deriving DecidableEq, Repr

/-- FD_HDR at a stage of at least 1, for frame bytes 0 and 1 (R205). -/
def fdHeader (b0 b1 : Byte) (stage : BitVec 2) : FdHdr :=
  { b0 := b0
    b1 := b1
    hlen := BitVec.ofNat 4 (headerLength b1)
    close := decide (frameOpcode b0 = 0x8)
    stage := stage }

/-- The result registers with a 64-bit payload length (R206). -/
def fdRegs (hdr : FdHdr) (plen : Nat) (key : Word) : FdRegs :=
  { hdr := hdr
    plenLo := BitVec.ofNat 32 plen
    plenHi := BitVec.ofNat 32 (plen >>> 32)
    maskkey := key }

/-- The decoder's end with a code other than OK: the registers as far as the header was parsed. -/
def fdStop (code : ResultCode) (regs : FdRegs) : FdResult :=
  { code := code, regs := regs, payload := [] }

/-- The checks and steps of R205 on the input bytes, in their order. -/
def fdDecode (lenient : Bool) (maxPayload : Nat) (src : List Byte) : FdResult :=
  match src with
  | b0 :: b1 :: _ =>
    let x := extLength (baseLength b1)
    let hlen := headerLength b1
    let plen := payloadLength (baseLength b1) src
    let key := if maskBit b1 then be32 src (2 + x) else 0
    if reservedOpcode (frameOpcode b0) then
      fdStop .protoOpcode (fdRegs (fdHeader b0 b1 1) 0 0)
    else if !maskBit b1 && !lenient then
      fdStop .protoUnmasked (fdRegs (fdHeader b0 b1 1) 0 0)
    else if src.length < 2 + x then
      fdStop .incomplete (fdRegs (fdHeader b0 b1 1) 0 0)
    else if maxPayload < plen then
      fdStop .protoTooLong (fdRegs (fdHeader b0 b1 2) plen 0)
    else if src.length < hlen then
      fdStop .incomplete (fdRegs (fdHeader b0 b1 2) plen 0)
    else if src.length < hlen + plen then
      fdStop .incomplete (fdRegs (fdHeader b0 b1 3) plen key)
    else
      { code := .ok
        regs := fdRegs (fdHeader b0 b1 3) plen key
        payload := unmask src hlen plen key }
  | _ => fdStop .incomplete FdRegs.zero

/-- FD_DECODE src (R205, R206, R207). -/
def execFdDecode (src : Src) (s : State) : Result :=
  withInput src s (s.commit .badLength {} (some FdRegs.zero)) fun bs =>
    let r := fdDecode s.ctrl.lenientUnmasked s.maxPayload.toNat bs
    s.commit r.code { bytes := some r.payload } (some r.regs)

end Sys2Proof.Machine
end

