-- ==== Sys2Proof/Machine/FrameEncoder.lean ====
section
/-! DEFINITION. The WebSocket frame encoder (spec/44_frame_encoder.md R230 to R232). -/

namespace Sys2Proof.Machine

/-- Byte 0 of an encoded frame: `0x80 | (opcode & 0x0F)` (R230). -/
def frameByte0 (fopc : BitVec 4) : Byte := 0x80 ||| fopc.zeroExtend 8

/-- The length multiplexer `lenhdr(n)` (R231). -/
def lenhdr (n : Nat) : List Byte :=
  if n ≤ 125 then [BitVec.ofNat 8 n]
  else if n ≤ 65535 then 126 :: bytesBE n 2
  else 127 :: bytesBE n 8

/-- The header length `hl(n)` (R231). -/
def encHeaderLength (n : Nat) : Nat := 1 + (lenhdr n).length

/-- The encoded frame (R232). -/
def feFrame (fopc : BitVec 4) (payload : List Byte) : List Byte :=
  [frameByte0 fopc] ++ lenhdr payload.length ++ payload

/-- FE_ENCODE src, fopc (R232). With FIN = 0 the word is illegal (R105, R107), and the term completes
as that word does (DEDUCED, safe: log 9). -/
def execFeEncode (src : Src) (fopc : BitVec 4) (fin : Bool) (s : State) : Result :=
  if fin then
    withInput src s (s.raise .badLength) fun bs =>
      if s.params.obufBytes < encHeaderLength bs.length + bs.length then s.raise .outOverflow
      else s.finishOk { bytes := some (feFrame fopc bs) }
  else .next (s.raise .illegalCmd)

end Sys2Proof.Machine
end

