-- ==== Sys2Proof/Machine/Sequencer.lean ====
section
/-! DEFINITION. NOP and illegal command words (spec/40_command_common.md R136, R137). -/

namespace Sys2Proof.Machine

/-- NOP (R136). -/
def execNop (s : State) : Result := .next (s.finishOk {})

/-- The performance of an illegal command word (R137). It is no instruction of the table, so it has
no arm of `exec`; the sequencer's step calls it. -/
def performIllegal (s : State) : Result := .next (s.raise .illegalCmd)

end Sys2Proof.Machine
end

