-- ==== Sys2Proof/Machine/Sha1.lean ====
section
/-! DEFINITION. The SHA-1 digest engine (spec/41_sha1.md R150 to R157, R159). The constants, mixing
functions and rotation amounts are the rules' own; the rules mark them as general knowledge
(PRESUMED: log 14). -/

namespace Sys2Proof.Machine

/-- IV0 to IV4 (R150). -/
def shaIv : Digest := #v[0x67452301, 0xEFCDAB89, 0x98BADCFE, 0x10325476, 0xC3D2E1F0]

/-- The mixing function `f_t(b, c, d)` (R151). -/
def shaMix (t : Nat) (b c d : Word) : Word :=
  if t < 20 then (b &&& c) ||| (~~~b &&& d)
  else if t < 40 then b ^^^ c ^^^ d
  else if t < 60 then (b &&& c) ||| (b &&& d) ||| (c &&& d)
  else b ^^^ c ^^^ d

/-- The round constant `K_t` (R151). -/
def shaConst (t : Nat) : Word :=
  if t < 20 then 0x5A827999
  else if t < 40 then 0x6ED9EBA1
  else if t < 60 then 0x8F1BBCDC
  else 0xCA62C1D6

/-- Extend a schedule `w[0..j)` by k words (R152). -/
def extendSchedule : Nat → List Word → List Word
  | 0, w => w
  | k + 1, w =>
    let j := w.length
    extendSchedule k (w ++ [rotl32 (w.getD (j - 3) 0 ^^^ w.getD (j - 8) 0 ^^^
      w.getD (j - 14) 0 ^^^ w.getD (j - 16) 0) 1])

/-- The 80-word message schedule of a block (R152). -/
def shaSchedule (b : Block) : List Word := extendSchedule 64 b.toList

/-- The working variables (R153). -/
structure WorkVars where
  a : Word
  b : Word
  c : Word
  d : Word
  e : Word
deriving DecidableEq, Repr

/-- Round t of the compression over schedule w (R153). -/
def shaRound (w : List Word) (v : WorkVars) (t : Nat) : WorkVars :=
  { a := rotl32 v.a 5 + shaMix t v.b v.c v.d + v.e + shaConst t + w.getD t 0
    b := v.a
    c := rotl32 v.b 30
    d := v.c
    e := v.d }

/-- The working variables after the first n rounds. -/
def shaRounds (w : List Word) (h : Digest) (n : Nat) : WorkVars :=
  (List.range n).foldl (shaRound w) { a := h[0], b := h[1], c := h[2], d := h[3], e := h[4] }

/-- `compress(H, B)` (R153). -/
def compress (h : Digest) (b : Block) : Digest :=
  let v := shaRounds (shaSchedule b) h 80
  #v[h[0] + v.a, h[1] + v.b, h[2] + v.c, h[3] + v.d, h[4] + v.e]

/-- The number z of zero bytes that pads n bytes: the least with `(n + 1 + z) mod 64 = 56` (R154;
DEDUCED, safe: log 18). -/
def padZeros (n : Nat) : Nat := (119 - n % 64) % 64

/-- `pad(m)` (R154). -/
def shaPad (m : List Byte) : List Byte :=
  m ++ [0x80] ++ List.replicate (padZeros m.length) 0x00 ++ bytesBE (8 * m.length % 2 ^ 64) 8

/-- Block k of a padded message: the words `be32(p, 64k + 4i)` (R157). -/
def blockAt (p : List Byte) (k : Nat) : Block :=
  Vector.ofFn fun i : Fin 16 => be32 p (64 * k + 4 * i.val)

/-- The accumulators after the first n blocks of p, from the initial value (R159). -/
def shaBlocks (p : List Byte) (n : Nat) : Digest :=
  (List.range n).foldl (fun h k => compress h (blockAt p k)) shaIv

/-- `sha1(m)` (R159). -/
def sha1 (m : List Byte) : Digest := shaBlocks (shaPad m) ((shaPad m).length / 64)

/-- The last padded block of a message (R157). -/
def lastBlock (m : List Byte) : Block := blockAt (shaPad m) ((shaPad m).length / 64 - 1)

/-- A digest as bytes: the words' big-endian concatenation (R30, R159). -/
def digestBytes (h : Digest) : List Byte := h.toList.flatMap fun x => bytesBE x.toNat 4

/-- SHA_INIT (R155). -/
def execShaInit (s : State) : Result := .next (s.finishOk { digest := some shaIv })

/-- SHA_BLOCK (R156). -/
def execShaBlock (s : State) : Result := .next (s.finishOk { digest := some (compress s.h s.w) })

/-- The outputs of SHA_MSG over a message (R157). -/
def shaMsgOutputs (m : List Byte) : Outputs :=
  { digest := some (sha1 m), block := some (lastBlock m), bytes := some (digestBytes (sha1 m)) }

/-- SHA_MSG src (R157). -/
def execShaMsg (src : Src) (s : State) : Result :=
  withInput src s (s.raise .badLength) fun m => s.finishOk (shaMsgOutputs m)

end Sys2Proof.Machine
end

