-- ==== Sys2Proof/Machine/Dispatch.lean ====
section
/-! DEFINITION. One arm for each command of spec/opcode_table.json. -/

namespace Sys2Proof.Machine

def exec (i : Instr) (s : State) : Host.Outcome State Fault Refusal :=
  match i with
  | .nop => Sys2Proof.Machine.execNop s
  | .shaInit => Sys2Proof.Machine.execShaInit s
  | .shaBlock => Sys2Proof.Machine.execShaBlock s
  | .shaMsg src => Sys2Proof.Machine.execShaMsg src s
  | .b64Enc src => Sys2Proof.Machine.execB64Enc src s
  | .fdDecode src => Sys2Proof.Machine.execFdDecode src s
  | .feEncode src fopc fin => Sys2Proof.Machine.execFeEncode src fopc fin s

end Sys2Proof.Machine
end

