-- ==== Sys2Proof/Machine/HostPort.lean ====
section
/-! DEFINITION. The host port: the register map (spec/10_state.md R43), which transactions are admitted
and what they reach (spec/20_memory.md R71 to R75), register and buffer access (R75 to R79), and the
responses (R72, R74). -/

namespace Sys2Proof.Machine

/-- The registers of R43. -/
inductive Reg where
  | id
  | paramIbuf
  | paramObuf
  | ctrl
  | status
  | cmd
  | ilen
  | olen
  | maxPayload
  | h (i : Fin 5)
  | w (k : Fin 16)
  | fdHdr
  | fdPlenLo
  | fdPlenHi
  | fdMaskkey
deriving DecidableEq, Repr

/-- The offset of a register (R43). -/
def Reg.offset : Reg → Nat
  | .id => 0x000
  | .paramIbuf => 0x004
  | .paramObuf => 0x008
  | .ctrl => 0x00C
  | .status => 0x010
  | .cmd => 0x014
  | .ilen => 0x018
  | .olen => 0x01C
  | .maxPayload => 0x020
  | .h i => 0x040 + 4 * i.val
  | .w k => 0x080 + 4 * k.val
  | .fdHdr => 0x0C0
  | .fdPlenLo => 0x0C4
  | .fdPlenHi => 0x0C8
  | .fdMaskkey => 0x0CC

/-- Every register of R43. -/
def Reg.all : List Reg :=
  [.id, .paramIbuf, .paramObuf, .ctrl, .status, .cmd, .ilen, .olen, .maxPayload] ++
    (List.finRange 5).map .h ++ (List.finRange 16).map .w ++
    [.fdHdr, .fdPlenLo, .fdPlenHi, .fdMaskkey]

/-- The register at an offset; none where R43 has none. -/
def regAt? (a : Nat) : Option Reg := Reg.all.find? fun r => r.offset == a

/-- The value of register ID (R21). -/
def idValue : Word := 0x57534331

/-- `reg_read`: the value of a register (R75, R21 to R34). -/
def regRead (r : Reg) (s : State) : Word :=
  match r with
  | .id => idValue
  | .paramIbuf => BitVec.ofNat 32 s.params.ibufBytes
  | .paramObuf => BitVec.ofNat 32 s.params.obufBytes
  | .ctrl => s.ctrl.toWord
  | .status => s.status.toWord s.seq.isBusy
  | .cmd => 0
  | .ilen => s.ilen
  | .olen => s.olen
  | .maxPayload => s.maxPayload
  | .h i => s.h[i]
  | .w k => s.w[k]
  | .fdHdr => s.fd.hdr.toWord
  | .fdPlenLo => s.fd.plenLo
  | .fdPlenHi => s.fd.plenHi
  | .fdMaskkey => s.fd.maskkey

/-- What a host write of v stores in MAX_PAYLOAD: `min(v, OBUF_BYTES)` (R29, R78). -/
def clampPayload (p : Params) (v : Word) : Word := BitVec.ofNat 32 (min v.toNat p.obufBytes)

/-- `reg_write`: the effect of a register write by access type (R78). -/
def regWrite (r : Reg) (v : Word) (s : State) : State :=
  match r with
  | .id => s
  | .paramIbuf => s
  | .paramObuf => s
  | .ctrl => { s with ctrl := Ctrl.ofWord v }
  | .status => { s with status := s.status.writeOneToClear v }
  | .cmd => s.issue v
  | .ilen => { s with ilen := v }
  | .olen => s
  | .maxPayload => { s with maxPayload := clampPayload s.params v }
  | .h i => { s with h := s.h.set i v }
  | .w k => { s with w := s.w.set k v }
  | .fdHdr => s
  | .fdPlenLo => s
  | .fdPlenHi => s
  | .fdMaskkey => s

/-- What an admitted transaction reaches (R71). -/
inductive Target where
  | reg (r : Reg)
  /-- `IBUF[o..]`. -/
  | ibuf (o : Nat)
  /-- `OBUF[o..]`. -/
  | obuf (o : Nat)
deriving DecidableEq, Repr

/-- What a transaction of size n at address a reaches; none where it is not admitted (R71, R73, R74). -/
def locate (p : Params) (a : Nat) (n : Size) : Option Target :=
  if a % n.bytes ≠ 0 then none
  else if a < 0x00100 then
    if n = .four then (regAt? a).map .reg else none
  else if a < 0x20000 then none
  else if a < 0x40000 then
    if a - 0x20000 + n.bytes ≤ p.ibufBytes then some (.ibuf (a - 0x20000)) else none
  else if a < 0x60000 then
    if a - 0x40000 + n.bytes ≤ p.obufBytes then some (.obuf (a - 0x40000)) else none
  else none

/-- Give a response to the host (R72). -/
def State.respond (r : Response) (s : State) : State := { s with response := some r }

/-- The OKAY response of a read (R72). -/
def okayRead (v : Word) : Response := { busError := false, readData := some v }

/-- The OKAY response of a write (R72). -/
def okayWrite : Response := { busError := false, readData := none }

/-- The BUS_ERROR response of a read, with read data 0 (R74). -/
def busErrorRead : Response := { busError := true, readData := some 0 }

/-- The BUS_ERROR response of a write (R74). -/
def busErrorWrite : Response := { busError := true, readData := none }

/-- `buf_read`, as a response; the fault of R86 where a byte holds no value (R76). -/
def bufRead (m : Memory) (o : Nat) (n : Size) (s : State) : Result :=
  match m.readRange o n.bytes with
  | some bs => .next (s.respond (okayRead (BitVec.ofNat 32 (leValue bs))))
  | none => .fault .readOfUnwrittenBufferByte

/-- `MemRead` (R72). -/
def hostRead (a : Addr) (n : Size) (s : State) : Result :=
  match locate s.params a.toNat n with
  | none => .next (s.respond busErrorRead)
  | some (.reg r) => .next (s.respond (okayRead (regRead r s)))
  | some (.ibuf o) => bufRead s.ibuf o n s
  | some (.obuf o) => bufRead s.obuf o n s

/-- The effect of a write that is performed: `reg_write` or `buf_write` (R72, R76, R78). -/
def targetWrite (t : Target) (n : Size) (v : Word) (s : State) : State :=
  match t with
  | .reg r => regWrite r v s
  | .ibuf o => { s with ibuf := s.ibuf.writeRange o (bytesLE v.toNat n.bytes) }
  | .obuf o => { s with obuf := s.obuf.writeRange o (bytesLE v.toNat n.bytes) }

/-- The effect of an admitted write: performed while IDLE or to STATUS, otherwise lost (R72, R79). -/
def admittedWrite (t : Target) (n : Size) (v : Word) (s : State) : State :=
  if s.seq.isBusy = true ∧ t ≠ .reg .status then { s with status := s.status.overrunSet }
  else targetWrite t n v s

/-- `MemWrite` (R72). -/
def hostWrite (a : Addr) (n : Size) (v : Word) (s : State) : Result :=
  match locate s.params a.toNat n with
  | none => .next (s.respond busErrorWrite)
  | some t => .next ((admittedWrite t n v s).respond okayWrite)

/-- One host transaction (R72). -/
def hostTransaction (t : Transaction) (s : State) : Result :=
  match t with
  | .read a n => hostRead a n s
  | .write a n v => hostWrite a n v s

end Sys2Proof.Machine
end

