-- ==== Sys2Proof/Machine/Agents.lean ====
section
/-! DEFINITION. The agents that move in one step: the sequencer (spec/40_command_common.md R131), the
host port (spec/20_memory.md R72) and the reset input (spec/70_reset_and_hazards.md R280). Which of
them moves next is the head of `inputs` (DESIGN CHOICE, safe: log 2). -/

namespace Sys2Proof.Machine

/-- The performance of command word c (R131): a legal word's command, or R137. -/
def perform (c : Word) (s : State) : Result :=
  match decode c with
  | .ok i => exec i s
  | .error _ => performIllegal s

/-- The sequencer's step while BUSY; while IDLE it has none, and nothing changes (R131; DEDUCED, safe:
log 3). -/
def sequencerStep (s : State) : Result :=
  match s.seq with
  | .idle => .next s
  | .busy c => perform c s

/-- One step on one input, with that input already taken from the list. -/
def stepOn (i : PortInput) (s : State) : Result :=
  match i with
  | .quiet => sequencerStep s
  | .bus t => hostTransaction t s
  | .rst => .next s.applyReset

/-- Take the next input and move; where nothing more arrives, the sequencer moves (log 2, log 10). -/
def takeStep (s : State) : Result :=
  match s.inputs with
  | [] => sequencerStep s
  | i :: rest => stepOn i { s with inputs := rest }

/-- The state in which the very next step performs command word c: issued as a CMD write would, with
the next step left to the sequencer (log 4). -/
def State.issueNext (c : Word) (s : State) : State :=
  { s.issue c with inputs := .quiet :: s.inputs }

/-- The command word in the low `nbits` bits of `w`. -/
def tableWord (nbits w : Nat) : Word := BitVec.ofNat 32 (w % 2 ^ nbits)

end Sys2Proof.Machine
end

