-- ==== Sys2Proof/Machine/Step.lean ====
section
/-! DEFINITION. One step of WSCORE, and the placing of a command word for the next step. -/

namespace Sys2Proof.Machine

/-- One step: one host transaction, one command, one cycle of `rst`, or nothing (R72, R131, R280). -/
def step (s : State) : Host.Outcome State Fault Refusal := takeStep s

/-- `s` with the command word issued, so that the very next step performs it. WSCORE fetches nothing
(R87): a command arrives as a CMD write, and this stands for it (log 4). -/
def State.withFetchWord (s : State) (nbits w : Nat) : State := s.issueNext (tableWord nbits w)

end Sys2Proof.Machine
end

