-- ==== Sys2Proof/Machine/HostProgram.lean ====
section
/-! DEFINITION. The host programs' notation of spec/30_encoding.md R109 and R110, as lists of port inputs.
They are what a host sends, not behaviour of the block. -/

namespace Sys2Proof.Machine

/-- `wr32 A, V` with a block address (R109). -/
def wr32 (a : Nat) (v : Word) : PortInput := .bus (.write (BitVec.ofNat 19 a) .four v)

/-- `wr8 A, V` (R109). -/
def wr8 (a : Nat) (v : Byte) : PortInput := .bus (.write (BitVec.ofNat 19 a) .one (v.zeroExtend 32))

/-- `rd32 A` (R109). -/
def rd32 (a : Nat) : PortInput := .bus (.read (BitVec.ofNat 19 a) .four)

/-- `wr32 R, V` with a register's name (R109). -/
def wrReg (r : Reg) (v : Word) : PortInput := wr32 r.offset v

/-- `cmd X` (R110). -/
def cmdInputs (i : Instr) : List PortInput := [wrReg .cmd (encode i)]

/-- `ack` (R110). -/
def ackInputs : List PortInput := [wrReg .status 0x0000000B]

/-- `wait` (R110), unrolled for a command that completes before the first poll (log 19). -/
def waitInputs : List PortInput := [.quiet, rd32 Reg.status.offset]

/-- `wr8 IBUF+i, s[i]` for the bytes of s, from offset i on (R110). -/
def loadBytes : Nat → List Byte → List PortInput
  | _, [] => []
  | i, b :: bs => wr8 (0x20000 + i) b :: loadBytes (i + 1) bs

/-- `load ibuf, s` (R110). -/
def loadInputs (s : List Byte) : List PortInput :=
  loadBytes 0 s ++ [wrReg .ilen (BitVec.ofNat 32 s.length)]

/-- `run X` (R110). -/
def runInputs (i : Instr) : List PortInput := cmdInputs i ++ waitInputs

/-- The sixteen writes of a block into W0 to W15 (R31). -/
def blockInputs (b : Block) : List PortInput :=
  (List.finRange 16).map fun k => wrReg (.w k) b[k]

end Sys2Proof.Machine
end

