-- ==== Sys2Proof/Safety.lean ====
section
/-! DEFINITION. The terms in which claims are made: the invariant of the machine (spec/10_state.md R41),
what a command leaves unchanged, what a command's input is, when a word is legal and a transaction is
not admitted, written from the rules and apart from the machine's own functions. -/

namespace Sys2Proof.Machine

/-! ## The invariant -/

/-- What the decoder's result registers always satisfy (R32, R33, R34, R41 (e)). -/
structure FdRegs.Consistent (r : FdRegs) : Prop where
  /-- Every field of FD_HDR is 0 at STAGE = 0 (R32). -/
  stage_zero : r.hdr.stage = 0 → r.hdr = FdRegs.zero.hdr
  /-- CLOSE is valid at STAGE >= 1 (R32). -/
  close_valid : r.hdr.stage ≠ 0 → (r.hdr.close = true ↔ r.hdr.b0.toNat % 16 = 8)
  /-- HLEN is valid at STAGE >= 1 (R32, R203). -/
  hlen_valid : r.hdr.stage ≠ 0 → r.hdr.hlen.toNat = headerLength r.hdr.b1
  /-- R41 (e). -/
  plen_zero : r.hdr.stage.toNat < 2 → r.plenLo = 0 ∧ r.plenHi = 0
  /-- R41 (e). -/
  key_zero : r.hdr.stage.toNat < 3 → r.maskkey = 0
  /-- The key is 0 when the frame had MASK = 0 (R34). -/
  key_unmasked : r.hdr.b1.toNat < 128 → r.maskkey = 0

/-- The invariant of every reachable state: R41 (a), (b), (c), (e), with the parameters legal (R6), the
buffers in canonical form and inside their sizes (R35, R36), and every byte of `OBUF[0..OLEN)` holding
a value (R28, R36; DEDUCED). R41 (d) is about two states; see `Obligations.ErrRisesOnlyAtCompletion`. -/
structure State.Inv (s : State) : Prop where
  params_legal : s.params.legal = true
  olen_le : s.olen.toNat ≤ s.params.obufBytes
  maxPayload_le : s.maxPayload.toNat ≤ s.params.obufBytes
  busy_clear : s.seq.isBusy = true →
    s.status.done = false ∧ s.status.err = false ∧ s.status.code = .ok
  fd_consistent : s.fd.Consistent
  ibuf_wf : s.ibuf.wf = true
  ibuf_within : s.ibuf.within s.params.ibufBytes = true
  obuf_wf : s.obuf.wf = true
  obuf_within : s.obuf.within s.params.obufBytes = true
  olen_written : ∀ o, o < s.olen.toNat → (s.obuf.get? o).isSome = true

/-- A run of n steps that stops nowhere. -/
def SafeRun (n : Nat) (s : State) : Prop := ∃ t, Host.Core.run core n s = .next t

/-! ## The sequencer's turn -/

/-- In state s the sequencer moves next, on the state s₀: nothing more arrives, or the next input is
quiet (log 2). -/
def SequencerTurn (s s₀ : State) : Prop :=
  (s.inputs = [] ∧ s₀ = s) ∨ ∃ rest, s.inputs = .quiet :: rest ∧ s₀ = { s with inputs := rest }

/-! ## Commands -/

/-- The legality predicate of R106, as it is written there. -/
def LegalWord (c : Word) : Prop :=
  c.extractLsb 31 17 = 0 ∧ c.extractLsb 11 9 = 0 ∧
    ((c.extractLsb 7 0 ∈ [0x00#8, 0x01#8, 0x02#8] ∧ c.extractLsb 8 8 = 0 ∧ c.extractLsb 15 12 = 0 ∧
        c.extractLsb 16 16 = 0) ∨
      (c.extractLsb 7 0 ∈ [0x03#8, 0x10#8, 0x20#8] ∧ c.extractLsb 15 12 = 0 ∧
        c.extractLsb 16 16 = 0) ∨
      (c.extractLsb 7 0 = 0x30#8 ∧ c.extractLsb 16 16 = 1))

/-- The commands that read an input source (R132), for a given SRC; FE_ENCODE with FIN = 1. -/
def sourceCommands (src : Src) (fopc : BitVec 4) : List Instr :=
  [.shaMsg src, .b64Enc src, .fdDecode src, .feEncode src fopc true]

/-- `bs` is the input byte sequence `src` of a command (R132). -/
def InputIs (src : Src) (s : State) (bs : List Byte) : Prop :=
  match src with
  | .ibuf =>
    s.ilen.toNat ≤ s.params.ibufBytes ∧ bs.length = s.ilen.toNat ∧
      ∀ i (h : i < bs.length), s.ibuf.get? i = some bs[i]
  | .obuf => bs.length = s.olen.toNat ∧ ∀ i (h : i < bs.length), s.obuf.get? i = some bs[i]

/-- SRC = 0 and ILEN > IBUF_BYTES (R132). -/
def InputTooLong (src : Src) (s : State) : Prop :=
  src = .ibuf ∧ s.params.ibufBytes < s.ilen.toNat

/-- A byte of the input range holds no value (R86, R132). -/
def InputUnwritten (src : Src) (s : State) : Prop :=
  match src with
  | .ibuf => s.ilen.toNat ≤ s.params.ibufBytes ∧ ∃ i, i < s.ilen.toNat ∧ s.ibuf.get? i = none
  | .obuf => ∃ i, i < s.olen.toNat ∧ s.obuf.get? i = none

/-- What no command changes, whatever its code (R134, R135): CTRL, ILEN, MAX_PAYLOAD, IBUF, OVERRUN, the
parameters, and what is outside the block. -/
structure CommandFrame (s t : State) : Prop where
  params : t.params = s.params
  ctrl : t.ctrl = s.ctrl
  ilen : t.ilen = s.ilen
  maxPayload : t.maxPayload = s.maxPayload
  ibuf : t.ibuf = s.ibuf
  overrun : t.status.overrun = s.status.overrun
  inputs : t.inputs = s.inputs
  response : t.response = s.response

/-- The completion every command ends with (R134, R251). -/
structure Completed (k : ResultCode) (t : State) : Prop where
  code : t.status.code = k
  done : t.status.done = true
  err : t.status.err = true ↔ 2 ≤ k.value.toNat
  seq : t.seq = .idle

/-- H0 to H4, W0 to W15 and the decoder's result registers are unchanged. -/
structure EnginesKept (s t : State) : Prop where
  h : t.h = s.h
  w : t.w = s.w
  fd : t.fd = s.fd

/-- OBUF and OLEN are unchanged, read byte by byte. -/
structure OutputKept (s t : State) : Prop where
  olen : t.olen = s.olen
  obuf : ∀ o, t.obuf.get? o = s.obuf.get? o

/-- `OBUF[0..out.length)` holds `out`, OLEN is its length, and every byte of OBUF above it is
unchanged (R36). -/
structure OutputIs (out : List Byte) (s t : State) : Prop where
  olen : t.olen.toNat = out.length
  obuf : ∀ o, t.obuf.get? o = if h : o < out.length then some out[o] else s.obuf.get? o

/-- Command i ends with code k and changes STATUS and `seq` alone (R135). -/
def EndsWithStatusOnly (i : Instr) (s : State) (k : ResultCode) : Prop :=
  ∃ t, exec i s = .next t ∧ CommandFrame s t ∧ Completed k t ∧ EnginesKept s t ∧ OutputKept s t

/-- FD_DECODE ends with a code other than OK: the result registers are as given, and nothing but they,
STATUS and `seq` changes (R135, R206). -/
def DecoderStops (src : Src) (s : State) (k : ResultCode) (r : FdRegs) : Prop :=
  ∃ t, exec (.fdDecode src) s = .next t ∧ CommandFrame s t ∧ Completed k t ∧ t.fd = r ∧
    t.h = s.h ∧ t.w = s.w ∧ OutputKept s t

/-- FD_DECODE ends with OK: the payload is in `OBUF[0..OLEN)` (R205, R206). -/
def DecoderDelivers (src : Src) (s : State) (payload : List Byte) (r : FdRegs) : Prop :=
  ∃ t, exec (.fdDecode src) s = .next t ∧ CommandFrame s t ∧ Completed .ok t ∧ t.fd = r ∧
    t.h = s.h ∧ t.w = s.w ∧ OutputIs payload s t

/-- The masked client frame `mframe(opc, p, K)` of R233. -/
def maskedFrame (opc : BitVec 4) (p : List Byte) (key : Word) : List Byte :=
  [0x80 ||| opc.zeroExtend 8] ++ [0x80 ||| (lenhdr p.length).headD 0] ++ (lenhdr p.length).tail ++
    bytesBE key.toNat 4 ++ unmask p 0 p.length key

/-- The port inputs that hash a message block by block: SHA_INIT, then for each padded block its sixteen
words and SHA_BLOCK (R158 (a)). -/
def streamInputs (m : List Byte) : List PortInput :=
  cmdInputs .shaInit ++ [.quiet] ++
    (List.range ((shaPad m).length / 64)).flatMap fun k =>
      blockInputs (blockAt (shaPad m) k) ++ cmdInputs .shaBlock ++ [.quiet]

/-! ## Host transactions -/

/-- The offsets of R43's table. -/
def registerOffsets : List Nat :=
  [0x000, 0x004, 0x008, 0x00C, 0x010, 0x014, 0x018, 0x01C, 0x020] ++
    [0x040, 0x044, 0x048, 0x04C, 0x050] ++
    [0x080, 0x084, 0x088, 0x08C, 0x090, 0x094, 0x098, 0x09C,
      0x0A0, 0x0A4, 0x0A8, 0x0AC, 0x0B0, 0x0B4, 0x0B8, 0x0BC] ++
    [0x0C0, 0x0C4, 0x0C8, 0x0CC]

/-- `admitted(addr, n)` is false: one of (a) to (f) of R74. -/
def NotAdmitted (p : Params) (a : Addr) (n : Size) : Prop :=
  a.toNat % n.bytes ≠ 0 ∨
  (a.toNat ≤ 0x000FF ∧ n ≠ .four) ∨
  (a.toNat ≤ 0x000FF ∧ a.toNat ∉ registerOffsets) ∨
  (0x20000 ≤ a.toNat ∧ a.toNat ≤ 0x3FFFF ∧ p.ibufBytes < a.toNat - 0x20000 + n.bytes) ∨
  (0x40000 ≤ a.toNat ∧ a.toNat ≤ 0x5FFFF ∧ p.obufBytes < a.toNat - 0x40000 + n.bytes) ∨
  (0x00100 ≤ a.toNat ∧ a.toNat ≤ 0x1FFFF) ∨ 0x60000 ≤ a.toNat

/-- The state after a host transaction that changes nothing but the response. -/
def answered (s : State) (rest : List PortInput) (r : Response) : State :=
  { s with inputs := rest, response := some r }

end Sys2Proof.Machine
end

