-- ==== Sys2Proof/Certificates/Slice0/Obligations.lean ====
section
/-! DEFINITION. The statements about the machine, by the spec's files: encoding, sequencer, host port,
SHA-1, Base64, frame decoder, frame encoder, whole-machine rules, reset. -/

open Sys2Proof Sys2Proof.Machine

/-! ## Encoding (30_encoding.md) -/

/-- R108: the words written out in the rule's table and examples decode to their commands and are what
the encoder writes. -/
def Obligations.SpecWordsDecode : Prop :=
  (decode 0x00000000 = .ok .nop ∧ encode .nop = 0x00000000) ∧
  (decode 0x00000001 = .ok .shaInit ∧ encode .shaInit = 0x00000001) ∧
  (decode 0x00000002 = .ok .shaBlock ∧ encode .shaBlock = 0x00000002) ∧
  (decode 0x00000003 = .ok (.shaMsg .ibuf) ∧ encode (.shaMsg .ibuf) = 0x00000003) ∧
  (decode 0x00000103 = .ok (.shaMsg .obuf) ∧ encode (.shaMsg .obuf) = 0x00000103) ∧
  (decode 0x00000010 = .ok (.b64Enc .ibuf) ∧ encode (.b64Enc .ibuf) = 0x00000010) ∧
  (decode 0x00000110 = .ok (.b64Enc .obuf) ∧ encode (.b64Enc .obuf) = 0x00000110) ∧
  (decode 0x00000020 = .ok (.fdDecode .ibuf) ∧ encode (.fdDecode .ibuf) = 0x00000020) ∧
  (decode 0x00000120 = .ok (.fdDecode .obuf) ∧ encode (.fdDecode .obuf) = 0x00000120) ∧
  (∀ f : BitVec 4, decode (0x00010030 ||| f.zeroExtend 32 <<< 12) = .ok (.feEncode .ibuf f true) ∧
    encode (.feEncode .ibuf f true) = 0x00010030 ||| f.zeroExtend 32 <<< 12) ∧
  (∀ f : BitVec 4, decode (0x00010130 ||| f.zeroExtend 32 <<< 12) = .ok (.feEncode .obuf f true) ∧
    encode (.feEncode .obuf f true) = 0x00010130 ||| f.zeroExtend 32 <<< 12) ∧
  encode (.feEncode .obuf 0x1 true) = 0x00011130 ∧
  encode (.feEncode .ibuf 0x8 true) = 0x00018030 ∧
  encode (.feEncode .obuf 0x2 true) = 0x00012130

/-- Decoding an encoded well-formed command gives it back, at every operand value. -/
def Obligations.DecodeInvertsEncode : Prop :=
  ∀ i : Instr, i.WellFormed → decode (encode i) = .ok i

/-- R106: the decoder accepts exactly the legal words, each is the word of the command it decodes to,
and there are 41 of them, shared out among the commands as the rule says. -/
def Obligations.LegalWordsAreTheDecodedWords : Prop :=
  (∀ c, (∃ i, decode c = .ok i) ↔ LegalWord c) ∧
  (∀ c i, decode c = .ok i → i.WellFormed ∧ encode i = c) ∧
  (∀ c, decode c = .ok .nop ↔ c = 0x00000000) ∧
  (∀ c, decode c = .ok .shaInit ↔ c = 0x00000001) ∧
  (∀ c, decode c = .ok .shaBlock ↔ c = 0x00000002) ∧
  (∀ c, (∃ src, decode c = .ok (.shaMsg src)) ↔ c = 0x00000003 ∨ c = 0x00000103) ∧
  (∀ c, (∃ src, decode c = .ok (.b64Enc src)) ↔ c = 0x00000010 ∨ c = 0x00000110) ∧
  (∀ c, (∃ src, decode c = .ok (.fdDecode src)) ↔ c = 0x00000020 ∨ c = 0x00000120) ∧
  (∃ frames : List Word, frames.length = 32 ∧ frames.Nodup ∧
    ∀ c, (∃ src f, decode c = .ok (.feEncode src f true)) ↔ c ∈ frames) ∧
  ∃ words : List Word, words.length = 41 ∧ words.Nodup ∧ ∀ c, LegalWord c ↔ c ∈ words

/-! ## The sequencer (40_command_common.md) -/

/-- A step runs the decoded command: on the sequencer's turn a command word in progress that decodes to
i is performed as `exec i`, and so is a word placed by `withFetchWord` (log 4). -/
def Obligations.StepRunsDecodedCommand : Prop :=
  (∀ s s₀ c i, SequencerTurn s s₀ → s.seq = .busy c → decode c = .ok i → step s = exec i s₀) ∧
  ∀ (s : State) nbits w i, decodeTableWord nbits w = some i →
    step (s.withFetchWord nbits w) = exec i (s.issue (tableWord nbits w))

/-- R131's last sentence, "While `seq` = IDLE the sequencer has no step": the model's step then changes
nothing (the stutter is the model's choice, log 3). -/
def Obligations.IdleSequencerChangesNothing : Prop :=
  ∀ s s₀, SequencerTurn s s₀ → s.seq = .idle → step s = .next s₀

/-- R130: a CMD write while IDLE issues the word, whatever its value, and a CMD write while BUSY issues
nothing. -/
def Obligations.CmdWriteIssues : Prop :=
  ∀ (s : State) c rest, s.inputs = .bus (.write 0x00014 .four c) :: rest →
    (s.seq = .idle → ∃ t, step s = .next t ∧
      t = { answered s rest okayWrite with
            seq := .busy c
            status := { done := false, err := false, overrun := s.status.overrun, code := .ok } } ∧
      (regRead .status t).getLsbD 2 = true ∧ t.irq = false) ∧
    (∀ c', s.seq = .busy c' → ∃ t, step s = .next t ∧ t.seq = .busy c')

/-- R137: an illegal command word in progress completes with ILLEGAL_CMD and changes nothing else; the
rule's four example words are illegal, and from OVERRUN = 0 STATUS then reads 0x0000_0503. -/
def Obligations.IllegalWordCompletes : Prop :=
  (∀ s s₀ c, SequencerTurn s s₀ → s.seq = .busy c → ¬ LegalWord c →
    ∃ t, step s = .next t ∧
      t = { s₀ with
            seq := .idle
            status := { done := true, err := true, overrun := s.status.overrun, code := .illegalCmd } } ∧
      (t.status.code.value = 0x05 ∧ (s.status.overrun = false → regRead .status t = 0x00000503))) ∧
  ¬ LegalWord 0x00000004 ∧ ¬ LegalWord 0x00000101 ∧ ¬ LegalWord 0x00000030 ∧
  ¬ LegalWord 0x00020003 ∧ ¬ LegalWord 0x000000FF

/-- R136: NOP writes STATUS and `seq` alone, always with OK; its one word is 0x0000_0000, and STATUS
then reads 0x0000_0009 if OVERRUN was set and 0x0000_0001 if not. -/
def Obligations.NopCompletes : Prop :=
  (∀ s, ∃ t, exec .nop s = .next t ∧
    t = { s with
          seq := .idle
          status := { done := true, err := false, overrun := s.status.overrun, code := .ok } } ∧
    regRead .status t = if s.status.overrun then 0x00000009 else 0x00000001) ∧
  (∀ c, decode c = .ok .nop ↔ c = 0x00000000) ∧
  ∀ c : Word, c.extractLsb 7 0 = 0x00#8 → c ≠ 0 → ¬ LegalWord c

/-- R132: the input of a command that reads a source. With SRC = 0 and ILEN > IBUF_BYTES it ends with
BAD_LENGTH, and in no other case; a byte of the range with no value faults; otherwise the input is one
byte sequence and no other. ILEN = IBUF_BYTES is in range, ILEN = 0 selects the empty sequence. -/
def Obligations.InputSelection : Prop :=
  (∀ src (s : State), InputTooLong src s ∨ InputUnwritten src s ∨ ∃ bs, InputIs src s bs) ∧
  (∀ src (s : State) bs, InputIs src s bs → ¬ InputTooLong src s ∧ ¬ InputUnwritten src s ∧
    (∀ bs', InputIs src s bs' → bs' = bs) ∧ (src = .ibuf → s.ilen = 0 → bs = [])) ∧
  (∀ s : State, s.ilen.toNat = s.params.ibufBytes → ¬ InputTooLong .ibuf s) ∧
  ∀ src (s : State) f, ∀ i ∈ sourceCommands src f,
    (InputTooLong src s → ∃ t, exec i s = .next t ∧ t.status.code = .badLength) ∧
    (∀ t, exec i s = .next t → t.status.code = .badLength → src = .ibuf ∧ InputTooLong src s) ∧
    (InputUnwritten src s → exec i s = .fault .commandInputUnwritten) ∧
    (∀ bs, InputIs src s bs → ∃ t, exec i s = .next t)

/-- R135: a command that ends with a code other than OK writes none of OBUF, OLEN, H0 to H4 and W0 to
W15; only STATUS and, for FD_DECODE, the decoder's result registers change. -/
def Obligations.FailureWritesNoOutput : Prop :=
  ∀ c s t, perform c s = .next t → t.status.code ≠ .ok →
    CommandFrame s t ∧ t.h = s.h ∧ t.w = s.w ∧ OutputKept s t ∧ t.seq = .idle ∧
    ((∀ src, decode c ≠ .ok (.fdDecode src)) → t.fd = s.fd)

/-- R251 and the commit of R134: whatever the word and its result code, performing it keeps what no
command writes, sets DONE, leaves the block IDLE, and sets ERR exactly when the code is at least 0x02,
so not for OK and INCOMPLETE. -/
def Obligations.CompletionSetsErrForErrors : Prop :=
  (∀ c s t, perform c s = .next t → CommandFrame s t ∧ t.seq = .idle ∧ t.status.done = true ∧
    (t.status.err = true ↔ 0x02 ≤ t.status.code.value.toNat)) ∧
  ResultCode.ok.value = 0x00 ∧ ResultCode.incomplete.value = 0x01

/-- R250's column "raised by": which codes each command can end with, that ILLEGAL_CMD is the end of
exactly the illegal words, and that no code is above 0x07. -/
def Obligations.ResultCodesByCommand : Prop :=
  (∀ c s t, perform c s = .next t →
    (t.status.code = .illegalCmd ↔ ¬ LegalWord c) ∧ t.status.code.value.toNat ≤ 0x07) ∧
  (∀ i ∈ [Instr.nop, .shaInit, .shaBlock], ∀ s t, exec i s = .next t → t.status.code = .ok) ∧
  (∀ src s t, exec (.shaMsg src) s = .next t → t.status.code ∈ [.ok, .badLength]) ∧
  (∀ src s t, exec (.b64Enc src) s = .next t → t.status.code ∈ [.ok, .badLength, .outOverflow]) ∧
  (∀ src s t, exec (.fdDecode src) s = .next t →
    t.status.code ∈ [.ok, .incomplete, .protoUnmasked, .protoOpcode, .protoTooLong, .badLength]) ∧
  (∀ src f s t, exec (.feEncode src f true) s = .next t →
    t.status.code ∈ [.ok, .badLength, .outOverflow])

/-- R133 and R80: whatever host transactions arrive while a command is in progress, its outcome is the
one it has at issue; only OVERRUN and the host's last response can differ. -/
def Obligations.BusyTransactionsDoNotReachCommand : Prop :=
  ∀ (s : State) c (ts : List Transaction) rest (u : State), s.seq = .busy c →
    s.inputs = ts.map .bus ++ .quiet :: rest →
    Host.Core.run core (ts.length + 1) s = .next u →
    ∃ v, step { s with inputs := .quiet :: rest } = .next v ∧
      u = { v with
            status := { v.status with overrun := u.status.overrun }
            response := u.response }

/-- R131 and R287 as the model has them (log 10): when a command is in progress and only finitely many
host transactions are still to arrive, it is still in progress after them, and the step after them
performs it. -/
def Obligations.CommandCompletesAfterLastTransaction : Prop :=
  ∀ (s : State) c (ts : List Transaction) (u : State), s.seq = .busy c → s.inputs = ts.map .bus →
    Host.Core.run core ts.length s = .next u →
    u.seq = .busy c ∧ u.inputs = [] ∧
      ((∃ t, step u = .next t ∧ t.seq = .idle ∧ t.status.done = true) ∨
        step u = .fault .commandInputUnwritten)

/-- R139: a command's result code and every output are a function of the command word, CTRL, ILEN, OLEN,
MAX_PAYLOAD, H0 to H4, W0 to W15 and the bytes of its input, for given legal parameters. -/
def Obligations.OutcomeIsFunctionOfOperands : Prop :=
  ∀ (c : Word) (s s' t : State), s.params.legal = true → s'.params = s.params →
    s'.ctrl = s.ctrl → s'.ilen = s.ilen → s'.olen = s.olen → s'.maxPayload = s.maxPayload →
    s'.h = s.h → s'.w = s.w →
    (∀ src f bs, (∃ i ∈ sourceCommands src f, decode c = .ok i) → InputIs src s bs →
      InputIs src s' bs) →
    perform c s = .next t →
    ∃ t', perform c s' = .next t' ∧ t'.status.code = t.status.code ∧ t'.h = t.h ∧ t'.w = t.w ∧
      t'.olen = t.olen ∧ ((∃ src, decode c = .ok (.fdDecode src)) → t'.fd = t.fd) ∧
      ((∃ src f, ∃ i ∈ sourceCommands src f, decode c = .ok i) → t.status.code = .ok →
        ∀ o, o < t.olen.toNat → t'.obuf.get? o = t.obuf.get? o)

/-- In a state that meets the invariant, a command whose source is OBUF always completes: it neither
faults nor ends with BAD_LENGTH. -/
def Obligations.ChainedCommandsComplete : Prop :=
  ∀ s f, s.Inv → ∀ i ∈ sourceCommands .obuf f,
    ∃ t, exec i s = .next t ∧ t.status.code ≠ .badLength

/-! ## The host port (20_memory.md, 10_state.md) -/

/-- R74: a transaction gets BUS_ERROR exactly when one of (a) to (f) holds; a BUS_ERROR read returns 0,
and a BUS_ERROR transaction changes no state. -/
def Obligations.BusErrorExactlyWhenNotAdmitted : Prop :=
  ∀ (s : State) a n rest,
    (s.inputs = .bus (.read a n) :: rest →
      (NotAdmitted s.params a n →
        step s = .next (answered s rest { busError := true, readData := some 0 })) ∧
      (¬ NotAdmitted s.params a n → ∀ t, step s = .next t →
        ∃ v, t.response = some { busError := false, readData := some v })) ∧
    ∀ v, s.inputs = .bus (.write a n v) :: rest →
      (NotAdmitted s.params a n →
        step s = .next (answered s rest { busError := true, readData := none })) ∧
      (¬ NotAdmitted s.params a n → ∃ t, step s = .next t ∧
        t.response = some { busError := false, readData := none })

/-- R77: a read changes no state, and two reads of the same place with only reads between them return
the same value. -/
def Obligations.ReadsHaveNoSideEffect : Prop :=
  (∀ (s t : State) a n rest, s.inputs = .bus (.read a n) :: rest → step s = .next t →
    ∃ r, t = answered s rest r) ∧
  ∀ (s t u : State) a n (between : List (Addr × Size)) rest,
    s.inputs = .bus (.read a n) ::
      (between.map (fun x => .bus (.read x.1 x.2)) ++ .bus (.read a n) :: rest) →
    step s = .next t → Host.Core.run core (between.length + 1) t = .next u →
    u.response = t.response

/-- R21, R22, R23: ID, PARAM_IBUF and PARAM_OBUF read as their constants in every state, right after
reset too, and a write to them is ignored. -/
def Obligations.ConstantRegisters : Prop :=
  (∀ (s : State) a rest, s.inputs = .bus (.read a .four) :: rest →
    (a = 0x00000 →
      step s = .next (answered s rest { busError := false, readData := some 0x57534331 })) ∧
    (a = 0x00004 → step s = .next
      (answered s rest { busError := false, readData := some (BitVec.ofNat 32 s.params.ibufBytes) })) ∧
    (a = 0x00008 → step s = .next
      (answered s rest { busError := false, readData := some (BitVec.ofNat 32 s.params.obufBytes) }))) ∧
  (∀ (s : State) a v rest, s.inputs = .bus (.write a .four v) :: rest → s.seq = .idle →
    a = 0x00000 ∨ a = 0x00004 ∨ a = 0x00008 →
    step s = .next (answered s rest { busError := false, readData := none })) ∧
  (∀ s t, step s = .next t → t.params = s.params) ∧
  State.reset.params.ibufBytes = 131072 ∧ State.reset.params.obufBytes = 131072

/-- R43 with R26 to R34: what a read of each register's offset returns. -/
def Obligations.RegistersReadBack : Prop :=
  ∀ (s : State) a rest, s.inputs = .bus (.read a .four) :: rest →
    (a = 0x00014 → step s = .next (answered s rest { busError := false, readData := some 0 })) ∧
    (a = 0x00018 → step s = .next (answered s rest { busError := false, readData := some s.ilen })) ∧
    (a = 0x0001C → step s = .next (answered s rest { busError := false, readData := some s.olen })) ∧
    (a = 0x00020 →
      step s = .next (answered s rest { busError := false, readData := some s.maxPayload })) ∧
    (∀ i : Fin 5, a.toNat = 0x40 + 4 * i.val →
      step s = .next (answered s rest { busError := false, readData := some s.h[i] })) ∧
    (∀ k : Fin 16, a.toNat = 0x80 + 4 * k.val →
      step s = .next (answered s rest { busError := false, readData := some s.w[k] })) ∧
    (a = 0x000C4 → step s = .next (answered s rest { busError := false, readData := some s.fd.plenLo })) ∧
    (a = 0x000C8 → step s = .next (answered s rest { busError := false, readData := some s.fd.plenHi })) ∧
    (a = 0x000CC → step s = .next (answered s rest { busError := false, readData := some s.fd.maskkey }))

/-- The words CTRL, STATUS and FD_HDR as the host reads them, bit by bit (the tables of R24, R25 and
R32). -/
def Obligations.StatusWordsLayout : Prop :=
  ∀ (s : State) a rest, s.inputs = .bus (.read a .four) :: rest →
    (a = 0x0000C → ∃ v, step s = .next (answered s rest { busError := false, readData := some v }) ∧
      v.getLsbD 0 = s.ctrl.irqEn ∧ v.getLsbD 1 = s.ctrl.lenientUnmasked ∧ v.extractLsb 31 2 = 0) ∧
    (a = 0x00010 → ∃ v, step s = .next (answered s rest { busError := false, readData := some v }) ∧
      v.getLsbD 0 = s.status.done ∧ v.getLsbD 1 = s.status.err ∧
      (v.getLsbD 2 = true ↔ ∃ c, s.seq = .busy c) ∧ v.getLsbD 3 = s.status.overrun ∧
      v.extractLsb 7 4 = 0 ∧ v.extractLsb 15 8 = s.status.code.value ∧ v.extractLsb 31 16 = 0) ∧
    (a = 0x000C0 → ∃ v, step s = .next (answered s rest { busError := false, readData := some v }) ∧
      v.extractLsb 7 0 = s.fd.hdr.b0 ∧ v.extractLsb 15 8 = s.fd.hdr.b1 ∧
      v.extractLsb 19 16 = s.fd.hdr.hlen ∧ v.getLsbD 20 = s.fd.hdr.close ∧
      v.extractLsb 22 21 = s.fd.hdr.stage ∧ v.extractLsb 31 23 = 0)

/-- R78: the effect of a register write by access type; nothing else changes. -/
def Obligations.RegisterWriteEffects : Prop :=
  ∀ (s : State) a v rest, s.inputs = .bus (.write a .four v) :: rest →
    (a = 0x00010 → step s = .next { answered s rest okayWrite with
      status := { s.status with
        done := s.status.done && !v.getLsbD 0
        err := s.status.err && !v.getLsbD 1
        overrun := s.status.overrun && !v.getLsbD 3 } }) ∧
    (s.seq = .idle →
      (a = 0x0000C → step s = .next { answered s rest okayWrite with
        ctrl := { irqEn := v.getLsbD 0, lenientUnmasked := v.getLsbD 1 } }) ∧
      (a = 0x00018 → step s = .next { answered s rest okayWrite with ilen := v }) ∧
      (∀ i : Fin 5, a.toNat = 0x40 + 4 * i.val →
        step s = .next { answered s rest okayWrite with h := s.h.set i v }) ∧
      (∀ k : Fin 16, a.toNat = 0x80 + 4 * k.val →
        step s = .next { answered s rest okayWrite with w := s.w.set k v }) ∧
      (a = 0x00020 → ∃ m, step s = .next { answered s rest okayWrite with maxPayload := m } ∧
        (s.params.obufBytes < 2 ^ 32 → m.toNat = min v.toNat s.params.obufBytes)) ∧
      (a = 0x00014 → step s = .next { answered s rest okayWrite with
        seq := .busy v
        status := { s.status with done := false, err := false, code := .ok } }) ∧
      (a.toNat ∈ [0x000, 0x004, 0x008, 0x01C, 0x0C0, 0x0C4, 0x0C8, 0x0CC] →
        step s = .next (answered s rest okayWrite)))

/-- R79: while a command is in progress every admitted write but one to STATUS is lost and sets OVERRUN;
a STATUS write is performed and, in a state that meets the invariant, can only clear OVERRUN. -/
def Obligations.WriteWhileBusyIsLost : Prop :=
  ∀ (s : State) c a n v rest, s.seq = .busy c → s.inputs = .bus (.write a n v) :: rest →
    ¬ NotAdmitted s.params a n →
    (a ≠ 0x00010 → step s = .next { answered s rest okayWrite with
      status := { s.status with overrun := true } }) ∧
    (a = 0x00010 → s.Inv → step s = .next { answered s rest okayWrite with
      status := { s.status with overrun := s.status.overrun && !v.getLsbD 3 } })

/-- R76: the lanes of a buffer access are little-endian, for reads of either buffer and for writes while
IDLE, and a write changes exactly its own bytes. -/
def Obligations.BufferLanesLittleEndian : Prop :=
  ∀ (s : State) a o (n : Size) rest, s.params.legal = true → o % n.bytes = 0 →
    (s.inputs = .bus (.read a n) :: rest → ∀ b : Nat → Byte,
      (a.toNat = 0x20000 + o → o + n.bytes ≤ s.params.ibufBytes →
        (∀ i, i < n.bytes → s.ibuf.get? (o + i) = some (b i)) →
        ∃ x : Word, step s = .next (answered s rest { busError := false, readData := some x }) ∧
          x.toNat = ∑ i ∈ Finset.range n.bytes, (b i).toNat * 2 ^ (8 * i)) ∧
      (a.toNat = 0x40000 + o → o + n.bytes ≤ s.params.obufBytes →
        (∀ i, i < n.bytes → s.obuf.get? (o + i) = some (b i)) →
        ∃ x : Word, step s = .next (answered s rest { busError := false, readData := some x }) ∧
          x.toNat = ∑ i ∈ Finset.range n.bytes, (b i).toNat * 2 ^ (8 * i))) ∧
    (∀ v : Word, s.inputs = .bus (.write a n v) :: rest → s.seq = .idle →
      (a.toNat = 0x20000 + o → o + n.bytes ≤ s.params.ibufBytes →
        ∃ m : Memory, step s = .next { answered s rest okayWrite with ibuf := m } ∧
          ∀ x, m.get? x = if o ≤ x ∧ x < o + n.bytes then some (v.extractLsb' (8 * (x - o)) 8)
            else s.ibuf.get? x) ∧
      (a.toNat = 0x40000 + o → o + n.bytes ≤ s.params.obufBytes →
        ∃ m : Memory, step s = .next { answered s rest okayWrite with obuf := m } ∧
          ∀ x, m.get? x = if o ≤ x ∧ x < o + n.bytes then some (v.extractLsb' (8 * (x - o)) 8)
            else s.obuf.get? x))

/-- A buffer write while IDLE followed by a read of the same place and size returns the bytes written. -/
def Obligations.BufferReadAfterWrite : Prop :=
  ∀ (s : State) a (n : Size) v rest, s.seq = .idle → 0x20000 ≤ a.toNat →
    ¬ NotAdmitted s.params a n →
    s.inputs = .bus (.write a n v) :: .bus (.read a n) :: rest →
    ∃ t u x, step s = .next t ∧ step t = .next u ∧
      u.response = some { busError := false, readData := some x } ∧
      x.toNat = v.toNat % 2 ^ (8 * n.bytes)

/-- R86: after reset no byte holds a value; a host read of a byte with no value faults, and so does a
command whose input range holds one. -/
def Obligations.UnwrittenBytesFault : Prop :=
  (∀ p o, (State.resetWith p).ibuf.get? o = none ∧ (State.resetWith p).obuf.get? o = none) ∧
  (∀ (s : State) a n rest i, s.inputs = .bus (.read a n) :: rest → ¬ NotAdmitted s.params a n →
    i < n.bytes →
    (0x20000 ≤ a.toNat → a.toNat < 0x40000 → s.ibuf.get? (a.toNat - 0x20000 + i) = none →
      step s = .fault .readOfUnwrittenBufferByte) ∧
    (0x40000 ≤ a.toNat → s.obuf.get? (a.toNat - 0x40000 + i) = none →
      step s = .fault .readOfUnwrittenBufferByte)) ∧
  ∀ src (s : State) f, InputUnwritten src s → ∀ i ∈ sourceCommands src f,
    exec i s = .fault .commandInputUnwritten

/-- R259: nothing stops the machine but a host read of a buffer byte with no value and a command whose
input holds one; no step is refused. -/
def Obligations.OnlyUnwrittenBytesStop : Prop :=
  (∀ s r, step s ≠ .refused r) ∧
  (∀ s, step s = .fault .readOfUnwrittenBufferByte →
    ∃ a n rest i, s.inputs = .bus (.read a n) :: rest ∧ i < n.bytes ∧
      ((0x20000 ≤ a.toNat ∧ a.toNat < 0x40000 ∧ s.ibuf.get? (a.toNat - 0x20000 + i) = none) ∨
        (0x40000 ≤ a.toNat ∧ a.toNat < 0x60000 ∧ s.obuf.get? (a.toNat - 0x40000 + i) = none))) ∧
  ∀ s, step s = .fault .commandInputUnwritten →
    ∃ s₀ c src f, SequencerTurn s s₀ ∧ s.seq = .busy c ∧ InputUnwritten src s ∧
      ∃ i ∈ sourceCommands src f, decode c = .ok i

/-! ## SHA-1 (41_sha1.md) -/

/-- R155: SHA_INIT sets H0 to H4 to the initial value and writes nothing else but STATUS and `seq`; it is
idempotent, the accumulators hold that value after reset, and its one word is 0x0000_0001. The five
values are the ones R150 marks as general knowledge (PRESUMED, log 14). -/
def Obligations.ShaInitSetsInitialValue : Prop :=
  (∀ s, ∃ t, exec .shaInit s = .next t ∧
    t = { s with
          h := #v[0x67452301, 0xEFCDAB89, 0x98BADCFE, 0x10325476, 0xC3D2E1F0]
          seq := .idle
          status := { done := true, err := false, overrun := s.status.overrun, code := .ok } } ∧
    exec .shaInit t = .next t ∧
    (s.status.overrun = false → regRead .status t = 0x00000001)) ∧
  (∀ p, (State.resetWith p).h = #v[0x67452301, 0xEFCDAB89, 0x98BADCFE, 0x10325476, 0xC3D2E1F0]) ∧
  (∀ c, decode c = .ok .shaInit ↔ c = 0x00000001) ∧
  ∀ c : Word, c.extractLsb 7 0 = 0x01#8 → c ≠ 1 → ¬ LegalWord c

/-- R156: SHA_BLOCK compresses W0 to W15 into H0 to H4 and writes nothing else but STATUS and `seq`; its
one word is 0x0000_0002, and on the padded block of "abc" it gives the rule's digest. The compression
rests on constants R151 and R153 mark as general knowledge (PRESUMED, log 14). -/
def Obligations.ShaBlockCompressesIntoH : Prop :=
  (∀ s, exec .shaBlock s = .next { s with
    h := compress s.h s.w
    seq := .idle
    status := { done := true, err := false, overrun := s.status.overrun, code := .ok } }) ∧
  (∀ c, decode c = .ok .shaBlock ↔ c = 0x00000002) ∧
  (∀ c : Word, c.extractLsb 7 0 = 0x02#8 → c ≠ 2 → ¬ LegalWord c) ∧
  compress #v[0x67452301, 0xEFCDAB89, 0x98BADCFE, 0x10325476, 0xC3D2E1F0]
      #v[0x61626380, 0, 0, 0, 0, 0, 0, 0, 0, 0, 0, 0, 0, 0, 0, 0x00000018] =
    #v[0xA9993E36, 0x4706816A, 0xBA3E2571, 0x7850C26C, 0x9CD0D89D]

/-- R152: the 80 words of the message schedule. -/
def Obligations.ScheduleRecurrence : Prop :=
  ∀ b : Block, (shaSchedule b).length = 80 ∧
    (∀ j : Fin 16, (shaSchedule b).getD j.val 0 = b[j]) ∧
    ∀ j, 16 ≤ j → j < 80 →
      (shaSchedule b).getD j 0 =
        ((shaSchedule b).getD (j - 3) 0 ^^^ (shaSchedule b).getD (j - 8) 0 ^^^
          (shaSchedule b).getD (j - 14) 0 ^^^ (shaSchedule b).getD (j - 16) 0).rotateLeft 1

/-- R151 and R153: the compression is 80 rounds of the five working variables, with the four ranges of
mixing function and constant, added into the accumulators. The functions, constants and rotations are
the ones the rules mark as general knowledge (PRESUMED, log 14). -/
def Obligations.CompressIsEightyRounds : Prop :=
  ∀ (h : Digest) (blk : Block), ∃ a b c d e : Nat → Word,
    (a 0 = h[0] ∧ b 0 = h[1] ∧ c 0 = h[2] ∧ d 0 = h[3] ∧ e 0 = h[4]) ∧
    (∀ t, t < 80 → ∃ f k : Word,
      (t < 20 → f = (b t &&& c t) ||| (~~~(b t) &&& d t) ∧ k = 0x5A827999) ∧
      (20 ≤ t → t < 40 → f = b t ^^^ c t ^^^ d t ∧ k = 0x6ED9EBA1) ∧
      (40 ≤ t → t < 60 →
        f = (b t &&& c t) ||| (b t &&& d t) ||| (c t &&& d t) ∧ k = 0x8F1BBCDC) ∧
      (60 ≤ t → f = b t ^^^ c t ^^^ d t ∧ k = 0xCA62C1D6) ∧
      a (t + 1) = (a t).rotateLeft 5 + f + e t + k + (shaSchedule blk).getD t 0 ∧
      e (t + 1) = d t ∧ d (t + 1) = c t ∧ c (t + 1) = (b t).rotateLeft 30 ∧ b (t + 1) = a t) ∧
    compress h blk = #v[h[0] + a 80, h[1] + b 80, h[2] + c 80, h[3] + d 80, h[4] + e 80]

/-- R154: the padding of a message, with the least number of zero bytes; its length is a multiple of 64
and it has `floor((n + 8) / 64) + 1` blocks. -/
def Obligations.PaddingIsLeast : Prop :=
  ∀ m : List Byte, ∃ z, (m.length + 1 + z) % 64 = 56 ∧
    (∀ y, y < z → (m.length + 1 + y) % 64 ≠ 56) ∧
    (∃ tail : List Byte, shaPad m = m ++ [0x80] ++ List.replicate z 0x00 ++ tail ∧ tail.length = 8 ∧
      beValue tail = 8 * m.length % 2 ^ 64) ∧
    (shaPad m).length % 64 = 0 ∧ (shaPad m).length / 64 = (m.length + 8) / 64 + 1

/-- R157's outcomes: SHA_MSG leaves the digest of its input in H0 to H4 and, big-endian, in
`OBUF[0..20)`, the last padded block in W0 to W15, and OLEN = 20, whatever H and W held; on BAD_LENGTH
nothing but STATUS and `seq` changes. -/
def Obligations.ShaMsgDigestsInput : Prop :=
  ∀ src s,
    (∀ m, InputIs src s m →
      ∃ t, exec (.shaMsg src) s = .next t ∧ CommandFrame s t ∧ Completed .ok t ∧ t.fd = s.fd ∧
        t.h = sha1 m ∧
        (∀ k : Fin 16,
          t.w[k] = be32 (shaPad m) (64 * ((shaPad m).length / 64 - 1) + 4 * k.val)) ∧
        t.olen = 20 ∧
        ∀ o, t.obuf.get? o =
          if o < 20 then
            some (((sha1 m).toList.getD (o / 4) 0).extractLsb' (24 - 8 * (o % 4)) 8)
          else s.obuf.get? o) ∧
    (InputTooLong src s → EndsWithStatusOnly (.shaMsg src) s .badLength)

/-- R158 (b) and (c): after SHA_MSG, `OBUF[4i + j]` is byte j of Hi, and the outputs depend on the message
alone, whatever the rest of the two states. -/
def Obligations.ShaMsgIsFunctionOfMessage : Prop :=
  ∀ src src' s s' t t' m, InputIs src s m → InputIs src' s' m →
    exec (.shaMsg src) s = .next t → exec (.shaMsg src') s' = .next t' →
    (∀ (i : Fin 5) (j : Fin 4),
      t.obuf.get? (4 * i.val + j.val) = some (t.h[i].extractLsb' (24 - 8 * j.val) 8)) ∧
    t'.h = t.h ∧ t'.w = t.w ∧ t'.olen = t.olen ∧ ∀ o, o < 20 → t'.obuf.get? o = t.obuf.get? o

/-- R158 (a): hashing a message block by block with SHA_INIT, host writes of W0 to W15 and SHA_BLOCK
leaves the accumulators that SHA_MSG leaves, and touches neither OBUF nor OLEN. -/
def Obligations.StreamingEqualsShaMsg : Prop :=
  ∀ (s : State) m rest src s' t', s.seq = .idle → s.inputs = streamInputs m ++ rest →
    InputIs src s' m → exec (.shaMsg src) s' = .next t' →
    ∃ u : State, Host.Core.run core (streamInputs m).length s = .next u ∧ u.h = t'.h ∧
      u.inputs = rest ∧ u.seq = .idle ∧ u.status.done = true ∧ u.status.code = .ok ∧
      OutputKept s u

/-! ## Base64 (42_base64.md) -/

/-- R180: the character of each group value in the order of the alphabet, and the padding character. The
ASCII codes are the ones the rule marks as general knowledge (PRESUMED, log 15). -/
def Obligations.Base64Alphabet : Prop :=
  (∀ v : BitVec 6, (enc6 v).toNat =
    ("ABCDEFGHIJKLMNOPQRSTUVWXYZabcdefghijklmnopqrstuvwxyz0123456789+/".toList.getD v.toNat ' ').toNat) ∧
  (∀ v : BitVec 6,
    (v.toNat ≤ 25 → (enc6 v).toNat = 0x41 + v.toNat) ∧
    (26 ≤ v.toNat → v.toNat ≤ 51 → (enc6 v).toNat = 0x47 + v.toNat) ∧
    (52 ≤ v.toNat → v.toNat ≤ 61 → (enc6 v).toNat = v.toNat - 4) ∧
    (v.toNat = 62 → enc6 v = 0x2B) ∧ (v.toNat = 63 → enc6 v = 0x2F)) ∧
  padChar = 0x3D

/-- R183: the laws of the encoder. That the padding character is the byte 0x3D, and that no character of
the alphabet is that byte, rest on ASCII codes the spec marks as general knowledge (PRESUMED, log 15). -/
def Obligations.Base64Laws : Prop :=
  (∀ s : List Byte, (base64 s).length = 4 * ((s.length + 2) / 3)) ∧
  (∀ t u : List Byte, t.length % 3 = 0 → base64 (t ++ u) = base64 t ++ base64 u) ∧
  (∀ x y z : Byte, base64 [x, y, z] =
    [enc6 (x.extractLsb' 2 6), enc6 (x.extractLsb' 0 2 ++ y.extractLsb' 4 4),
      enc6 (y.extractLsb' 0 4 ++ z.extractLsb' 6 2), enc6 (z.extractLsb' 0 6)]) ∧
  (∀ x : Byte, base64 [x] =
    [enc6 (x.extractLsb' 2 6), enc6 (x.extractLsb' 0 2 ++ 0#4), 0x3D, 0x3D]) ∧
  (∀ x y : Byte, base64 [x, y] =
    [enc6 (x.extractLsb' 2 6), enc6 (x.extractLsb' 0 2 ++ y.extractLsb' 4 4),
      enc6 (y.extractLsb' 0 4 ++ 0#2), 0x3D]) ∧
  (∀ (s : List Byte) i (h : i < (base64 s).length),
    (∃ v, (base64 s)[i] = enc6 v) ∨ ((base64 s)[i] = 0x3D ∧ (base64 s).length ≤ i + 2)) ∧
  ∀ v, enc6 v ≠ 0x3D

/-- R182's outcomes: B64_ENC leaves the encoding of its input in `OBUF[0..OLEN)`, or ends with
OUT_OVERFLOW or BAD_LENGTH and writes no output. -/
def Obligations.Base64EncodesInput : Prop :=
  ∀ src s,
    (∀ bs, InputIs src s bs →
      (s.params.legal = true → 4 * ((bs.length + 2) / 3) ≤ s.params.obufBytes →
        ∃ t, exec (.b64Enc src) s = .next t ∧ CommandFrame s t ∧ Completed .ok t ∧ EnginesKept s t ∧
          OutputIs (base64 bs) s t ∧ t.olen.toNat = 4 * ((bs.length + 2) / 3)) ∧
      (s.params.obufBytes < 4 * ((bs.length + 2) / 3) →
        EndsWithStatusOnly (.b64Enc src) s .outOverflow)) ∧
    (InputTooLong src s → EndsWithStatusOnly (.b64Enc src) s .badLength)

/-- The accept-token program of two commands (R5 (c), program P1): B64_ENC obuf after SHA_MSG leaves the
Base64 text of the message's digest, 28 characters. -/
def Obligations.DigestThenBase64 : Prop :=
  ∀ src s m t, s.params.legal = true → InputIs src s m → exec (.shaMsg src) s = .next t →
    ∃ u, exec (.b64Enc .obuf) t = .next u ∧ Completed .ok u ∧ u.h = sha1 m ∧ u.olen = 28 ∧
      OutputIs (base64 ((sha1 m).toList.flatMap fun x => bytesBE x.toNat 4)) s u

/-! ## Frame decoder (43_frame_decoder.md) -/

/-- R205 and R206: the end of FD_DECODE, check by check in the rule's order, with the result registers
as far as the header was parsed; on OK the payload is unmasked into `OBUF[0..OLEN)`. The reserved
opcode values are the ones R201 marks as general knowledge (PRESUMED, log 15). -/
def Obligations.FrameDecoderOutcomes : Prop :=
  ∀ src s,
    (InputTooLong src s → DecoderStops src s .badLength FdRegs.zero) ∧
    ∀ bs, InputIs src s bs →
      (bs.length < 2 → DecoderStops src s .incomplete FdRegs.zero) ∧
      ∀ b0 b1, bs[0]? = some b0 → bs[1]? = some b1 →
        let opc := b0.toNat % 16
        let masked := 128 ≤ b1.toNat
        let l7 := b1.toNat % 128
        let x := if l7 = 126 then 2 else if l7 = 127 then 8 else 0
        let hlen := 2 + x + if masked then 4 else 0
        let plen := if x = 0 then l7 else beValue ((bs.drop 2).take x)
        let key := if masked then be32 bs (2 + x) else 0
        let regs := fun (stage : BitVec 2) (plen : Nat) (key : Word) =>
          ({ hdr := { b0 := b0, b1 := b1, hlen := BitVec.ofNat 4 hlen, close := decide (opc = 8), stage := stage }
             plenLo := BitVec.ofNat 32 plen
             plenHi := BitVec.ofNat 32 (plen / 2 ^ 32)
             maskkey := key } : FdRegs)
        let reserved := (0x3 ≤ opc ∧ opc ≤ 0x7) ∨ 0xB ≤ opc
        let refused := ¬ masked ∧ s.ctrl.lenientUnmasked = false
        (reserved → DecoderStops src s .protoOpcode (regs 1 0 0)) ∧
        (¬ reserved → refused → DecoderStops src s .protoUnmasked (regs 1 0 0)) ∧
        (¬ reserved → ¬ refused → bs.length < 2 + x → DecoderStops src s .incomplete (regs 1 0 0)) ∧
        (¬ reserved → ¬ refused → 2 + x ≤ bs.length → s.maxPayload.toNat < plen →
          DecoderStops src s .protoTooLong (regs 2 plen 0)) ∧
        (¬ reserved → ¬ refused → 2 + x ≤ bs.length → plen ≤ s.maxPayload.toNat → bs.length < hlen →
          DecoderStops src s .incomplete (regs 2 plen 0)) ∧
        (¬ reserved → ¬ refused → hlen ≤ bs.length → plen ≤ s.maxPayload.toNat →
          bs.length < hlen + plen → DecoderStops src s .incomplete (regs 3 plen key)) ∧
        (¬ reserved → ¬ refused → hlen + plen ≤ bs.length → plen ≤ s.maxPayload.toNat →
          DecoderDelivers src s (unmask bs hlen plen key) (regs 3 plen key))

/-- R204: the unmasked byte i is the raw byte XOR key byte `i mod 4`, the first key byte in bits 31:24 of
K; K = 0 leaves the bytes as they are, and unmasking twice with the same K gives the raw bytes back. -/
def Obligations.UnmaskIsItsOwnInverse : Prop :=
  ∀ (raw : List Byte) hlen plen (key : Word), hlen + plen ≤ raw.length →
    (unmask raw hlen plen key).length = plen ∧
    (∀ i, i < plen → (unmask raw hlen plen key).getD i 0 =
      raw.getD (hlen + i) 0 ^^^ key.extractLsb' (24 - 8 * (i % 4)) 8) ∧
    unmask raw hlen plen 0 = (raw.drop hlen).take plen ∧
    unmask (unmask raw hlen plen key) 0 plen key = (raw.drop hlen).take plen

/-- R207's last sentence and its lenient half: LENIENT_UNMASKED changes nothing for a frame with
MASK = 1, and with it set a frame with MASK = 0 that is delivered has a zero key, a header without key
bytes, and its payload copied unchanged. -/
def Obligations.LenientModeOnlyForUnmasked : Prop :=
  ∀ src (s : State) bs b1, InputIs src s bs → bs[1]? = some b1 →
    (128 ≤ b1.toNat → ∀ lenient t, exec (.fdDecode src) s = .next t →
      exec (.fdDecode src) { s with ctrl := { s.ctrl with lenientUnmasked := lenient } } =
        .next { t with ctrl := { s.ctrl with lenientUnmasked := lenient } }) ∧
    (b1.toNat < 128 → ∀ t, exec (.fdDecode src) s = .next t → t.status.code = .ok →
      s.ctrl.lenientUnmasked = true ∧ t.fd.maskkey = 0 ∧
      (t.fd.hdr.hlen = 2 ∨ t.fd.hdr.hlen = 4 ∨ t.fd.hdr.hlen = 10) ∧
      ∀ o, o < t.olen.toNat → t.obuf.get? o = bs[t.fd.hdr.hlen.toNat + o]?)

/-- R208: the prefix law. -/
def Obligations.DecoderPrefixLaw : Prop :=
  ∀ src src' s s' t t' x y, s'.ctrl = s.ctrl → s'.maxPayload = s.maxPayload →
    InputIs src s x → InputIs src' s' (x ++ y) →
    exec (.fdDecode src) s = .next t → exec (.fdDecode src') s' = .next t' →
    (t.status.code = .ok → t'.status.code = .ok ∧ t'.fd = t.fd ∧ t'.olen = t.olen ∧
      ∀ o, o < t.olen.toNat → t'.obuf.get? o = t.obuf.get? o) ∧
    (t.status.code ∈ [.protoOpcode, .protoUnmasked, .protoTooLong] →
      t'.status.code = t.status.code) ∧
    (t'.status.code = .incomplete → t.status.code = .incomplete)

/-- R209: on OK the frame is exactly the first `hlen + plen` bytes: the bytes after it do not change the
result. -/
def Obligations.FrameExtent : Prop :=
  ∀ src s t bs, InputIs src s bs → exec (.fdDecode src) s = .next t → t.status.code = .ok →
    let plen := t.fd.plenLo.toNat + 2 ^ 32 * t.fd.plenHi.toNat
    let extent := t.fd.hdr.hlen.toNat + plen
    extent ≤ bs.length ∧ t.olen.toNat = plen ∧
    ∀ src' s' y, s'.ctrl = s.ctrl → s'.maxPayload = s.maxPayload →
      InputIs src' s' (bs.take extent ++ y) →
      ∃ t', exec (.fdDecode src') s' = .next t' ∧ t'.status.code = .ok ∧ t'.fd = t.fd ∧
        t'.olen = t.olen ∧ ∀ o, o < t.olen.toNat → t'.obuf.get? o = t.obuf.get? o

/-! ## Frame encoder (44_frame_encoder.md) -/

/-- R230: byte 0 of an encoded frame has FIN = 1, RSV = 0 and the frame opcode, and byte 1 has
MASK = 0. -/
def Obligations.EncodedHeaderBits : Prop :=
  ∀ (opc : BitVec 4) (p : List Byte), ∃ b0 b1 rest, feFrame opc p = b0 :: b1 :: rest ∧
    b0 = 0x80 ||| (opc.zeroExtend 8 &&& 0x0F) ∧
    b0.getLsbD 7 = true ∧ b0.extractLsb 6 4 = 0 ∧ b0.extractLsb 3 0 = opc ∧ b1.getLsbD 7 = false ∧
    rest.length = p.length + (lenhdr p.length).length - 1

/-- R231: the length multiplexer gives each length its shortest form. That the decoder's length rule reads
the length back is derived from R202 with R231. -/
def Obligations.LengthMultiplexerShortest : Prop :=
  ∀ n, n < 2 ^ 64 → ∃ b rest, lenhdr n = b :: rest ∧
    (n ≤ 125 → b.toNat = n ∧ rest = []) ∧
    (125 < n → n ≤ 65535 → b = 126 ∧ rest.length = 2 ∧ beValue rest = n) ∧
    (65535 < n → b = 127 ∧ rest.length = 8 ∧ beValue rest = n) ∧
    (encHeaderLength n = 2 ∨ encHeaderLength n = 4 ∨ encHeaderLength n = 10) ∧
    payloadLength (b.toNat % 128) (0 :: lenhdr n) = n

/-- R232's outcomes: FE_ENCODE leaves the frame in `OBUF[0..OLEN)`, or ends with OUT_OVERFLOW or
BAD_LENGTH and writes no output; with FIN = 0 it ends with ILLEGAL_CMD (of the term that no word
decodes to, log 9). -/
def Obligations.FrameEncoderOutcomes : Prop :=
  ∀ src f s,
    (∀ bs, InputIs src s bs →
      let hl := if bs.length ≤ 125 then 2 else if bs.length ≤ 65535 then 4 else 10
      (s.params.legal = true → hl + bs.length ≤ s.params.obufBytes →
        ∃ t, exec (.feEncode src f true) s = .next t ∧ CommandFrame s t ∧ Completed .ok t ∧
          EnginesKept s t ∧ t.olen.toNat = hl + bs.length ∧
          OutputIs ([0x80 ||| f.zeroExtend 8] ++ lenhdr bs.length ++ bs) s t) ∧
      (s.params.obufBytes < hl + bs.length →
        EndsWithStatusOnly (.feEncode src f true) s .outOverflow)) ∧
    (InputTooLong src s → EndsWithStatusOnly (.feEncode src f true) s .badLength) ∧
    EndsWithStatusOnly (.feEncode src f false) s .illegalCmd

/-- R233: FD_DECODE of the masked client frame of a payload gives the payload, the header length of the
payload's bracket plus 4, and the opcode; with the default parameters the source's five lengths fit. The
reserved opcode values are the ones R201 marks as general knowledge (PRESUMED, log 15). -/
def Obligations.MaskedFrameRoundTrip : Prop :=
  (∀ src s (opc : BitVec 4) p (key : Word), InputIs src s (maskedFrame opc p key) →
    ¬ ((0x3 ≤ opc.toNat ∧ opc.toNat ≤ 0x7) ∨ 0xB ≤ opc.toNat) →
    p.length ≤ s.maxPayload.toNat →
    ∃ t, exec (.fdDecode src) s = .next t ∧ Completed .ok t ∧ t.olen.toNat = p.length ∧
      (∀ o (h : o < p.length), t.obuf.get? o = some p[o]) ∧
      t.fd.hdr.hlen.toNat = encHeaderLength p.length + 4 ∧ t.fd.hdr.b0.extractLsb 3 0 = opc) ∧
  ∀ n ∈ [0, 125, 126, 65535, 65536],
    n ≤ Params.default.maxPayloadReset ∧ encHeaderLength n + 4 + n ≤ Params.default.ibufBytes

/-- R234: encoding, decoding and encoding again gives the same wire bytes, (a) in lenient mode on the
encoder's own frame, (b) in strict mode on the masked client frame of the same logical frame, where the
encoder's own frame ends with PROTO_UNMASKED. The reserved opcode values are the ones R201 marks as
general knowledge (PRESUMED, log 15). -/
def Obligations.EncodeDecodeEncodeIdempotent : Prop :=
  ∀ src (s t : State) (opc : BitVec 4) p, s.params.legal = true → InputIs src s p →
    ¬ ((0x3 ≤ opc.toNat ∧ opc.toNat ≤ 0x7) ∨ 0xB ≤ opc.toNat) →
    p.length ≤ s.maxPayload.toNat →
    exec (.feEncode src opc true) s = .next t → t.status.code = .ok →
    (s.ctrl.lenientUnmasked = true → ∃ u v, exec (.fdDecode .obuf) t = .next u ∧
      u.status.code = .ok ∧ u.fd.hdr.b0.extractLsb 3 0 = opc ∧ InputIs .obuf u p ∧
      exec (.feEncode .obuf (u.fd.hdr.b0.extractLsb 3 0) true) u = .next v ∧ v.status.code = .ok ∧
      v.olen = t.olen ∧ ∀ o, o < t.olen.toNat → v.obuf.get? o = t.obuf.get? o) ∧
    (s.ctrl.lenientUnmasked = false →
      (∃ u, exec (.fdDecode .obuf) t = .next u ∧ u.status.code = .protoUnmasked) ∧
      ∀ src' (s' : State) key, s'.params = s.params → p.length ≤ s'.maxPayload.toNat →
        InputIs src' s' (maskedFrame opc p key) →
        ∃ u v, exec (.fdDecode src') s' = .next u ∧ u.status.code = .ok ∧
          exec (.feEncode .obuf (u.fd.hdr.b0.extractLsb 3 0) true) u = .next v ∧
          v.status.code = .ok ∧ v.olen = t.olen ∧
          ∀ o, o < t.olen.toNat → v.obuf.get? o = t.obuf.get? o)

/-! ## Whole-machine rules (10_state.md, 60_exceptions.md) -/

/-- The invariant of R41 holds after every step from a state in which it holds. That `OBUF[0..OLEN)` is
written and that the buffers keep their canonical form are the model's additions (DEDUCED, log 6). -/
def Obligations.StepKeepsInvariant : Prop :=
  ∀ s t, s.Inv → step s = .next t → t.Inv

/-- R41 (d): ERR goes from 0 to 1 only at a completion, which also sets DONE. -/
def Obligations.ErrRisesOnlyAtCompletion : Prop :=
  ∀ s t, step s = .next t → s.status.err = false → t.status.err = true →
    t.status.done = true ∧ ∃ s₀ c, SequencerTurn s s₀ ∧ s.seq = .busy c ∧ t.seq = .idle

/-- The invariant holds at reset, for every legal choice of the parameters. -/
def Obligations.ResetMeetsInvariant : Prop :=
  State.reset.Inv ∧ ∀ p : Params, p.legal = true → (State.resetWith p).Inv

/-- R37: what changes `seq`, that STATUS.BUSY reads 1 exactly while it is BUSY, and its reset value. -/
def Obligations.SequencerChangesOnly : Prop :=
  (∀ s t, step s = .next t → t.seq ≠ s.seq →
    (s.seq = .idle ∧ ∃ c rest, s.inputs = .bus (.write 0x00014 .four c) :: rest ∧ t.seq = .busy c) ∨
    (∃ s₀ c, SequencerTurn s s₀ ∧ s.seq = .busy c ∧ t.seq = .idle ∧ t.status.done = true) ∨
    (∃ rest, s.inputs = .rst :: rest ∧ t.seq = .idle)) ∧
  (∀ s, (regRead .status s).getLsbD 2 = true ↔ ∃ c, s.seq = .busy c) ∧
  State.reset.seq = .idle

/-- R38: the interrupt output, and the only events that make it rise or fall. -/
def Obligations.InterruptIsALevel : Prop :=
  (∀ s : State, s.irq = true ↔ s.status.done = true ∧ s.ctrl.irqEn = true) ∧
  (∀ s t, step s = .next t → s.irq = false → t.irq = true →
    (∃ s₀ c, SequencerTurn s s₀ ∧ s.seq = .busy c ∧ t.seq = .idle ∧ s.ctrl.irqEn = true) ∨
    (s.status.done = true ∧ ∃ v rest, s.inputs = .bus (.write 0x0000C .four v) :: rest ∧
      v.getLsbD 0 = true)) ∧
  (∀ s t, step s = .next t → s.irq = true → t.irq = false →
    (∃ v rest, s.inputs = .bus (.write 0x00010 .four v) :: rest ∧ v.getLsbD 0 = true) ∨
    (∃ c rest, s.inputs = .bus (.write 0x00014 .four c) :: rest ∧ t.seq = .busy c) ∨
    (∃ v rest, s.inputs = .bus (.write 0x0000C .four v) :: rest ∧ v.getLsbD 0 = false) ∨
    ∃ rest, s.inputs = .rst :: rest) ∧
  ∀ p, (State.resetWith p).irq = false

/-- R258: OVERRUN is set exactly by an admitted write other than a STATUS write while a command is in
progress, and cleared only by writing 1 to it or by reset; issuing a command does not clear it. -/
def Obligations.OverrunIsSticky : Prop :=
  (∀ (s : State) c a n v rest, s.seq = .busy c → s.inputs = .bus (.write a n v) :: rest →
    ¬ NotAdmitted s.params a n → a ≠ 0x00010 →
    ∃ t, step s = .next t ∧ t.status.overrun = true) ∧
  (∀ s t, step s = .next t → s.status.overrun = false → t.status.overrun = true →
    ∃ c a n v rest, s.seq = .busy c ∧ s.inputs = .bus (.write a n v) :: rest ∧
      ¬ NotAdmitted s.params a n ∧ a ≠ 0x00010) ∧
  (∀ s t, step s = .next t → s.status.overrun = true → t.status.overrun = false →
    (∃ v rest, s.inputs = .bus (.write 0x00010 .four v) :: rest ∧ v.getLsbD 3 = true) ∨
    ∃ rest, s.inputs = .rst :: rest) ∧
  ∀ (s : State) c rest, s.seq = .idle → s.inputs = .bus (.write 0x00014 .four c) :: rest →
    ∃ t, step s = .next t ∧ t.seq = .busy c ∧ t.status.overrun = s.status.overrun

/-- R140 and R141: no command reaches a register but through its outputs: a step that is not a host
write and not a reset leaves CTRL, ILEN, MAX_PAYLOAD, IBUF and OVERRUN as they were. -/
def Obligations.OnlyHostWritesConfigure : Prop :=
  ∀ s t, step s = .next t → (∀ a n v rest, s.inputs ≠ .bus (.write a n v) :: rest) →
    (∀ rest, s.inputs ≠ .rst :: rest) →
    t.ctrl = s.ctrl ∧ t.ilen = s.ilen ∧ t.maxPayload = s.maxPayload ∧ t.ibuf = s.ibuf ∧
      t.status.overrun = s.status.overrun

/-! ## Reset (70_reset_and_hazards.md) -/

/-- R280, R281 and R282: one step with `rst` asserted sets every register to its reset value, whatever
was in progress, and leaves no buffer byte with a value. `rst` held for n cycles is n such steps (log
11). -/
def Obligations.ResetSetsEveryRegister : Prop :=
  ∀ (s : State) rest, s.inputs = .rst :: rest → ∃ t, step s = .next t ∧
    t.ctrl = { irqEn := false, lenientUnmasked := false } ∧
    t.status = { done := false, err := false, overrun := false, code := .ok } ∧
    t.ilen = 0 ∧ t.olen = 0 ∧ t.maxPayload = BitVec.ofNat 32 s.params.maxPayloadReset ∧
    t.h = #v[0x67452301, 0xEFCDAB89, 0x98BADCFE, 0x10325476, 0xC3D2E1F0] ∧
    t.w = #v[0, 0, 0, 0, 0, 0, 0, 0, 0, 0, 0, 0, 0, 0, 0, 0] ∧
    t.fd = FdRegs.zero ∧ t.seq = .idle ∧ t.irq = false ∧
    (∀ o, t.ibuf.get? o = none ∧ t.obuf.get? o = none) ∧
    t.params = s.params ∧ t.inputs = rest

/-- R42's table read through the registers, at reset with the default parameters. -/
def Obligations.ResetRegisterValues : Prop :=
  regRead .id .reset = 0x57534331 ∧ regRead .paramIbuf .reset = 0x00020000 ∧
  regRead .paramObuf .reset = 0x00020000 ∧ regRead .ctrl .reset = 0 ∧ regRead .status .reset = 0 ∧
  regRead .cmd .reset = 0 ∧ regRead .ilen .reset = 0 ∧ regRead .olen .reset = 0 ∧
  regRead .maxPayload .reset = 0x00010000 ∧
  regRead (.h 0) .reset = 0x67452301 ∧ regRead (.h 1) .reset = 0xEFCDAB89 ∧
  regRead (.h 2) .reset = 0x98BADCFE ∧ regRead (.h 3) .reset = 0x10325476 ∧
  regRead (.h 4) .reset = 0xC3D2E1F0 ∧ (∀ k, regRead (.w k) .reset = 0) ∧
  regRead .fdHdr .reset = 0 ∧ regRead .fdPlenLo .reset = 0 ∧ regRead .fdPlenHi .reset = 0 ∧
  regRead .fdMaskkey .reset = 0 ∧
  (∀ o, State.reset.ibuf.get? o = none ∧ State.reset.obuf.get? o = none) ∧
  State.reset.seq = .idle ∧ State.reset.irq = false
end

