-- ==== Sys2Proof/Laws/Decode.lean ====
section
/-! SUPPORT. The fields of a command word, that a word is its fields, and the round trip of single words;
the legality predicate of spec/30_encoding.md R106 over the decoder's field names. -/

namespace Sys2Proof

/-- A word is the concatenation of its fields (R101). -/
theorem word_eq_fields (c : Word) :
    c = (highReserved c ++ finField c ++ fopcField c ++ lowReserved c ++ srcField c ++ opField c :
      BitVec 32) := by
  apply BitVec.eq_of_getLsbD_eq
  intro i hi
  simp only [highReserved, finField, fopcField, lowReserved, srcField, opField,
    BitVec.getLsbD_append, BitVec.getLsbD_extractLsb']
  by_cases h1 : i < 8
  · simp [h1]
  · by_cases h2 : i - 8 < 1
    · simp [h1, h2, show 8 + (i - 8) = i by omega]
    · by_cases h3 : i - 8 - 1 < 3
      · simp [h1, h2, h3, show 9 + (i - 8 - 1) = i by omega]
      · by_cases h4 : i - 8 - 1 - 3 < 4
        · simp [h1, h2, h3, h4, show 12 + (i - 8 - 1 - 3) = i by omega]
        · by_cases h5 : i - 8 - 1 - 3 - 4 < 1
          · simp [h1, h2, h3, h4, h5, show 16 + (i - 8 - 1 - 3 - 4) = i by omega]
          · simp [h1, h2, h3, h4, h5, show 17 + (i - 8 - 1 - 3 - 4 - 1) = i by omega,
              show i - 8 - 1 - 3 - 4 - 1 < 15 by omega]

/-- A word whose reserved fields are 0 is the layout of its other fields. -/
theorem eq_layout {c : Word} (hh : highReserved c = 0) (hl : lowReserved c = 0) :
    c = layout (finField c) (fopcField c) (srcField c) (opField c) := by
  conv_lhs => rw [word_eq_fields c, hh, hl]
  rfl

section fields
variable (fin : BitVec 1) (fopc : BitVec 4) (src : BitVec 1) (op : BitVec 8)

theorem getLsbD_layout (i : Nat) :
    (layout fin fopc src op).getLsbD i =
      if i < 8 then op.getLsbD i
      else if i - 8 < 1 then src.getLsbD (i - 8)
      else if i - 8 - 1 < 3 then false
      else if i - 8 - 1 - 3 < 4 then fopc.getLsbD (i - 8 - 1 - 3)
      else if i - 8 - 1 - 3 - 4 < 1 then fin.getLsbD (i - 8 - 1 - 3 - 4)
      else false := by
  simp only [layout, BitVec.getLsbD_append, BitVec.getLsbD_zero]

@[simp] theorem opField_layout : opField (layout fin fopc src op) = op := by
  apply BitVec.eq_of_getLsbD_eq
  intro i hi
  simp only [opField, BitVec.getLsbD_extractLsb', getLsbD_layout]
  simp [hi]

@[simp] theorem srcField_layout : srcField (layout fin fopc src op) = src := by
  apply BitVec.eq_of_getLsbD_eq
  intro i hi
  obtain rfl : i = 0 := by omega
  simp only [srcField, BitVec.getLsbD_extractLsb', getLsbD_layout]
  simp

@[simp] theorem lowReserved_layout : lowReserved (layout fin fopc src op) = 0 := by
  apply BitVec.eq_of_getLsbD_eq
  intro i hi
  simp only [lowReserved, BitVec.getLsbD_extractLsb', getLsbD_layout]
  simp [show ¬ 9 + i < 8 by omega, show ¬ 9 + i - 8 < 1 by omega, show 9 + i - 8 - 1 < 3 by omega]

@[simp] theorem fopcField_layout : fopcField (layout fin fopc src op) = fopc := by
  apply BitVec.eq_of_getLsbD_eq
  intro i hi
  simp only [fopcField, BitVec.getLsbD_extractLsb', getLsbD_layout]
  simp [hi, show ¬ 12 + i < 8 by omega, show ¬ 12 + i - 8 < 1 by omega,
    show 12 + i - 8 - 1 - 3 = i by omega, show ¬ 12 + i - 8 - 1 < 3 by omega]

@[simp] theorem finField_layout : finField (layout fin fopc src op) = fin := by
  apply BitVec.eq_of_getLsbD_eq
  intro i hi
  obtain rfl : i = 0 := by omega
  simp only [finField, BitVec.getLsbD_extractLsb', getLsbD_layout]
  simp

@[simp] theorem highReserved_layout : highReserved (layout fin fopc src op) = 0 := by
  apply BitVec.eq_of_getLsbD_eq
  intro i hi
  simp only [highReserved, BitVec.getLsbD_extractLsb', getLsbD_layout]
  simp [show ¬ 17 + i < 8 by omega, show ¬ 17 + i - 8 < 1 by omega,
    show ¬ 17 + i - 8 - 1 < 3 by omega, show ¬ 17 + i - 8 - 1 - 3 < 4 by omega,
    show ¬ 17 + i - 8 - 1 - 3 - 4 < 1 by omega]

end fields

@[simp] theorem srcOfBit_srcBit (src : Src) : srcOfBit (srcBit src) = src := by
  cases src <;> rfl

@[simp] theorem srcBit_srcOfBit (b : BitVec 1) : srcBit (srcOfBit b) = b := by
  revert b; decide

/-- A bit is 0 or 1. -/
theorem bit_cases (b : BitVec 1) : b = 0 ∨ b = 1 := by
  revert b; decide

namespace Machine

/-- R106's predicate over the decoder's fields. -/
theorem legalWord_iff (c : Word) :
    LegalWord c ↔ highReserved c = 0 ∧ lowReserved c = 0 ∧
      (((opField c = 0x00 ∨ opField c = 0x01 ∨ opField c = 0x02) ∧ srcField c = 0 ∧
          fopcField c = 0 ∧ finField c = 0) ∨
        ((opField c = 0x03 ∨ opField c = 0x10 ∨ opField c = 0x20) ∧ fopcField c = 0 ∧
          finField c = 0) ∨
        (opField c = 0x30 ∧ finField c = 1)) := by
  simp only [LegalWord, List.mem_cons, List.not_mem_nil, or_false]
  exact Iff.rfl

end Machine

end Sys2Proof
end

