-- ==== Sys2Proof/Laws/Memory.lean ====
section
/-! SUPPORT. The laws of the buffers: what a byte reads as after a range is written, what reading a range
answers, and that writing keeps the canonical form and the buffer's bounds. -/

namespace Sys2Proof.Machine

@[simp] theorem Memory.get?_nil (o : Nat) : Memory.get? [] o = none := rfl

theorem Memory.get?_append (m m' : Memory) (o : Nat) :
    Memory.get? (m ++ m') o = (Memory.get? m o).or (Memory.get? m' o) := by
  simp [Memory.get?, List.lookup_append]

/-- A byte reads as before where the filter keeps every cell of its offset. -/
theorem Memory.get?_filter (m : Memory) (p : Nat → Bool) (o : Nat) :
    Memory.get? (m.filter fun c => p c.1) o = if p o then Memory.get? m o else none := by
  induction m with
  | nil => simp
  | cons c m ih =>
    obtain ⟨k, b⟩ := c
    simp only [Memory.get?] at ih ⊢
    by_cases hk : o = k
    · subst hk
      by_cases hp : p o
      · simp [hp, List.lookup]
      · simpa [List.filter_cons, hp] using ih
    · have hk' : (o == k) = false := by simpa using hk
      by_cases hp : p k <;> simp [hp, List.lookup, hk', ih]

theorem get?_cellsFrom (bs : List Byte) (o x : Nat) :
    Memory.get? (cellsFrom o bs) x = if o ≤ x then bs[x - o]? else none := by
  induction bs generalizing o with
  | nil => simp [cellsFrom]
  | cons b bs ih =>
    simp only [cellsFrom, Memory.get?, List.lookup] at ih ⊢
    by_cases hx : x = o
    · subst hx; simp
    · have hx' : (x == o) = false := by simpa using hx
      simp only [hx', ih]
      by_cases h : o + 1 ≤ x
      · have : x - o = (x - (o + 1)) + 1 := by omega
        simp [h, show o ≤ x by omega, this]
      · simp [h, show ¬ o ≤ x by omega]

/-- What a byte reads as after a range is written: the byte written in the range, and outside it what
it read as before. -/
theorem Memory.get?_writeRange (m : Memory) (o : Nat) (bs : List Byte) (x : Nat) :
    (m.writeRange o bs).get? x =
      if o ≤ x ∧ x < o + bs.length then bs[x - o]? else m.get? x := by
  unfold Memory.writeRange
  rw [Memory.get?_append, Memory.get?_append, get?_cellsFrom,
    Memory.get?_filter m (fun k => decide (k < o)),
    Memory.get?_filter m (fun k => decide (o + bs.length ≤ k))]
  by_cases h1 : x < o
  · simp [h1, show ¬ o ≤ x by omega, show ¬ o + bs.length ≤ x by omega]
  · by_cases h2 : x < o + bs.length
    · simp [h1, h2, show o ≤ x by omega, show ¬ o + bs.length ≤ x by omega]
    · simp [h1, h2, show o ≤ x by omega, show o + bs.length ≤ x by omega,
        show bs.length ≤ x - o by omega]

/-- `writeRange` from offset 0, in the form of `OutputIs`. -/
theorem Memory.get?_writeRange_zero (m : Memory) (bs : List Byte) (x : Nat) :
    (m.writeRange 0 bs).get? x = if h : x < bs.length then some bs[x] else m.get? x := by
  rw [Memory.get?_writeRange]
  by_cases h : x < bs.length <;> simp [h]

/-! ## Reading a range -/

/-- Reading a range answers bytes exactly when every offset of it holds the byte of that place. -/
theorem Memory.readRange_eq_some (m : Memory) (o n : Nat) (bs : List Byte) :
    m.readRange o n = some bs ↔
      bs.length = n ∧ ∀ i (h : i < bs.length), m.get? (o + i) = some bs[i] := by
  induction n generalizing o bs with
  | zero =>
    simp only [Memory.readRange, Option.some.injEq]
    constructor
    · rintro rfl; simp
    · rintro ⟨h, -⟩; exact (List.length_eq_zero_iff.mp h).symm
  | succ n ih =>
    simp only [Memory.readRange]
    cases hb : m.get? o with
    | none =>
      simp only [reduceCtorEq, false_iff, not_and]
      intro hl h
      have := h 0 (by omega)
      simp [hb] at this
    | some b =>
      simp only [Option.map_eq_some_iff]
      constructor
      · rintro ⟨cs, hcs, rfl⟩
        obtain ⟨hl, h⟩ := (ih _ _).mp hcs
        refine ⟨by simp [hl], fun i hi => ?_⟩
        cases i with
        | zero => simpa using hb
        | succ i =>
          have := h i (by simpa using hi)
          simpa [Nat.add_assoc, Nat.add_comm 1 i] using this
      · rintro ⟨hl, h⟩
        cases bs with
        | nil => simp at hl
        | cons c cs =>
          have h0 := h 0 (by simp)
          simp only [Nat.add_zero, hb, Option.some.injEq, List.getElem_cons_zero] at h0
          refine ⟨cs, (ih _ _).mpr ⟨by simpa using hl, fun i hi => ?_⟩, by rw [h0]⟩
          have := h (i + 1) (by simpa using hi)
          simpa [Nat.add_assoc, Nat.add_comm 1 i] using this

/-- Reading a range answers none exactly when an offset of it holds no value. -/
theorem Memory.readRange_eq_none (m : Memory) (o n : Nat) :
    m.readRange o n = none ↔ ∃ i, i < n ∧ m.get? (o + i) = none := by
  induction n generalizing o with
  | zero => simp [Memory.readRange]
  | succ n ih =>
    simp only [Memory.readRange]
    cases hb : m.get? o with
    | none => exact ⟨fun _ => ⟨0, by omega, by simpa using hb⟩, fun _ => rfl⟩
    | some b =>
      simp only [Option.map_eq_none_iff, ih]
      constructor
      · rintro ⟨i, hi, h⟩
        exact ⟨i + 1, by omega, by simpa [Nat.add_assoc, Nat.add_comm 1 i] using h⟩
      · rintro ⟨i, hi, h⟩
        cases i with
        | zero => simp [hb] at h
        | succ i => exact ⟨i, by omega, by simpa [Nat.add_assoc, Nat.add_comm 1 i] using h⟩

/-- A range just written reads as the bytes written. -/
theorem Memory.readRange_writeRange (m : Memory) (o : Nat) (bs : List Byte) :
    (m.writeRange o bs).readRange o bs.length = some bs := by
  rw [Memory.readRange_eq_some]
  refine ⟨rfl, fun i hi => ?_⟩
  rw [Memory.get?_writeRange]
  simp [hi]

/-! ## The canonical form -/

theorem Memory.wf_iff (m : Memory) : m.wf = true ↔ m.Pairwise fun a b => a.1 < b.1 := by
  have hchain : ∀ m : Memory, m.wf = true ↔ List.IsChain (fun a b : Host.Cell => a.1 < b.1) m := by
    intro m
    induction m with
    | nil => simp [Memory.wf]
    | cons x m ih =>
      cases m with
      | nil => simp [Memory.wf]
      | cons y m => simp [Memory.wf, ih]
  rw [hchain]
  exact List.isChain_iff_pairwise

@[simp] theorem Memory.wf_nil : Memory.wf [] = true := rfl

theorem mem_cellsFrom {bs : List Byte} {o : Nat} {c : Host.Cell} (h : c ∈ cellsFrom o bs) :
    o ≤ c.1 ∧ c.1 < o + bs.length := by
  induction bs generalizing o with
  | nil => simp [cellsFrom] at h
  | cons b bs ih =>
    simp only [cellsFrom, List.mem_cons] at h
    rcases h with rfl | h
    · simp
    · have := ih h
      simp only [List.length_cons]
      omega

theorem pairwise_cellsFrom (bs : List Byte) (o : Nat) :
    (cellsFrom o bs).Pairwise fun a b => a.1 < b.1 := by
  induction bs generalizing o with
  | nil => simp [cellsFrom]
  | cons b bs ih =>
    simp only [cellsFrom, List.pairwise_cons]
    exact ⟨fun c hc => by have := mem_cellsFrom hc; omega, ih _⟩

/-- Writing a range keeps the canonical form. -/
theorem Memory.wf_writeRange {m : Memory} (h : m.wf = true) (o : Nat) (bs : List Byte) :
    (m.writeRange o bs).wf = true := by
  rw [Memory.wf_iff] at h ⊢
  unfold Memory.writeRange
  rw [List.pairwise_append, List.pairwise_append]
  refine ⟨⟨h.filter _, pairwise_cellsFrom bs o, fun a ha b hb => ?_⟩, h.filter _, fun a ha b hb => ?_⟩
  · have := (List.mem_filter.mp ha).2
    have := mem_cellsFrom hb
    simp at *
    omega
  · have hb := (List.mem_filter.mp hb).2
    rcases List.mem_append.mp ha with ha | ha
    · have ha := (List.mem_filter.mp ha).2
      simp at *
      omega
    · have := mem_cellsFrom ha
      simp at *
      omega

@[simp] theorem Memory.within_nil (n : Nat) : Memory.within n [] = true := rfl

theorem Memory.within_iff (n : Nat) (m : Memory) :
    m.within n = true ↔ ∀ c ∈ m, c.1 < n := by
  simp [Memory.within]

/-- Writing a range that fits keeps every listed offset inside the buffer. -/
theorem Memory.within_writeRange {m : Memory} {n : Nat} (h : m.within n = true) (o : Nat)
    (bs : List Byte) (hfit : o + bs.length ≤ n) : (m.writeRange o bs).within n = true := by
  rw [Memory.within_iff] at h ⊢
  intro c hc
  simp only [Memory.writeRange, List.mem_append, List.mem_filter] at hc
  rcases hc with (hc | hc) | hc
  · exact h c hc.1
  · have := mem_cellsFrom hc; omega
  · exact h c hc.1

/-- An offset outside the buffer holds no value. -/
theorem Memory.get?_of_within {m : Memory} {n : Nat} (h : m.within n = true) {o : Nat}
    (ho : n ≤ o) : m.get? o = none := by
  rw [Memory.within_iff] at h
  simp only [Memory.get?, List.lookup_eq_none_iff]
  intro c hc
  have := h c hc
  simpa using (by omega : o ≠ c.1)

/-- In canonical form a listed cell is what its offset reads as. -/
theorem Memory.get?_eq_some_iff {m : Memory} (h : m.wf = true) (o : Nat) (b : Byte) :
    m.get? o = some b ↔ (o, b) ∈ m := by
  rw [Memory.wf_iff] at h
  induction m with
  | nil => simp
  | cons c m ih =>
    obtain ⟨k, a⟩ := c
    rw [List.pairwise_cons] at h
    have hrest := ih h.2
    simp only [Memory.get?, List.lookup, List.mem_cons, Prod.mk.injEq] at hrest ⊢
    by_cases hk : o = k
    · subst hk
      have hno : (o, b) ∉ m := fun hm => Nat.lt_irrefl o (h.1 (o, b) hm)
      simp [hno, eq_comm]
    · have hk' : (o == k) = false := by simpa using hk
      simp [hk', hk, hrest]

/-- Two buffers in canonical form that read alike are equal data. -/
theorem Memory.ext_of_wf {m m' : Memory} (h : m.wf = true) (h' : m'.wf = true)
    (heq : ∀ o, m.get? o = m'.get? o) : m = m' := by
  have hmem : ∀ c : Host.Cell, c ∈ m ↔ c ∈ m' := by
    rintro ⟨o, b⟩
    rw [← Memory.get?_eq_some_iff h, ← Memory.get?_eq_some_iff h', heq]
  rw [Memory.wf_iff] at h h'
  exact (List.perm_of_nodup_nodup_toFinset_eq
    (h.imp fun hab => by rintro rfl; exact Nat.lt_irrefl _ hab)
    (h'.imp fun hab => by rintro rfl; exact Nat.lt_irrefl _ hab)
    (by ext c; simpa using hmem c)).eq_of_pairwise
      (fun a b _ _ hab hba => absurd hab (Nat.lt_asymm hba)) h h'

end Sys2Proof.Machine
end

