-- ==== Sys2Proof/Laws/Operands.lean ====
section
/-! SUPPORT. What forming a command's input answers, in the terms of `InputIs`, `InputTooLong` and
`InputUnwritten` (spec/40_command_common.md R132, spec/20_memory.md R86). -/

namespace Sys2Proof.Machine

theorem Input.ofRange_eq_bytes (r : Option (List Byte)) (bs : List Byte) :
    Input.ofRange r = .bytes bs ↔ r = some bs := by
  cases r <;> simp [Input.ofRange]

theorem Input.ofRange_eq_unwritten (r : Option (List Byte)) :
    Input.ofRange r = .unwritten ↔ r = none := by
  cases r <;> simp [Input.ofRange]

theorem Input.ofRange_ne_badLength (r : Option (List Byte)) : Input.ofRange r ≠ .badLength := by
  cases r <;> simp [Input.ofRange]

theorem inputOf_eq_bytes (src : Src) (s : State) (bs : List Byte) :
    inputOf src s = .bytes bs ↔ InputIs src s bs := by
  cases src with
  | ibuf =>
    by_cases h : s.params.ibufBytes < s.ilen.toNat
    · simp [inputOf, InputIs, h, show ¬ s.ilen.toNat ≤ s.params.ibufBytes by omega]
    · simp [inputOf, InputIs, h, show s.ilen.toNat ≤ s.params.ibufBytes by omega,
        Input.ofRange_eq_bytes, Memory.readRange_eq_some]
  | obuf => simp [inputOf, InputIs, Input.ofRange_eq_bytes, Memory.readRange_eq_some]

theorem inputOf_eq_badLength (src : Src) (s : State) :
    inputOf src s = .badLength ↔ InputTooLong src s := by
  cases src with
  | ibuf =>
    by_cases h : s.params.ibufBytes < s.ilen.toNat <;>
      simp [inputOf, InputTooLong, h, Input.ofRange_ne_badLength]
  | obuf => simp [inputOf, InputTooLong, Input.ofRange_ne_badLength]

theorem inputOf_eq_unwritten (src : Src) (s : State) :
    inputOf src s = .unwritten ↔ InputUnwritten src s := by
  cases src with
  | ibuf =>
    by_cases h : s.params.ibufBytes < s.ilen.toNat
    · simp [inputOf, InputUnwritten, h, show ¬ s.ilen.toNat ≤ s.params.ibufBytes by omega]
    · simp [inputOf, InputUnwritten, h, show s.ilen.toNat ≤ s.params.ibufBytes by omega,
        Input.ofRange_eq_unwritten, Memory.readRange_eq_none]
  | obuf => simp [inputOf, InputUnwritten, Input.ofRange_eq_unwritten, Memory.readRange_eq_none]

/-! ## A command over its input -/

section withInput
variable {src : Src} {s onBad : State} {k : List Byte → State}

theorem withInput_of_inputIs {bs : List Byte} (h : InputIs src s bs) :
    withInput src s onBad k = .next (k bs) := by
  simp [withInput, (inputOf_eq_bytes src s bs).mpr h]

theorem withInput_of_tooLong (h : InputTooLong src s) :
    withInput src s onBad k = .next onBad := by
  simp [withInput, (inputOf_eq_badLength src s).mpr h]

theorem withInput_of_unwritten (h : InputUnwritten src s) :
    withInput src s onBad k = .fault .commandInputUnwritten := by
  simp [withInput, (inputOf_eq_unwritten src s).mpr h]

/-- The three cases of an input; they exclude one another. -/
theorem input_cases (src : Src) (s : State) :
    InputTooLong src s ∨ InputUnwritten src s ∨ ∃ bs, InputIs src s bs := by
  cases h : inputOf src s with
  | bytes bs => exact .inr (.inr ⟨bs, (inputOf_eq_bytes src s bs).mp h⟩)
  | badLength => exact .inl ((inputOf_eq_badLength src s).mp h)
  | unwritten => exact .inr (.inl ((inputOf_eq_unwritten src s).mp h))

/-- Everything a command over its input can answer. -/
theorem withInput_cases (src : Src) (s onBad : State) (k : List Byte → State) :
    (InputTooLong src s ∧ withInput src s onBad k = .next onBad) ∨
    (InputUnwritten src s ∧ withInput src s onBad k = .fault .commandInputUnwritten) ∨
    ∃ bs, InputIs src s bs ∧ withInput src s onBad k = .next (k bs) := by
  rcases input_cases src s with h | h | ⟨bs, h⟩
  · exact .inl ⟨h, withInput_of_tooLong h⟩
  · exact .inr (.inl ⟨h, withInput_of_unwritten h⟩)
  · exact .inr (.inr ⟨bs, h, withInput_of_inputIs h⟩)

/-- A command over its input goes on only from an input out of range or an input of bytes. -/
theorem withInput_eq_next {t : State} (h : withInput src s onBad k = .next t) :
    (InputTooLong src s ∧ t = onBad) ∨ ∃ bs, InputIs src s bs ∧ t = k bs := by
  rcases withInput_cases src s onBad k with ⟨h1, h2⟩ | ⟨-, h2⟩ | ⟨bs, h1, h2⟩ <;> rw [h2] at h
  · exact .inl ⟨h1, (Host.Outcome.next.inj h).symm⟩
  · cases h
  · exact .inr ⟨bs, h1, (Host.Outcome.next.inj h).symm⟩

end withInput

theorem InputIs.unique {src : Src} {s : State} {bs bs' : List Byte} (h : InputIs src s bs)
    (h' : InputIs src s bs') : bs' = bs := by
  have h := (inputOf_eq_bytes src s bs).mpr h
  have h' := (inputOf_eq_bytes src s bs').mpr h'
  rw [h] at h'
  exact (Input.bytes.inj h').symm

theorem InputIs.not_tooLong {src : Src} {s : State} {bs : List Byte} (h : InputIs src s bs) :
    ¬ InputTooLong src s := by
  intro h'
  have h := (inputOf_eq_bytes src s bs).mpr h
  rw [(inputOf_eq_badLength src s).mpr h'] at h
  cases h

theorem InputIs.not_unwritten {src : Src} {s : State} {bs : List Byte} (h : InputIs src s bs) :
    ¬ InputUnwritten src s := by
  intro h'
  have h := (inputOf_eq_bytes src s bs).mpr h
  rw [(inputOf_eq_unwritten src s).mpr h'] at h
  cases h

end Sys2Proof.Machine
end

