-- ==== Sys2Proof/Laws/State.lean ====
section
/-! SUPPORT. One lemma per field per update of the state, true by unfolding the update once, so that no
later proof unfolds a record update. -/

namespace Sys2Proof.Machine

/-! ## Issue -/

@[simp] theorem State.issue_params (c : Word) (s : State) :
    (s.issue c).params = s.params := rfl

@[simp] theorem State.issue_ctrl (c : Word) (s : State) :
    (s.issue c).ctrl = s.ctrl := rfl

@[simp] theorem State.issue_status (c : Word) (s : State) :
    (s.issue c).status = s.status.issued := rfl

@[simp] theorem State.issue_ilen (c : Word) (s : State) :
    (s.issue c).ilen = s.ilen := rfl

@[simp] theorem State.issue_olen (c : Word) (s : State) :
    (s.issue c).olen = s.olen := rfl

@[simp] theorem State.issue_maxPayload (c : Word) (s : State) :
    (s.issue c).maxPayload = s.maxPayload := rfl

@[simp] theorem State.issue_h (c : Word) (s : State) :
    (s.issue c).h = s.h := rfl

@[simp] theorem State.issue_w (c : Word) (s : State) :
    (s.issue c).w = s.w := rfl

@[simp] theorem State.issue_fd (c : Word) (s : State) :
    (s.issue c).fd = s.fd := rfl

@[simp] theorem State.issue_ibuf (c : Word) (s : State) :
    (s.issue c).ibuf = s.ibuf := rfl

@[simp] theorem State.issue_obuf (c : Word) (s : State) :
    (s.issue c).obuf = s.obuf := rfl

@[simp] theorem State.issue_seq (c : Word) (s : State) :
    (s.issue c).seq = .busy c := rfl

@[simp] theorem State.issue_inputs (c : Word) (s : State) :
    (s.issue c).inputs = s.inputs := rfl

@[simp] theorem State.issue_response (c : Word) (s : State) :
    (s.issue c).response = s.response := rfl

/-! ## Completion -/

@[simp] theorem State.complete_params (k : ResultCode) (s : State) :
    (s.complete k).params = s.params := rfl

@[simp] theorem State.complete_ctrl (k : ResultCode) (s : State) :
    (s.complete k).ctrl = s.ctrl := rfl

@[simp] theorem State.complete_status (k : ResultCode) (s : State) :
    (s.complete k).status = s.status.completed k := rfl

@[simp] theorem State.complete_ilen (k : ResultCode) (s : State) :
    (s.complete k).ilen = s.ilen := rfl

@[simp] theorem State.complete_olen (k : ResultCode) (s : State) :
    (s.complete k).olen = s.olen := rfl

@[simp] theorem State.complete_maxPayload (k : ResultCode) (s : State) :
    (s.complete k).maxPayload = s.maxPayload := rfl

@[simp] theorem State.complete_h (k : ResultCode) (s : State) :
    (s.complete k).h = s.h := rfl

@[simp] theorem State.complete_w (k : ResultCode) (s : State) :
    (s.complete k).w = s.w := rfl

@[simp] theorem State.complete_fd (k : ResultCode) (s : State) :
    (s.complete k).fd = s.fd := rfl

@[simp] theorem State.complete_ibuf (k : ResultCode) (s : State) :
    (s.complete k).ibuf = s.ibuf := rfl

@[simp] theorem State.complete_obuf (k : ResultCode) (s : State) :
    (s.complete k).obuf = s.obuf := rfl

@[simp] theorem State.complete_seq (k : ResultCode) (s : State) :
    (s.complete k).seq = .idle := rfl

@[simp] theorem State.complete_inputs (k : ResultCode) (s : State) :
    (s.complete k).inputs = s.inputs := rfl

@[simp] theorem State.complete_response (k : ResultCode) (s : State) :
    (s.complete k).response = s.response := rfl

/-! ## The output buffer -/

@[simp] theorem State.writeOutput_params (bs : List Byte) (s : State) :
    (s.writeOutput bs).params = s.params := rfl

@[simp] theorem State.writeOutput_ctrl (bs : List Byte) (s : State) :
    (s.writeOutput bs).ctrl = s.ctrl := rfl

@[simp] theorem State.writeOutput_status (bs : List Byte) (s : State) :
    (s.writeOutput bs).status = s.status := rfl

@[simp] theorem State.writeOutput_ilen (bs : List Byte) (s : State) :
    (s.writeOutput bs).ilen = s.ilen := rfl

@[simp] theorem State.writeOutput_olen (bs : List Byte) (s : State) :
    (s.writeOutput bs).olen = BitVec.ofNat 32 bs.length := rfl

@[simp] theorem State.writeOutput_maxPayload (bs : List Byte) (s : State) :
    (s.writeOutput bs).maxPayload = s.maxPayload := rfl

@[simp] theorem State.writeOutput_h (bs : List Byte) (s : State) :
    (s.writeOutput bs).h = s.h := rfl

@[simp] theorem State.writeOutput_w (bs : List Byte) (s : State) :
    (s.writeOutput bs).w = s.w := rfl

@[simp] theorem State.writeOutput_fd (bs : List Byte) (s : State) :
    (s.writeOutput bs).fd = s.fd := rfl

@[simp] theorem State.writeOutput_ibuf (bs : List Byte) (s : State) :
    (s.writeOutput bs).ibuf = s.ibuf := rfl

@[simp] theorem State.writeOutput_obuf (bs : List Byte) (s : State) :
    (s.writeOutput bs).obuf = s.obuf.writeRange 0 bs := rfl

@[simp] theorem State.writeOutput_seq (bs : List Byte) (s : State) :
    (s.writeOutput bs).seq = s.seq := rfl

@[simp] theorem State.writeOutput_inputs (bs : List Byte) (s : State) :
    (s.writeOutput bs).inputs = s.inputs := rfl

@[simp] theorem State.writeOutput_response (bs : List Byte) (s : State) :
    (s.writeOutput bs).response = s.response := rfl

/-! ## The outputs of a command -/

@[simp] theorem State.writeOutputs_params (o : Outputs) (s : State) :
    (s.writeOutputs o).params = s.params := by
  rcases o with ⟨_ | _, _ | _, _ | _⟩ <;> rfl

@[simp] theorem State.writeOutputs_ctrl (o : Outputs) (s : State) :
    (s.writeOutputs o).ctrl = s.ctrl := by
  rcases o with ⟨_ | _, _ | _, _ | _⟩ <;> rfl

@[simp] theorem State.writeOutputs_status (o : Outputs) (s : State) :
    (s.writeOutputs o).status = s.status := by
  rcases o with ⟨_ | _, _ | _, _ | _⟩ <;> rfl

@[simp] theorem State.writeOutputs_ilen (o : Outputs) (s : State) :
    (s.writeOutputs o).ilen = s.ilen := by
  rcases o with ⟨_ | _, _ | _, _ | _⟩ <;> rfl

@[simp] theorem State.writeOutputs_olen (o : Outputs) (s : State) :
    (s.writeOutputs o).olen = (o.bytes.map fun bs => BitVec.ofNat 32 bs.length).getD s.olen := by
  rcases o with ⟨_ | _, _ | _, _ | _⟩ <;> rfl

@[simp] theorem State.writeOutputs_maxPayload (o : Outputs) (s : State) :
    (s.writeOutputs o).maxPayload = s.maxPayload := by
  rcases o with ⟨_ | _, _ | _, _ | _⟩ <;> rfl

@[simp] theorem State.writeOutputs_h (o : Outputs) (s : State) :
    (s.writeOutputs o).h = o.digest.getD s.h := by
  rcases o with ⟨_ | _, _ | _, _ | _⟩ <;> rfl

@[simp] theorem State.writeOutputs_w (o : Outputs) (s : State) :
    (s.writeOutputs o).w = o.block.getD s.w := by
  rcases o with ⟨_ | _, _ | _, _ | _⟩ <;> rfl

@[simp] theorem State.writeOutputs_fd (o : Outputs) (s : State) :
    (s.writeOutputs o).fd = s.fd := by
  rcases o with ⟨_ | _, _ | _, _ | _⟩ <;> rfl

@[simp] theorem State.writeOutputs_ibuf (o : Outputs) (s : State) :
    (s.writeOutputs o).ibuf = s.ibuf := by
  rcases o with ⟨_ | _, _ | _, _ | _⟩ <;> rfl

@[simp] theorem State.writeOutputs_obuf (o : Outputs) (s : State) :
    (s.writeOutputs o).obuf = (o.bytes.map (s.obuf.writeRange 0)).getD s.obuf := by
  rcases o with ⟨_ | _, _ | _, _ | _⟩ <;> rfl

@[simp] theorem State.writeOutputs_seq (o : Outputs) (s : State) :
    (s.writeOutputs o).seq = s.seq := by
  rcases o with ⟨_ | _, _ | _, _ | _⟩ <;> rfl

@[simp] theorem State.writeOutputs_inputs (o : Outputs) (s : State) :
    (s.writeOutputs o).inputs = s.inputs := by
  rcases o with ⟨_ | _, _ | _, _ | _⟩ <;> rfl

@[simp] theorem State.writeOutputs_response (o : Outputs) (s : State) :
    (s.writeOutputs o).response = s.response := by
  rcases o with ⟨_ | _, _ | _, _ | _⟩ <;> rfl

/-! ## The decoder's result registers -/

@[simp] theorem State.writeFd_params (r : Option FdRegs) (s : State) :
    (s.writeFd r).params = s.params := by
  cases r <;> rfl

@[simp] theorem State.writeFd_ctrl (r : Option FdRegs) (s : State) :
    (s.writeFd r).ctrl = s.ctrl := by
  cases r <;> rfl

@[simp] theorem State.writeFd_status (r : Option FdRegs) (s : State) :
    (s.writeFd r).status = s.status := by
  cases r <;> rfl

@[simp] theorem State.writeFd_ilen (r : Option FdRegs) (s : State) :
    (s.writeFd r).ilen = s.ilen := by
  cases r <;> rfl

@[simp] theorem State.writeFd_olen (r : Option FdRegs) (s : State) :
    (s.writeFd r).olen = s.olen := by
  cases r <;> rfl

@[simp] theorem State.writeFd_maxPayload (r : Option FdRegs) (s : State) :
    (s.writeFd r).maxPayload = s.maxPayload := by
  cases r <;> rfl

@[simp] theorem State.writeFd_h (r : Option FdRegs) (s : State) :
    (s.writeFd r).h = s.h := by
  cases r <;> rfl

@[simp] theorem State.writeFd_w (r : Option FdRegs) (s : State) :
    (s.writeFd r).w = s.w := by
  cases r <;> rfl

@[simp] theorem State.writeFd_fd (r : Option FdRegs) (s : State) :
    (s.writeFd r).fd = r.getD s.fd := by
  cases r <;> rfl

@[simp] theorem State.writeFd_ibuf (r : Option FdRegs) (s : State) :
    (s.writeFd r).ibuf = s.ibuf := by
  cases r <;> rfl

@[simp] theorem State.writeFd_obuf (r : Option FdRegs) (s : State) :
    (s.writeFd r).obuf = s.obuf := by
  cases r <;> rfl

@[simp] theorem State.writeFd_seq (r : Option FdRegs) (s : State) :
    (s.writeFd r).seq = s.seq := by
  cases r <;> rfl

@[simp] theorem State.writeFd_inputs (r : Option FdRegs) (s : State) :
    (s.writeFd r).inputs = s.inputs := by
  cases r <;> rfl

@[simp] theorem State.writeFd_response (r : Option FdRegs) (s : State) :
    (s.writeFd r).response = s.response := by
  cases r <;> rfl

/-! ## Responses -/

@[simp] theorem State.respond_params (r : Response) (s : State) :
    (s.respond r).params = s.params := rfl

@[simp] theorem State.respond_ctrl (r : Response) (s : State) :
    (s.respond r).ctrl = s.ctrl := rfl

@[simp] theorem State.respond_status (r : Response) (s : State) :
    (s.respond r).status = s.status := rfl

@[simp] theorem State.respond_ilen (r : Response) (s : State) :
    (s.respond r).ilen = s.ilen := rfl

@[simp] theorem State.respond_olen (r : Response) (s : State) :
    (s.respond r).olen = s.olen := rfl

@[simp] theorem State.respond_maxPayload (r : Response) (s : State) :
    (s.respond r).maxPayload = s.maxPayload := rfl

@[simp] theorem State.respond_h (r : Response) (s : State) :
    (s.respond r).h = s.h := rfl

@[simp] theorem State.respond_w (r : Response) (s : State) :
    (s.respond r).w = s.w := rfl

@[simp] theorem State.respond_fd (r : Response) (s : State) :
    (s.respond r).fd = s.fd := rfl

@[simp] theorem State.respond_ibuf (r : Response) (s : State) :
    (s.respond r).ibuf = s.ibuf := rfl

@[simp] theorem State.respond_obuf (r : Response) (s : State) :
    (s.respond r).obuf = s.obuf := rfl

@[simp] theorem State.respond_seq (r : Response) (s : State) :
    (s.respond r).seq = s.seq := rfl

@[simp] theorem State.respond_inputs (r : Response) (s : State) :
    (s.respond r).inputs = s.inputs := rfl

@[simp] theorem State.respond_response (r : Response) (s : State) :
    (s.respond r).response = some r := rfl

/-! ## Reset -/

@[simp] theorem State.applyReset_params (s : State) : s.applyReset.params = s.params := rfl

@[simp] theorem State.applyReset_ctrl (s : State) : s.applyReset.ctrl = (State.resetWith s.params).ctrl := rfl

@[simp] theorem State.applyReset_status (s : State) : s.applyReset.status = (State.resetWith s.params).status := rfl

@[simp] theorem State.applyReset_ilen (s : State) : s.applyReset.ilen = (State.resetWith s.params).ilen := rfl

@[simp] theorem State.applyReset_olen (s : State) : s.applyReset.olen = (State.resetWith s.params).olen := rfl

@[simp] theorem State.applyReset_maxPayload (s : State) : s.applyReset.maxPayload = (State.resetWith s.params).maxPayload := rfl

@[simp] theorem State.applyReset_h (s : State) : s.applyReset.h = (State.resetWith s.params).h := rfl

@[simp] theorem State.applyReset_w (s : State) : s.applyReset.w = (State.resetWith s.params).w := rfl

@[simp] theorem State.applyReset_fd (s : State) : s.applyReset.fd = (State.resetWith s.params).fd := rfl

@[simp] theorem State.applyReset_ibuf (s : State) : s.applyReset.ibuf = (State.resetWith s.params).ibuf := rfl

@[simp] theorem State.applyReset_obuf (s : State) : s.applyReset.obuf = (State.resetWith s.params).obuf := rfl

@[simp] theorem State.applyReset_seq (s : State) : s.applyReset.seq = (State.resetWith s.params).seq := rfl

@[simp] theorem State.applyReset_inputs (s : State) : s.applyReset.inputs = s.inputs := rfl

@[simp] theorem State.applyReset_response (s : State) : s.applyReset.response = (State.resetWith s.params).response := rfl

/-! ## Commit -/

@[simp] theorem State.commit_params (k : ResultCode) (o : Outputs) (fd : Option FdRegs) (s : State) :
    (s.commit k o fd).params = s.params := by
  by_cases hk : k = .ok <;> simp [State.commit, hk]

@[simp] theorem State.commit_ctrl (k : ResultCode) (o : Outputs) (fd : Option FdRegs) (s : State) :
    (s.commit k o fd).ctrl = s.ctrl := by
  by_cases hk : k = .ok <;> simp [State.commit, hk]

@[simp] theorem State.commit_status (k : ResultCode) (o : Outputs) (fd : Option FdRegs) (s : State) :
    (s.commit k o fd).status = s.status.completed k := by
  by_cases hk : k = .ok <;> simp [State.commit, hk]

@[simp] theorem State.commit_ilen (k : ResultCode) (o : Outputs) (fd : Option FdRegs) (s : State) :
    (s.commit k o fd).ilen = s.ilen := by
  by_cases hk : k = .ok <;> simp [State.commit, hk]

@[simp] theorem State.commit_olen (k : ResultCode) (o : Outputs) (fd : Option FdRegs) (s : State) :
    (s.commit k o fd).olen = if k = .ok then (s.writeOutputs o).olen else s.olen := by
  by_cases hk : k = .ok <;> simp [State.commit, hk]

@[simp] theorem State.commit_maxPayload (k : ResultCode) (o : Outputs) (fd : Option FdRegs) (s : State) :
    (s.commit k o fd).maxPayload = s.maxPayload := by
  by_cases hk : k = .ok <;> simp [State.commit, hk]

@[simp] theorem State.commit_h (k : ResultCode) (o : Outputs) (fd : Option FdRegs) (s : State) :
    (s.commit k o fd).h = if k = .ok then (s.writeOutputs o).h else s.h := by
  by_cases hk : k = .ok <;> simp [State.commit, hk]

@[simp] theorem State.commit_w (k : ResultCode) (o : Outputs) (fd : Option FdRegs) (s : State) :
    (s.commit k o fd).w = if k = .ok then (s.writeOutputs o).w else s.w := by
  by_cases hk : k = .ok <;> simp [State.commit, hk]

@[simp] theorem State.commit_fd (k : ResultCode) (o : Outputs) (fd : Option FdRegs) (s : State) :
    (s.commit k o fd).fd = fd.getD s.fd := by
  by_cases hk : k = .ok <;> simp [State.commit, hk]

@[simp] theorem State.commit_ibuf (k : ResultCode) (o : Outputs) (fd : Option FdRegs) (s : State) :
    (s.commit k o fd).ibuf = s.ibuf := by
  by_cases hk : k = .ok <;> simp [State.commit, hk]

@[simp] theorem State.commit_obuf (k : ResultCode) (o : Outputs) (fd : Option FdRegs) (s : State) :
    (s.commit k o fd).obuf = if k = .ok then (s.writeOutputs o).obuf else s.obuf := by
  by_cases hk : k = .ok <;> simp [State.commit, hk]

@[simp] theorem State.commit_seq (k : ResultCode) (o : Outputs) (fd : Option FdRegs) (s : State) :
    (s.commit k o fd).seq = .idle := by
  by_cases hk : k = .ok <;> simp [State.commit, hk]

@[simp] theorem State.commit_inputs (k : ResultCode) (o : Outputs) (fd : Option FdRegs) (s : State) :
    (s.commit k o fd).inputs = s.inputs := by
  by_cases hk : k = .ok <;> simp [State.commit, hk]

@[simp] theorem State.commit_response (k : ResultCode) (o : Outputs) (fd : Option FdRegs) (s : State) :
    (s.commit k o fd).response = s.response := by
  by_cases hk : k = .ok <;> simp [State.commit, hk]

/-! ## STATUS -/

@[simp] theorem Status.issued_done (s : Status) : (s.issued).done = false := rfl

@[simp] theorem Status.issued_err (s : Status) : (s.issued).err = false := rfl

@[simp] theorem Status.issued_overrun (s : Status) : (s.issued).overrun = s.overrun := rfl

@[simp] theorem Status.issued_code (s : Status) : (s.issued).code = .ok := rfl

@[simp] theorem Status.completed_done (k : ResultCode) (s : Status) : (s.completed k).done = true := rfl

@[simp] theorem Status.completed_err (k : ResultCode) (s : Status) : (s.completed k).err = k.isError := rfl

@[simp] theorem Status.completed_overrun (k : ResultCode) (s : Status) : (s.completed k).overrun = s.overrun := rfl

@[simp] theorem Status.completed_code (k : ResultCode) (s : Status) : (s.completed k).code = k := rfl

@[simp] theorem Status.overrunSet_done (s : Status) : (s.overrunSet).done = s.done := rfl

@[simp] theorem Status.overrunSet_err (s : Status) : (s.overrunSet).err = s.err := rfl

@[simp] theorem Status.overrunSet_overrun (s : Status) : (s.overrunSet).overrun = true := rfl

@[simp] theorem Status.overrunSet_code (s : Status) : (s.overrunSet).code = s.code := rfl

@[simp] theorem Status.writeOneToClear_done (v : Word) (s : Status) :
    (s.writeOneToClear v).done = (s.done && !v.getLsbD 0) := rfl

@[simp] theorem Status.writeOneToClear_err (v : Word) (s : Status) :
    (s.writeOneToClear v).err = (s.err && !v.getLsbD 1) := rfl

@[simp] theorem Status.writeOneToClear_overrun (v : Word) (s : Status) :
    (s.writeOneToClear v).overrun = (s.overrun && !v.getLsbD 3) := rfl

@[simp] theorem Status.writeOneToClear_code (v : Word) (s : Status) :
    (s.writeOneToClear v).code = s.code := rfl

/-- R251 in numbers. -/
@[simp] theorem ResultCode.isError_eq_true (k : ResultCode) :
    k.isError = true ↔ 2 ≤ k.value.toNat := by
  simp [ResultCode.isError]

/-! ## Parameters -/

/-- The bounds of the legal parameters (R6). -/
theorem legal_bounds {p : Params} (h : p.legal = true) :
    (64 ≤ p.ibufBytes ∧ p.ibufBytes ≤ 131072) ∧ (64 ≤ p.obufBytes ∧ p.obufBytes ≤ 131072) ∧
      p.maxPayloadReset ≤ p.obufBytes := by
  simp only [Params.legal, Bool.and_eq_true, decide_eq_true_eq] at h
  omega

end Sys2Proof.Machine
end

