-- ==== Sys2Proof/Laws/Exec.lean ====
section
/-! SUPPORT. Everything a command can do: each command's answer in terms of the commit, that every
performance is a commit or the fault of R86, and that a command reads neither STATUS nor what is
outside the block (spec/40_command_common.md R133 to R139). -/

namespace Sys2Proof.Machine

theorem exec_nop (s : State) : exec .nop s = .next (s.commit .ok {} none) := rfl

theorem exec_shaInit (s : State) :
    exec .shaInit s = .next (s.commit .ok { digest := some shaIv } none) := rfl

theorem exec_shaBlock (s : State) :
    exec .shaBlock s = .next (s.commit .ok { digest := some (compress s.h s.w) } none) := rfl

section bySource
variable {src : Src} {s : State} {bs : List Byte} {fopc : BitVec 4}

theorem exec_shaMsg (h : InputIs src s bs) :
    exec (.shaMsg src) s = .next (s.commit .ok (shaMsgOutputs bs) none) :=
  withInput_of_inputIs h

theorem exec_b64Enc_fits (h : InputIs src s bs) (hfit : base64Length bs.length ≤ s.params.obufBytes) :
    exec (.b64Enc src) s = .next (s.commit .ok { bytes := some (base64 bs) } none) := by
  simp [exec, execB64Enc, withInput_of_inputIs h, Nat.not_lt.mpr hfit, State.finishOk]

theorem exec_b64Enc_overflow (h : InputIs src s bs)
    (hfit : s.params.obufBytes < base64Length bs.length) :
    exec (.b64Enc src) s = .next (s.commit .outOverflow {} none) := by
  simp [exec, execB64Enc, withInput_of_inputIs h, hfit, State.raise]

theorem exec_fdDecode (h : InputIs src s bs) :
    exec (.fdDecode src) s =
      .next (s.commit (fdDecode s.ctrl.lenientUnmasked s.maxPayload.toNat bs).code
        { bytes := some (fdDecode s.ctrl.lenientUnmasked s.maxPayload.toNat bs).payload }
        (some (fdDecode s.ctrl.lenientUnmasked s.maxPayload.toNat bs).regs)) :=
  withInput_of_inputIs h

theorem exec_fdDecode_tooLong (h : InputTooLong src s) :
    exec (.fdDecode src) s = .next (s.commit .badLength {} (some FdRegs.zero)) :=
  withInput_of_tooLong h

theorem exec_feEncode_fits (h : InputIs src s bs)
    (hfit : encHeaderLength bs.length + bs.length ≤ s.params.obufBytes) :
    exec (.feEncode src fopc true) s =
      .next (s.commit .ok { bytes := some (feFrame fopc bs) } none) := by
  simp [exec, execFeEncode, withInput_of_inputIs h, Nat.not_lt.mpr hfit, State.finishOk]

theorem exec_feEncode_overflow (h : InputIs src s bs)
    (hfit : s.params.obufBytes < encHeaderLength bs.length + bs.length) :
    exec (.feEncode src fopc true) s = .next (s.commit .outOverflow {} none) := by
  simp [exec, execFeEncode, withInput_of_inputIs h, hfit, State.raise]

theorem exec_feEncode_finClear :
    exec (.feEncode src fopc false) s = .next (s.commit .illegalCmd {} none) := rfl

/-- A command that reads a source faults where its input holds a byte with no value (R86). -/
theorem exec_unwritten (h : InputUnwritten src s) {i : Instr} (hi : i ∈ sourceCommands src fopc) :
    exec i s = .fault .commandInputUnwritten := by
  simp only [sourceCommands, List.mem_cons, List.not_mem_nil, or_false] at hi
  rcases hi with rfl | rfl | rfl | rfl <;> exact withInput_of_unwritten h

/-- A command that reads a source ends with BAD_LENGTH where ILEN is out of range (R132). -/
theorem exec_tooLong (h : InputTooLong src s) {i : Instr} (hi : i ∈ sourceCommands src fopc) :
    ∃ fd, exec i s = .next (s.commit .badLength {} fd) ∧ (fd ≠ none → i = .fdDecode src) := by
  simp only [sourceCommands, List.mem_cons, List.not_mem_nil, or_false] at hi
  rcases hi with rfl | rfl | rfl | rfl <;> exact ⟨_, withInput_of_tooLong h, by simp⟩

end bySource

/-! ## Every performance -/

/-- A command that reads no source, or one that reads a source with FIN as it is. -/
theorem instr_cases (i : Instr) :
    i = .nop ∨ i = .shaInit ∨ i = .shaBlock ∨ (∃ src f, i ∈ sourceCommands src f) ∨
      ∃ src f, i = .feEncode src f false := by
  cases i with
  | feEncode src f fin => cases fin <;> simp [sourceCommands]
  | _ => simp [sourceCommands]

/-- Everything a command can answer: a commit, with the decoder's registers for FD_DECODE alone, or the
fault of R86, and that only where its input holds a byte with no value. -/
theorem exec_cases (i : Instr) (s : State) :
    (∃ k o fd, exec i s = .next (s.commit k o fd) ∧
      (fd ≠ none → ∃ src, i = .fdDecode src)) ∨
    (∃ src f, i ∈ sourceCommands src f ∧ InputUnwritten src s ∧
      exec i s = .fault .commandInputUnwritten) := by
  rcases instr_cases i with rfl | rfl | rfl | ⟨src, f, hi⟩ | ⟨src, f, rfl⟩
  · exact .inl ⟨_, _, _, exec_nop s, by simp⟩
  · exact .inl ⟨_, _, _, exec_shaInit s, by simp⟩
  · exact .inl ⟨_, _, _, exec_shaBlock s, by simp⟩
  · rcases input_cases src s with h | h | ⟨bs, h⟩
    · obtain ⟨fd, h1, h2⟩ := exec_tooLong h hi
      exact .inl ⟨_, _, fd, h1, fun h => ⟨src, h2 h⟩⟩
    · exact .inr ⟨src, f, hi, h, exec_unwritten h hi⟩
    · left
      simp only [sourceCommands, List.mem_cons, List.not_mem_nil, or_false] at hi
      rcases hi with rfl | rfl | rfl | rfl
      · exact ⟨_, _, _, exec_shaMsg h, by simp⟩
      · by_cases hfit : base64Length bs.length ≤ s.params.obufBytes
        · exact ⟨_, _, _, exec_b64Enc_fits h hfit, by simp⟩
        · exact ⟨_, _, _, exec_b64Enc_overflow h (by omega), by simp⟩
      · exact ⟨_, _, _, exec_fdDecode h, fun _ => ⟨src, rfl⟩⟩
      · by_cases hfit : encHeaderLength bs.length + bs.length ≤ s.params.obufBytes
        · exact ⟨_, _, _, exec_feEncode_fits h hfit, by simp⟩
        · exact ⟨_, _, _, exec_feEncode_overflow h (by omega), by simp⟩
  · exact .inl ⟨_, _, _, exec_feEncode_finClear, by simp⟩

theorem perform_of_decode {c : Word} {i : Instr} (h : decode c = .ok i) (s : State) :
    perform c s = exec i s := by
  simp [perform, h]

theorem perform_of_error {c : Word} {e : DecodeError} (h : decode c = .error e) (s : State) :
    perform c s = .next (s.commit .illegalCmd {} none) := by
  simp [perform, h, performIllegal, State.raise]

/-- Everything the performance of a command word can answer (R134, R137, R86). -/
theorem perform_cases (c : Word) (s : State) :
    (∃ k o fd, perform c s = .next (s.commit k o fd) ∧
      (fd ≠ none → ∃ src, decode c = .ok (.fdDecode src))) ∨
    (∃ src f, ∃ i ∈ sourceCommands src f, decode c = .ok i ∧ InputUnwritten src s ∧
      perform c s = .fault .commandInputUnwritten) := by
  cases h : decode c with
  | error e => exact .inl ⟨_, _, _, perform_of_error h s, by simp⟩
  | ok i =>
    rcases exec_cases i s with ⟨k, o, fd, h1, h2⟩ | ⟨src, f, hi, h1, h2⟩
    · refine .inl ⟨k, o, fd, (perform_of_decode h s).trans h1, fun hfd => ?_⟩
      obtain ⟨src, rfl⟩ := h2 hfd
      exact ⟨src, rfl⟩
    · exact .inr ⟨src, f, i, hi, rfl, h1, (perform_of_decode h s).trans h2⟩

/-- A performance that goes on is a commit. -/
theorem perform_eq_next {c : Word} {s t : State} (h : perform c s = .next t) :
    ∃ k o fd, t = s.commit k o fd ∧ (fd ≠ none → ∃ src, decode c = .ok (.fdDecode src)) := by
  rcases perform_cases c s with ⟨k, o, fd, h1, h2⟩ | ⟨_, _, _, _, _, _, h1⟩ <;> rw [h1] at h
  · exact ⟨k, o, fd, (Host.Outcome.next.inj h).symm, h2⟩
  · cases h

/-! ## The frame of a commit -/

theorem commit_frame (k : ResultCode) (o : Outputs) (fd : Option FdRegs) (s : State) :
    CommandFrame s (s.commit k o fd) := by
  constructor <;> simp

theorem commit_completed (k : ResultCode) (o : Outputs) (fd : Option FdRegs) (s : State) :
    Completed k (s.commit k o fd) := by
  constructor <;> simp

/-- R135: a commit with a code other than OK writes no output. -/
theorem commit_no_output {k : ResultCode} (hk : k ≠ .ok) (o : Outputs) (fd : Option FdRegs)
    (s : State) : (s.commit k o fd).h = s.h ∧ (s.commit k o fd).w = s.w ∧
      OutputKept s (s.commit k o fd) := by
  refine ⟨by simp [hk], by simp [hk], ⟨by simp [hk], by simp [hk]⟩⟩

/-- A commit with OK and output bytes that fit a 32-bit length. -/
theorem commit_output {o : Outputs} {bs : List Byte} (ho : o.bytes = some bs)
    (hlen : bs.length < 2 ^ 32) (fd : Option FdRegs) (s : State) :
    OutputIs bs s (s.commit .ok o fd) := by
  constructor
  · simpa [ho] using hlen
  · intro x
    simp only [State.commit_obuf, if_true, State.writeOutputs_obuf, ho, Option.map_some,
      Option.getD_some]
    exact Memory.get?_writeRange_zero _ _ _

theorem commit_output_none {o : Outputs} (ho : o.bytes = none) (k : ResultCode)
    (fd : Option FdRegs) (s : State) : OutputKept s (s.commit k o fd) := by
  constructor <;> simp [ho]

/-! ## What a command does not read -/

/-- The state with another STATUS, other pending inputs and another last response. -/
abbrev State.withHost (s : State) (st : Status) (ins : List PortInput) (r : Option Response) : State :=
  { s with status := st, inputs := ins, response := r }

theorem commit_withHost (k : ResultCode) (o : Outputs) (fd : Option FdRegs) (s : State)
    (st : Status) (ins : List PortInput) (r : Option Response) :
    (s.withHost st ins r).commit k o fd = (s.commit k o fd).withHost (st.completed k) ins r := by
  rcases o with ⟨_ | _, _ | _, _ | _⟩ <;> cases fd <;> by_cases hk : k = .ok <;>
    simp [State.commit, State.writeOutputs, State.writeFd, State.writeOutput, State.complete, hk]

/-- Two answers alike but for what a command does not read. -/
def sameButHost (st : Status) (ins : List PortInput) (r : Option Response) : Result → Result
  | .next t => .next (t.withHost (st.completed t.status.code) ins r)
  | .fault f => .fault f
  | .refused q => .refused q

theorem inputOf_withHost (src : Src) (s : State) (st : Status) (ins : List PortInput)
    (r : Option Response) : inputOf src (s.withHost st ins r) = inputOf src s := rfl

theorem withInput_withHost (src : Src) (s : State) (st : Status) (ins : List PortInput)
    (r : Option Response) (b b' : State) (k k' : List Byte → State)
    (hb : b' = b.withHost (st.completed b.status.code) ins r)
    (hk : ∀ bs, k' bs = (k bs).withHost (st.completed (k bs).status.code) ins r) :
    withInput src (s.withHost st ins r) b' k' = sameButHost st ins r (withInput src s b k) := by
  simp only [withInput, inputOf_withHost]
  cases inputOf src s <;> simp [sameButHost, hb, hk]

/-- A command's outcome is a function of the registers and buffers it reads: it reads neither STATUS nor
the pending inputs nor the last response (R139). -/
theorem exec_withHost (i : Instr) (s : State) (st : Status) (ins : List PortInput)
    (r : Option Response) :
    exec i (s.withHost st ins r) = sameButHost st ins r (exec i s) := by
  cases i with
  | nop => simp only [exec_nop, commit_withHost, sameButHost, State.commit_status,
      Status.completed_code]
  | shaInit => simp only [exec_shaInit, commit_withHost, sameButHost, State.commit_status,
      Status.completed_code]
  | shaBlock => simp only [exec_shaBlock, commit_withHost, sameButHost, State.commit_status,
      Status.completed_code]
  | shaMsg src =>
    exact withInput_withHost _ _ _ _ _ _ _ _ _
      (by simp only [State.raise, commit_withHost, State.commit_status, Status.completed_code])
      (fun bs => by
        simp only [State.finishOk, commit_withHost, State.commit_status, Status.completed_code])
  | b64Enc src =>
    refine withInput_withHost _ _ _ _ _ _ _ _ _
      (by simp only [State.raise, commit_withHost, State.commit_status, Status.completed_code])
      (fun bs => ?_)
    by_cases h : s.params.obufBytes < base64Length bs.length <;>
      simp only [h, if_true, if_false, State.finishOk, State.raise, commit_withHost,
        State.commit_status, Status.completed_code]
  | fdDecode src =>
    exact withInput_withHost _ _ _ _ _ _ _ _ _
      (by simp only [commit_withHost, State.commit_status, Status.completed_code])
      (fun bs => by
        simp only [commit_withHost, State.commit_status, Status.completed_code])
  | feEncode src f fin =>
    cases fin with
    | false => simp only [exec_feEncode_finClear, commit_withHost, sameButHost,
        State.commit_status, Status.completed_code]
    | true =>
      refine withInput_withHost _ _ _ _ _ _ _ _ _
        (by simp only [State.raise, commit_withHost, State.commit_status, Status.completed_code])
        (fun bs => ?_)
      by_cases h : s.params.obufBytes < encHeaderLength bs.length + bs.length <;>
        simp only [h, if_true, if_false, State.finishOk, State.raise, commit_withHost,
          State.commit_status, Status.completed_code]

theorem perform_withHost (c : Word) (s : State) (st : Status) (ins : List PortInput)
    (r : Option Response) :
    perform c (s.withHost st ins r) = sameButHost st ins r (perform c s) := by
  cases h : decode c with
  | ok i => rw [perform_of_decode h, perform_of_decode h, exec_withHost]
  | error e =>
    simp only [perform_of_error h, commit_withHost, sameButHost, State.commit_status,
      Status.completed_code]

end Sys2Proof.Machine
end

