-- ==== Sys2Proof/Laws/Base64.lean ====
section
/-! SUPPORT. The laws of the Base64 definitions: the groups of one, two and three bytes, the number of
characters, and that the text is encoded three bytes at a time (spec/42_base64.md R181 to R183). -/

namespace Sys2Proof.Machine

/-- The pending bits with a byte behind them. -/
theorem pending_eq (a : Nat) (y : Byte) : a <<< 8 ||| y.toNat = a * 256 + y.toNat := by
  rw [← Nat.shiftLeft_add_eq_or_of_lt y.isLt, Nat.shiftLeft_eq]

/-- The group of m bits of one byte and the top k bits of the next. -/
theorem group_append (x y : Byte) :
    (x.extractLsb' 0 2 ++ y.extractLsb' 4 4 : BitVec 6) =
        BitVec.ofNat 6 (x.toNat % 4 * 16 + y.toNat / 16) ∧
      (x.extractLsb' 0 4 ++ y.extractLsb' 6 2 : BitVec 6) =
        BitVec.ofNat 6 (x.toNat % 16 * 4 + y.toNat / 64) ∧
      (x.extractLsb' 0 2 ++ 0#4 : BitVec 6) = BitVec.ofNat 6 (x.toNat % 4 * 16) ∧
      (x.extractLsb' 0 4 ++ 0#2 : BitVec 6) = BitVec.ofNat 6 (x.toNat % 16 * 4) ∧
      x.extractLsb' 2 6 = BitVec.ofNat 6 (x.toNat / 4) ∧
      x.extractLsb' 0 6 = BitVec.ofNat 6 (x.toNat % 64) := by
  have hx := x.isLt
  have hy := y.isLt
  refine ⟨?_, ?_, ?_, ?_, ?_, ?_⟩ <;> apply BitVec.eq_of_toNat_eq
  · rw [BitVec.toNat_append, ← Nat.shiftLeft_add_eq_or_of_lt (BitVec.isLt _)]
    simp only [BitVec.extractLsb'_toNat, BitVec.toNat_ofNat, Nat.shiftRight_eq_div_pow,
      Nat.shiftLeft_eq]
    omega
  · rw [BitVec.toNat_append, ← Nat.shiftLeft_add_eq_or_of_lt (BitVec.isLt _)]
    simp only [BitVec.extractLsb'_toNat, BitVec.toNat_ofNat, Nat.shiftRight_eq_div_pow,
      Nat.shiftLeft_eq]
    omega
  · rw [BitVec.toNat_append, ← Nat.shiftLeft_add_eq_or_of_lt (BitVec.isLt _)]
    simp only [BitVec.extractLsb'_toNat, BitVec.toNat_ofNat, Nat.shiftRight_eq_div_pow,
      Nat.shiftLeft_eq]
    omega
  · rw [BitVec.toNat_append, ← Nat.shiftLeft_add_eq_or_of_lt (BitVec.isLt _)]
    simp only [BitVec.extractLsb'_toNat, BitVec.toNat_ofNat, Nat.shiftRight_eq_div_pow,
      Nat.shiftLeft_eq]
    omega
  · simp only [BitVec.extractLsb'_toNat, BitVec.toNat_ofNat, Nat.shiftRight_eq_div_pow]
  · simp only [BitVec.extractLsb'_toNat, BitVec.toNat_ofNat, Nat.shiftRight_eq_div_pow]
    omega

theorem and_mask (a k : Nat) : a &&& ((1 <<< k) - 1) = a % 2 ^ k := by
  rw [Nat.one_shiftLeft, Nat.and_two_pow_sub_one_eq_mod]

/-- The first byte of a triple gives one group and leaves two bits pending (R181). -/
theorem base64Groups_first (x : Byte) (bs : List Byte) :
    base64Groups (x :: bs) 0 0 =
      enc6 (x.extractLsb' 2 6) :: base64Groups bs (x.toNat % 4) 2 := by
  rw [(group_append x 0).2.2.2.2.1]
  simp only [base64Groups, pending_eq, drainGroups, and_mask, Nat.shiftRight_eq_div_pow]
  simp

/-- The second byte gives one group and leaves four bits pending. -/
theorem base64Groups_second (x y : Byte) (bs : List Byte) :
    base64Groups (y :: bs) (x.toNat % 4) 2 =
      enc6 (x.extractLsb' 0 2 ++ y.extractLsb' 4 4) :: base64Groups bs (y.toNat % 16) 4 := by
  rw [(group_append x y).1]
  simp only [base64Groups, pending_eq, drainGroups, and_mask, Nat.shiftRight_eq_div_pow]
  simp only [Nat.reduceAdd, Nat.reduceLeDiff, if_true, if_false, Nat.reduceSub]
  rw [show (x.toNat % 4 * 256 + y.toNat) / 2 ^ 4 = x.toNat % 4 * 16 + y.toNat / 16 by omega,
    show (x.toNat % 4 * 256 + y.toNat) % 2 ^ 4 = y.toNat % 16 by omega]
  rfl

/-- The third byte gives two groups and leaves nothing pending. -/
theorem base64Groups_third (y z : Byte) (bs : List Byte) :
    base64Groups (z :: bs) (y.toNat % 16) 4 =
      enc6 (y.extractLsb' 0 4 ++ z.extractLsb' 6 2) :: enc6 (z.extractLsb' 0 6) ::
        base64Groups bs 0 0 := by
  rw [(group_append y z).2.1, (group_append z 0).2.2.2.2.2]
  simp only [base64Groups, pending_eq, drainGroups, and_mask, Nat.shiftRight_eq_div_pow]
  simp only [Nat.reduceAdd, Nat.reduceLeDiff, if_true, if_false, Nat.reduceSub, Nat.pow_zero,
    Nat.div_one, Nat.mod_one]
  have h6 : BitVec.ofNat 6 (y.toNat % 16 * 256 + z.toNat) = BitVec.ofNat 6 (z.toNat % 64) := by
    apply BitVec.eq_of_toNat_eq
    simp only [BitVec.toNat_ofNat]
    omega
  rw [show (y.toNat % 16 * 256 + z.toNat) / 2 ^ 6 = y.toNat % 16 * 4 + z.toNat / 64 by omega, h6]
  rfl

theorem base64Groups_nil : base64Groups [] 0 0 = [] := rfl

/-- The flush of two pending bits (R181). -/
theorem base64Groups_flush_two (x : Byte) :
    base64Groups [] (x.toNat % 4) 2 = [enc6 (x.extractLsb' 0 2 ++ 0#4)] := by
  rw [(group_append x 0).2.2.1]
  simp [base64Groups, Nat.shiftLeft_eq]

/-- The flush of four pending bits. -/
theorem base64Groups_flush_four (x : Byte) :
    base64Groups [] (x.toNat % 16) 4 = [enc6 (x.extractLsb' 0 4 ++ 0#2)] := by
  rw [(group_append x 0).2.2.2.1]
  simp [base64Groups, Nat.shiftLeft_eq]

/-- The four characters of a triple. -/
def base64Triple (x y z : Byte) : List Byte :=
  [enc6 (x.extractLsb' 2 6), enc6 (x.extractLsb' 0 2 ++ y.extractLsb' 4 4),
    enc6 (y.extractLsb' 0 4 ++ z.extractLsb' 6 2), enc6 (z.extractLsb' 0 6)]

/-- A triple is encoded by itself (R181). -/
theorem base64_triple (x y z : Byte) (bs : List Byte) :
    base64 (x :: y :: z :: bs) = base64Triple x y z ++ base64 bs := by
  unfold base64 padToFour
  rw [base64Groups_first, base64Groups_second, base64Groups_third]
  simp only [base64Triple, List.length_cons, List.cons_append, List.nil_append]
  rw [show (4 - (base64Groups bs 0 0).length.succ.succ.succ.succ % 4) % 4 =
    (4 - (base64Groups bs 0 0).length % 4) % 4 by omega]

theorem base64_nil : base64 [] = [] := rfl

theorem base64_one (x : Byte) :
    base64 [x] = [enc6 (x.extractLsb' 2 6), enc6 (x.extractLsb' 0 2 ++ 0#4), padChar, padChar] := by
  unfold base64
  rw [base64Groups_first, base64Groups_flush_two]
  rfl

theorem base64_two (x y : Byte) :
    base64 [x, y] = [enc6 (x.extractLsb' 2 6), enc6 (x.extractLsb' 0 2 ++ y.extractLsb' 4 4),
      enc6 (y.extractLsb' 0 4 ++ 0#2), padChar] := by
  unfold base64
  rw [base64Groups_first, base64Groups_second, base64Groups_flush_four]
  rfl

/-- A byte sequence is empty, one byte, two bytes, or a triple and the rest: the induction of the
encoder's laws. -/
theorem tripleInduction {P : List Byte → Prop} (nil : P []) (one : ∀ x, P [x])
    (two : ∀ x y, P [x, y]) (triple : ∀ x y z bs, P bs → P (x :: y :: z :: bs)) :
    ∀ bs, P bs
  | [] => nil
  | [x] => one x
  | [x, y] => two x y
  | x :: y :: z :: bs => triple x y z bs (tripleInduction nil one two triple bs)

/-- The encoded length (R182). -/
theorem base64_length (bs : List Byte) : (base64 bs).length = base64Length bs.length := by
  induction bs using tripleInduction with
  | nil => rfl
  | one x => simp [base64_one, base64Length]
  | two x y => simp [base64_two, base64Length]
  | triple x y z bs ih =>
    rw [base64_triple, List.length_append, ih]
    simp only [base64Triple, base64Length, List.length_cons, List.length_nil]
    omega

theorem base64Length_le (n : Nat) : n ≤ base64Length n ∧ base64Length n ≤ 2 * n + 4 := by
  unfold base64Length; omega

end Sys2Proof.Machine
end

