-- ==== Sys2Proof/Laws/Sha1.lean ====
section
/-! SUPPORT. The laws of the SHA-1 definitions: byte order, the schedule's words, the length of a padded
message, and a digest's bytes (spec/41_sha1.md R152, R154, R157, R159). -/

namespace Sys2Proof.Machine

/-! ## Byte order -/

theorem bytesBE_length (v n : Nat) : (bytesBE v n).length = n := by
  induction n with
  | zero => rfl
  | succ n ih => simp [bytesBE, ih]

theorem beValue_append (s t : List Byte) :
    beValue (s ++ t) = beValue s * 2 ^ (8 * t.length) + beValue t := by
  have key : ∀ (t : List Byte) v,
      t.foldl (fun v b => 256 * v + b.toNat) v = v * 2 ^ (8 * t.length) + beValue t := by
    intro t
    induction t with
    | nil => simp [beValue]
    | cons b t ih =>
      intro v
      simp only [beValue, List.foldl_cons, List.length_cons] at ih ⊢
      rw [ih, ih (256 * 0 + b.toNat), show 8 * (t.length + 1) = 8 * t.length + 8 by omega, pow_add]
      ring
  unfold beValue
  rw [List.foldl_append, key]
  rfl

theorem beValue_cons (b : Byte) (s : List Byte) :
    beValue (b :: s) = b.toNat * 2 ^ (8 * s.length) + beValue s := by
  have := beValue_append [b] s
  simpa [beValue] using this

theorem beValue_lt (s : List Byte) : beValue s < 2 ^ (8 * s.length) := by
  induction s with
  | nil => simp [beValue]
  | cons b s ih =>
    rw [beValue_cons, List.length_cons, show 8 * (s.length + 1) = 8 * s.length + 8 by omega, pow_add]
    have hb := b.isLt
    nlinarith

/-- The big-endian value of an encoding is the value it encodes (R9). -/
theorem beValue_bytesBE (v n : Nat) : beValue (bytesBE v n) = v % 2 ^ (8 * n) := by
  induction n with
  | zero => simp [bytesBE, beValue, Nat.mod_one]
  | succ n ih =>
    rw [bytesBE, beValue_cons, bytesBE_length, ih, BitVec.toNat_ofNat, Nat.shiftRight_eq_div_pow,
      show 8 * (n + 1) = 8 * n + 8 by omega, pow_add, Nat.mod_mul]
    ring

/-- Byte j of a word's big-endian encoding (R9). -/
theorem bytesBE_word (x : Word) (j : Nat) (h : j < 4) :
    (bytesBE x.toNat 4)[j]? = some (x.extractLsb' (24 - 8 * j) 8) := by
  obtain rfl | rfl | rfl | rfl : j = 0 ∨ j = 1 ∨ j = 2 ∨ j = 3 := by omega
  all_goals
    simp only [bytesBE, List.getElem?_cons_zero, List.getElem?_cons_succ, Option.some.injEq]
    apply BitVec.eq_of_toNat_eq
    simp [BitVec.extractLsb'_toNat]

/-! ## Padding -/

theorem padZeros_spec (n : Nat) : (n + 1 + padZeros n) % 64 = 56 := by
  unfold padZeros; omega

theorem shaPad_length (m : List Byte) :
    (shaPad m).length = m.length + 1 + padZeros m.length + 8 := by
  simp [shaPad, bytesBE_length]
  omega

theorem shaPad_blocks (m : List Byte) :
    (shaPad m).length % 64 = 0 ∧ (shaPad m).length / 64 = (m.length + 8) / 64 + 1 := by
  rw [shaPad_length]
  unfold padZeros
  omega

/-! ## The message schedule -/

theorem extendSchedule_length (k : Nat) (w : List Word) :
    (extendSchedule k w).length = w.length + k := by
  induction k generalizing w with
  | zero => rfl
  | succ k ih => simp [extendSchedule, ih]; omega

/-- Extending a schedule keeps its words. -/
theorem extendSchedule_getD (k : Nat) (w : List Word) (j : Nat) (h : j < w.length) :
    (extendSchedule k w).getD j 0 = w.getD j 0 := by
  induction k generalizing w with
  | zero => rfl
  | succ k ih =>
    simp only [extendSchedule]
    rw [ih _ (by simp; omega)]
    exact List.getD_append _ _ _ _ h

/-- A word the extension adds is the recurrence of earlier words (R152). -/
theorem extendSchedule_rec (k : Nat) (w : List Word) (j : Nat) (hw : 16 ≤ w.length)
    (h : w.length ≤ j) (hj : j < w.length + k) :
    (extendSchedule k w).getD j 0 =
      rotl32 ((extendSchedule k w).getD (j - 3) 0 ^^^ (extendSchedule k w).getD (j - 8) 0 ^^^
        (extendSchedule k w).getD (j - 14) 0 ^^^ (extendSchedule k w).getD (j - 16) 0) 1 := by
  induction k generalizing w with
  | zero => omega
  | succ k ih =>
    simp only [extendSchedule]
    by_cases hj' : j = w.length
    · subst hj'
      have hlt : ∀ (x : Word) i, i < w.length → i < (w ++ [x]).length := by
        intro x i hi
        simp
        omega
      rw [extendSchedule_getD _ _ _ (by simp), extendSchedule_getD _ _ _ (hlt _ _ (by omega)),
        extendSchedule_getD _ _ _ (hlt _ _ (by omega)), extendSchedule_getD _ _ _ (hlt _ _ (by omega)),
        extendSchedule_getD _ _ _ (hlt _ _ (by omega))]
      rw [List.getD_append _ _ _ (w.length - 3) (by omega),
        List.getD_append _ _ _ (w.length - 8) (by omega),
        List.getD_append _ _ _ (w.length - 14) (by omega),
        List.getD_append _ _ _ (w.length - 16) (by omega)]
      simp
    · exact ih _ (by simp; omega) (by simp; omega) (by simp; omega)

/-! ## The digest as bytes -/

theorem rotl32_eq (x : Word) (n : Nat) (h : n < 32) : rotl32 x n = x.rotateLeft n := by
  simp [rotl32, BitVec.rotateLeft, BitVec.rotateLeftAux, Nat.mod_eq_of_lt h]

theorem digestBytes_length (h : Digest) : (digestBytes h).length = 20 := by
  simp [digestBytes, List.length_flatMap, bytesBE_length]

theorem getElem?_flatMap_bytesBE (l : List Word) (o : Nat) (h : o < 4 * l.length) :
    (l.flatMap fun x => bytesBE x.toNat 4)[o]? =
      some ((l.getD (o / 4) 0).extractLsb' (24 - 8 * (o % 4)) 8) := by
  induction l generalizing o with
  | nil => simp at h
  | cons x l ih =>
    rw [List.flatMap_cons]
    by_cases ho : o < 4
    · rw [List.getElem?_append_left (by simpa [bytesBE_length] using ho), bytesBE_word _ _ ho]
      simp [Nat.div_eq_of_lt ho, Nat.mod_eq_of_lt ho]
    · rw [List.getElem?_append_right (by simp [bytesBE_length]; omega), bytesBE_length,
        ih (o - 4) (by simp at h; omega)]
      obtain ⟨o', rfl⟩ : ∃ o', o = o' + 4 := ⟨o - 4, by omega⟩
      simp [Nat.add_div_right]

/-- Byte o of a digest is byte `o mod 4` of word `o / 4`, the high byte first (R157). -/
theorem digestBytes_getElem? (h : Digest) (o : Nat) (ho : o < 20) :
    (digestBytes h)[o]? = some ((h.toList.getD (o / 4) 0).extractLsb' (24 - 8 * (o % 4)) 8) :=
  getElem?_flatMap_bytesBE _ _ (by simpa using ho)

end Sys2Proof.Machine
end

