-- ==== Sys2Proof/Laws/Frame.lean ====
section
/-! SUPPORT. The laws of the frame definitions: header fields as numbers, the XOR mask, what an ended
decoding says about its input and its registers, and the encoder's length field
(spec/43_frame_decoder.md R200 to R209, spec/44_frame_encoder.md R230, R231). -/

namespace Sys2Proof.Machine

/-! ## Header fields -/

theorem frameOpcode_toNat (b0 : Byte) : (frameOpcode b0).toNat = b0.toNat % 16 := by
  simp [frameOpcode, BitVec.extractLsb'_toNat]

theorem maskBit_eq (b1 : Byte) : maskBit b1 = decide (128 ≤ b1.toNat) := by
  revert b1; decide

theorem baseLength_eq (b1 : Byte) : baseLength b1 = b1.toNat % 128 := by
  simp [baseLength, BitVec.extractLsb'_toNat]

theorem extLength_cases (l7 : Nat) :
    extLength l7 = 0 ∨ extLength l7 = 2 ∨ extLength l7 = 8 := by
  unfold extLength; split_ifs <;> simp

/-- HLEN fits its field (R203). -/
theorem headerLength_lt (b1 : Byte) : 2 ≤ headerLength b1 ∧ headerLength b1 < 16 := by
  rcases extLength_cases (baseLength b1) with h | h | h <;> cases hm : maskBit b1 <;>
    simp [headerLength, h, hm]

theorem headerLength_ge (b1 : Byte) : 2 + extLength (baseLength b1) ≤ headerLength b1 := by
  simp [headerLength]

theorem headerLength_masked {b1 : Byte} (h : maskBit b1 = true) :
    headerLength b1 = 2 + extLength (baseLength b1) + 4 := by
  simp [headerLength, h]

theorem baseLength_lt (b1 : Byte) : baseLength b1 < 128 := by
  rw [baseLength_eq]; omega

/-- A payload length is at most 64 bits (R202). -/
theorem payloadLength_lt (b1 : Byte) (src : List Byte) :
    payloadLength (baseLength b1) src < 2 ^ 64 := by
  have h7 := baseLength_lt b1
  unfold payloadLength
  split
  · omega
  · have := beValue_lt ((src.drop 2).take (extLength (baseLength b1)))
    refine lt_of_lt_of_le this (Nat.pow_le_pow_right (by omega) ?_)
    rcases extLength_cases (baseLength b1) with h | h | h <;> rw [h] <;>
      simp [List.length_take] <;> omega

/-- The length field of a frame is in its first `2 + x` bytes. -/
theorem payloadLength_append {l7 : Nat} {src tail : List Byte} (h : 2 + extLength l7 ≤ src.length) :
    payloadLength l7 (src ++ tail) = payloadLength l7 src := by
  unfold payloadLength
  rw [List.drop_append_of_le_length (by omega),
    List.take_append_of_le_length (by rw [List.length_drop]; omega)]

theorem be32_append {i : Nat} {src tail : List Byte} (h : i + 4 ≤ src.length) :
    be32 (src ++ tail) i = be32 src i := by
  unfold be32
  rw [List.drop_append_of_le_length (by omega),
    List.take_append_of_le_length (by rw [List.length_drop]; omega)]

theorem reservedOpcode_iff (opc : BitVec 4) :
    reservedOpcode opc = true ↔ (0x3 ≤ opc.toNat ∧ opc.toNat ≤ 0x7) ∨ 0xB ≤ opc.toNat := by
  simp [reservedOpcode]

/-! ## The XOR mask -/

@[simp] theorem xorMask_length (key : Word) (i : Nat) (bs : List Byte) :
    (xorMask key i bs).length = bs.length := by
  induction bs generalizing i with
  | nil => rfl
  | cons b bs ih => simp [xorMask, ih]

theorem xorMask_getElem (key : Word) (i : Nat) (bs : List Byte) (j : Nat)
    (h : j < (xorMask key i bs).length) :
    (xorMask key i bs)[j] = bs[j]'(by simpa using h) ^^^ keyByte key (i + j) := by
  induction bs generalizing i j with
  | nil => simp at h
  | cons b bs ih =>
    cases j with
    | zero => simp [xorMask]
    | succ j =>
      simp only [xorMask, List.getElem_cons_succ]
      rw [ih, show i + (j + 1) = i + 1 + j by omega]

theorem keyByte_zero (i : Nat) : keyByte 0 i = 0 := by
  simp [keyByte]

/-- A zero key leaves the bytes as they are (R204). -/
theorem xorMask_zero (i : Nat) (bs : List Byte) : xorMask 0 i bs = bs := by
  induction bs generalizing i with
  | nil => rfl
  | cons b bs ih => rw [xorMask, ih, keyByte_zero]; simp

/-- Masking is its own inverse (R204). -/
theorem xorMask_xorMask (key : Word) (i : Nat) (bs : List Byte) :
    xorMask key i (xorMask key i bs) = bs := by
  induction bs generalizing i with
  | nil => rfl
  | cons b bs ih => simp [xorMask, ih]

/-- The payload is in the first `hlen + plen` bytes. -/
theorem unmask_append {src tail : List Byte} {hlen plen : Nat} (key : Word)
    (h : hlen + plen ≤ src.length) :
    unmask (src ++ tail) hlen plen key = unmask src hlen plen key := by
  unfold unmask
  rw [List.drop_append_of_le_length (by omega),
    List.take_append_of_le_length (by rw [List.length_drop]; omega)]

theorem unmask_length {src : List Byte} {hlen plen : Nat} (key : Word)
    (h : hlen + plen ≤ src.length) : (unmask src hlen plen key).length = plen := by
  simp [unmask]
  omega

/-! ## The decoder's ends -/

/-- The codes FD_DECODE's checks give (R205). -/
theorem fdDecode_code (lenient : Bool) (maxPayload : Nat) (src : List Byte) :
    (fdDecode lenient maxPayload src).code ∈
      [ResultCode.ok, .incomplete, .protoUnmasked, .protoOpcode, .protoTooLong] := by
  unfold fdDecode
  split
  · dsimp only
    split_ifs <;> simp [fdStop]
  · simp [fdStop]

/-- What a decoding that ends with OK says (R205). -/
theorem fdDecode_ok {lenient : Bool} {maxPayload : Nat} {src : List Byte}
    (h : (fdDecode lenient maxPayload src).code = .ok) :
    ∃ b0 b1 rest, src = b0 :: b1 :: rest ∧ reservedOpcode (frameOpcode b0) = false ∧
      (maskBit b1 = true ∨ lenient = true) ∧
      payloadLength (baseLength b1) src ≤ maxPayload ∧
      headerLength b1 + payloadLength (baseLength b1) src ≤ src.length ∧
      fdDecode lenient maxPayload src =
        { code := .ok
          regs := fdRegs (fdHeader b0 b1 3) (payloadLength (baseLength b1) src)
            (if maskBit b1 then be32 src (2 + extLength (baseLength b1)) else 0)
          payload := unmask src (headerLength b1) (payloadLength (baseLength b1) src)
            (if maskBit b1 then be32 src (2 + extLength (baseLength b1)) else 0) } := by
  match src, h with
  | b0 :: b1 :: rest, h =>
    refine ⟨b0, b1, rest, rfl, ?_⟩
    simp only [fdDecode] at h ⊢
    by_cases h1 : reservedOpcode (frameOpcode b0) = true
    · rw [if_pos h1] at h
      cases h
    by_cases h2 : (!maskBit b1 && !lenient) = true
    · rw [if_neg h1, if_pos h2] at h
      cases h
    by_cases h3 : (b0 :: b1 :: rest).length < 2 + extLength (baseLength b1)
    · rw [if_neg h1, if_neg h2, if_pos h3] at h
      cases h
    by_cases h4 : maxPayload < payloadLength (baseLength b1) (b0 :: b1 :: rest)
    · rw [if_neg h1, if_neg h2, if_neg h3, if_pos h4] at h
      cases h
    by_cases h5 : (b0 :: b1 :: rest).length < headerLength b1
    · rw [if_neg h1, if_neg h2, if_neg h3, if_neg h4, if_pos h5] at h
      cases h
    by_cases h6 : (b0 :: b1 :: rest).length <
        headerLength b1 + payloadLength (baseLength b1) (b0 :: b1 :: rest)
    · rw [if_neg h1, if_neg h2, if_neg h3, if_neg h4, if_neg h5, if_pos h6] at h
      cases h
    refine ⟨by simpa using h1, ?_, Nat.not_lt.mp h4, Nat.not_lt.mp h6, ?_⟩
    · cases hm : maskBit b1 <;> cases lenient <;> simp_all
    · rw [if_neg h1, if_neg h2, if_neg h3, if_neg h4, if_neg h5, if_neg h6]
  | [], h => simp [fdDecode, fdStop] at h
  | [_], h => simp [fdDecode, fdStop] at h

/-- The decoding that goes on to the end (R205). -/
theorem fdDecode_eq_ok {lenient : Bool} {maxPayload : Nat} {b0 b1 : Byte} {rest : List Byte}
    (h1 : reservedOpcode (frameOpcode b0) = false) (h2 : maskBit b1 = true ∨ lenient = true)
    (h4 : payloadLength (baseLength b1) (b0 :: b1 :: rest) ≤ maxPayload)
    (h6 : headerLength b1 + payloadLength (baseLength b1) (b0 :: b1 :: rest) ≤
      (b0 :: b1 :: rest).length) :
    fdDecode lenient maxPayload (b0 :: b1 :: rest) =
      { code := .ok
        regs := fdRegs (fdHeader b0 b1 3) (payloadLength (baseLength b1) (b0 :: b1 :: rest))
          (if maskBit b1 then be32 (b0 :: b1 :: rest) (2 + extLength (baseLength b1)) else 0)
        payload := unmask (b0 :: b1 :: rest) (headerLength b1)
          (payloadLength (baseLength b1) (b0 :: b1 :: rest))
          (if maskBit b1 then be32 (b0 :: b1 :: rest) (2 + extLength (baseLength b1)) else 0) } := by
  have hh := headerLength_ge b1
  have h2' : (!maskBit b1 && !lenient) = false := by rcases h2 with h | h <;> simp [h]
  simp only [fdDecode, h1, h2', Bool.false_eq_true, if_false]
  rw [if_neg (by omega), if_neg (by omega), if_neg (by omega), if_neg (by omega)]

/-- On OK the payload has the decoded length, at most MAX_PAYLOAD (R205). -/
theorem fdDecode_payload_length {lenient : Bool} {maxPayload : Nat} {src : List Byte}
    (h : (fdDecode lenient maxPayload src).code = .ok) :
    (fdDecode lenient maxPayload src).payload.length ≤ maxPayload := by
  obtain ⟨b0, b1, rest, -, -, -, h4, h6, heq⟩ := fdDecode_ok h
  rw [heq]
  simp only
  rw [unmask_length _ h6]
  exact h4

/-! ## The result registers -/

theorem FdRegs.zero_consistent : FdRegs.zero.Consistent := by
  constructor <;> simp [FdRegs.zero]

/-- The registers of a stage of at least 1 are consistent (R32, R41 (e)). -/
theorem fdRegs_consistent (b0 b1 : Byte) (stage : BitVec 2) (plen : Nat) (key : Word)
    (hs : stage ≠ 0) (h2 : stage.toNat < 2 → plen = 0) (h3 : stage.toNat < 3 → key = 0)
    (hu : maskBit b1 = false → key = 0) :
    (fdRegs (fdHeader b0 b1 stage) plen key).Consistent := by
  constructor
  · exact fun h => absurd h hs
  · intro _
    simp only [fdRegs, fdHeader, decide_eq_true_eq]
    rw [← BitVec.toNat_inj, frameOpcode_toNat]
    rfl
  · intro _
    have := headerLength_lt b1
    simp only [fdRegs, fdHeader, BitVec.toNat_ofNat]
    omega
  · intro h
    rw [h2 h]
    exact ⟨rfl, rfl⟩
  · exact h3
  · intro h
    apply hu
    rw [maskBit_eq]
    simpa [fdRegs, fdHeader] using h

/-- Whatever the input, the decoder's result registers are consistent (R206, R41 (e)). -/
theorem fdDecode_consistent (lenient : Bool) (maxPayload : Nat) (src : List Byte) :
    (fdDecode lenient maxPayload src).regs.Consistent := by
  unfold fdDecode
  split
  · dsimp only
    split_ifs <;> (apply fdRegs_consistent <;> simp_all)
  · exact FdRegs.zero_consistent

/-! ## The encoder's length field -/

theorem lenhdr_length (n : Nat) :
    (lenhdr n).length = if n ≤ 125 then 1 else if n ≤ 65535 then 3 else 9 := by
  unfold lenhdr
  split_ifs <;> simp [bytesBE_length]

theorem encHeaderLength_eq (n : Nat) :
    encHeaderLength n = if n ≤ 125 then 2 else if n ≤ 65535 then 4 else 10 := by
  unfold encHeaderLength
  rw [lenhdr_length]
  split_ifs <;> rfl

theorem feFrame_length (opc : BitVec 4) (p : List Byte) :
    (feFrame opc p).length = encHeaderLength p.length + p.length := by
  simp [feFrame, encHeaderLength]
  omega

/-- The length field is a byte below 128 and the bytes of the extended length (R231). -/
theorem lenhdr_eq (n : Nat) : ∃ b : Byte, ∃ ext, lenhdr n = b :: ext ∧ b.toNat < 128 ∧
    extLength b.toNat = ext.length ∧
    (ext = [] → b.toNat = n) ∧ (ext ≠ [] → n < 2 ^ 64 → beValue ext = n) := by
  unfold lenhdr
  split_ifs with h1 h2
  · refine ⟨BitVec.ofNat 8 n, [], rfl, ?_, ?_, ?_, by simp⟩ <;>
      rw [BitVec.toNat_ofNat, Nat.mod_eq_of_lt (by omega)]
    · omega
    · simp [extLength, show n ≠ 126 by omega, show n ≠ 127 by omega]
    · simp
  · refine ⟨126, _, rfl, by decide, by simp [extLength, bytesBE_length], by simp [bytesBE],
      fun _ _ => ?_⟩
    rw [beValue_bytesBE]
    omega
  · refine ⟨127, _, rfl, by decide, by simp [extLength, bytesBE_length], by simp [bytesBE],
      fun _ h => ?_⟩
    rw [beValue_bytesBE]
    omega

end Sys2Proof.Machine
end

