-- ==== Sys2Proof/Laws/HostPort.lean ====
section
/-! SUPPORT. The register map, which transactions are admitted and what they reach
(spec/10_state.md R43, spec/20_memory.md R71 to R74), and everything a host transaction can do. -/

namespace Sys2Proof.Machine

/-! ## The register map -/

theorem regAt?_offset (r : Reg) : regAt? r.offset = some r := by
  cases r with
  | h i => revert i; decide
  | w k => revert k; decide
  | _ => decide

/-- An offset has a register exactly when it is that register's (R43). -/
theorem regAt?_eq_some (a : Nat) (r : Reg) : regAt? a = some r ↔ a = r.offset := by
  constructor
  · intro h
    have := List.find?_some h
    exact (beq_iff_eq.mp this).symm
  · rintro rfl
    exact regAt?_offset r

theorem registerOffsets_eq : registerOffsets = Reg.all.map Reg.offset := by decide

/-- An offset has no register exactly when R43's table does not list it. -/
theorem regAt?_eq_none (a : Nat) : regAt? a = none ↔ a ∉ registerOffsets := by
  simp [regAt?, registerOffsets_eq, List.find?_eq_none]

theorem Reg.offset_lt (r : Reg) : r.offset < 0x100 := by
  cases r <;> simp [Reg.offset] <;> omega

theorem Reg.offset_aligned (r : Reg) : r.offset % 4 = 0 := by
  cases r <;> simp [Reg.offset]

theorem Reg.offset_injective {r r' : Reg} (h : r.offset = r'.offset) : r = r' := by
  have := regAt?_offset r
  rw [h, regAt?_offset] at this
  exact (Option.some.inj this).symm

/-! ## Admission -/

theorem Size.bytes_pos (n : Size) : 0 < n.bytes := by cases n <;> decide

/-- A transaction is not admitted exactly when one of (a) to (f) of R74 holds. -/
theorem locate_eq_none (p : Params) (a : Addr) (n : Size) :
    locate p a.toNat n = none ↔ NotAdmitted p a n := by
  have hn := n.bytes_pos
  simp only [locate, NotAdmitted]
  split_ifs <;> simp_all [regAt?_eq_none]
  all_goals by_cases hm : a.toNat ∈ registerOffsets <;>
    simp [hm] <;> omega

/-- A register is reached by 4-byte transactions at its offset (R75). -/
theorem locate_reg (p : Params) (r : Reg) : locate p r.offset .four = some (.reg r) := by
  have h := r.offset_lt
  have h' := r.offset_aligned
  simp [locate, Size.bytes, h, h', regAt?_offset]

theorem locate_eq_reg {p : Params} {a : Nat} {n : Size} {r : Reg}
    (h : locate p a n = some (.reg r)) : a = r.offset ∧ n = .four := by
  simp only [locate] at h
  split_ifs at h <;> simp_all [regAt?_eq_some]

theorem locate_ibuf {p : Params} {a o : Nat} {n : Size} (ha : a = 0x20000 + o)
    (hal : o % n.bytes = 0) (hfit : o + n.bytes ≤ p.ibufBytes) (hp : p.ibufBytes ≤ 131072) :
    locate p a n = some (.ibuf o) := by
  have hn := n.bytes_pos
  subst ha
  have : (0x20000 + o) % n.bytes = 0 := by cases n <;> simp_all [Size.bytes] <;> omega
  simp [locate, this, show ¬ 0x20000 + o < 0x100 by omega, show 0x20000 + o < 0x40000 by omega,
    hfit]

theorem locate_obuf {p : Params} {a o : Nat} {n : Size} (ha : a = 0x40000 + o)
    (hal : o % n.bytes = 0) (hfit : o + n.bytes ≤ p.obufBytes) (hp : p.obufBytes ≤ 131072) :
    locate p a n = some (.obuf o) := by
  have hn := n.bytes_pos
  subst ha
  have : (0x40000 + o) % n.bytes = 0 := by cases n <;> simp_all [Size.bytes] <;> omega
  simp [locate, this, show ¬ 0x40000 + o < 0x100 by omega, show ¬ 0x40000 + o < 0x20000 by omega,
    show 0x40000 + o < 0x60000 by omega, hfit]

theorem locate_eq_ibuf {p : Params} {a o : Nat} {n : Size}
    (h : locate p a n = some (.ibuf o)) :
    0x20000 ≤ a ∧ a < 0x40000 ∧ o = a - 0x20000 ∧ o + n.bytes ≤ p.ibufBytes := by
  simp only [locate] at h
  split_ifs at h <;> simp_all

theorem locate_eq_obuf {p : Params} {a o : Nat} {n : Size}
    (h : locate p a n = some (.obuf o)) :
    0x40000 ≤ a ∧ a < 0x60000 ∧ o = a - 0x40000 ∧ o + n.bytes ≤ p.obufBytes := by
  simp only [locate] at h
  split_ifs at h <;> simp_all

/-- A STATUS write is a 4-byte write at 0x010 (R79). -/
theorem locate_eq_status {p : Params} {a : Addr} {n : Size} {t : Target}
    (h : locate p a.toNat n = some t) : t = .reg .status ↔ a = 0x00010 := by
  constructor
  · rintro rfl
    have := (locate_eq_reg h).1
    exact BitVec.eq_of_toNat_eq (by simpa [Reg.offset] using this)
  · rintro rfl
    have : locate p (0x00010#19).toNat n = some t := h
    cases n with
    | four =>
      have h' := locate_reg p .status
      simp only [Reg.offset] at h'
      rw [show (0x00010#19).toNat = 0x010 from rfl, h'] at this
      exact (Option.some.inj this).symm
    | _ => simp [locate, Size.bytes] at this

/-! ## Lanes -/

@[simp] theorem bytesLE_length (v n : Nat) : (bytesLE v n).length = n := by
  induction n generalizing v with
  | zero => rfl
  | succ n ih => simp [bytesLE, ih]

theorem bytesLE_getElem (v n i : Nat) (h : i < (bytesLE v n).length) :
    (bytesLE v n)[i] = BitVec.ofNat 8 (v >>> (8 * i)) := by
  induction n generalizing v i with
  | zero => simp at h
  | succ n ih =>
    cases i with
    | zero => simp [bytesLE]
    | succ i =>
      simp only [bytesLE, List.getElem_cons_succ]
      rw [ih]
      · rw [← Nat.shiftRight_add, show 8 * (i + 1) = 8 + 8 * i by omega]

theorem leValue_lt (bs : List Byte) : leValue bs < 2 ^ (8 * bs.length) := by
  induction bs with
  | nil => simp [leValue]
  | cons b bs ih =>
    have hb := b.isLt
    simp only [leValue, List.length_cons, Nat.mul_add, Nat.mul_one, Nat.pow_add]
    omega

/-- The lanes of a value give its low bytes back (R76). -/
theorem leValue_bytesLE (v n : Nat) : leValue (bytesLE v n) = v % 2 ^ (8 * n) := by
  induction n generalizing v with
  | zero => simp [bytesLE, leValue, Nat.mod_one]
  | succ n ih =>
    simp only [bytesLE, leValue, ih, BitVec.toNat_ofNat, Nat.shiftRight_eq_div_pow]
    rw [show 8 * (n + 1) = 8 + 8 * n by omega, Nat.pow_add, Nat.mod_mul]

/-! ## What a transaction does -/

/-- A read changes the response alone (R77). -/
theorem hostRead_next {a : Addr} {n : Size} {s t : State} (h : hostRead a n s = .next t) :
    ∃ r, t = s.respond r := by
  simp only [hostRead, bufRead] at h
  split at h
  · exact ⟨_, (Host.Outcome.next.inj h).symm⟩
  · exact ⟨_, (Host.Outcome.next.inj h).symm⟩
  all_goals
    split at h
    · exact ⟨_, (Host.Outcome.next.inj h).symm⟩
    · cases h

/-- A write always completes (R72): as BUS_ERROR where it is not admitted, and otherwise as the admitted
write. -/
theorem hostWrite_eq (a : Addr) (n : Size) (v : Word) (s : State) :
    (locate s.params a.toNat n = none ∧ hostWrite a n v s = .next (s.respond busErrorWrite)) ∨
    ∃ t, locate s.params a.toNat n = some t ∧
      hostWrite a n v s = .next ((admittedWrite t n v s).respond okayWrite) := by
  cases h : locate s.params a.toNat n with
  | none => exact .inl ⟨rfl, by simp [hostWrite, h]⟩
  | some t => exact .inr ⟨t, rfl, by simp [hostWrite, h]⟩

/-- Everything an admitted write can do: it is lost, or it is performed. -/
theorem admittedWrite_cases (t : Target) (n : Size) (v : Word) (s : State) :
    (s.seq.isBusy = true ∧ t ≠ .reg .status ∧
      admittedWrite t n v s = { s with status := s.status.overrunSet }) ∨
    ((s.seq.isBusy = false ∨ t = .reg .status) ∧ admittedWrite t n v s = targetWrite t n v s) := by
  by_cases hb : s.seq.isBusy = true <;> by_cases ht : t = .reg .status <;>
    simp_all [admittedWrite]

theorem admittedWrite_idle {t : Target} {n : Size} {v : Word} {s : State} (h : s.seq = .idle) :
    admittedWrite t n v s = targetWrite t n v s := by
  simp [admittedWrite, h, Seq.isBusy]

theorem admittedWrite_busy {t : Target} {n : Size} {v : Word} {s : State} {c : Word}
    (h : s.seq = .busy c) (ht : t ≠ .reg .status) :
    admittedWrite t n v s = { s with status := s.status.overrunSet } := by
  simp [admittedWrite, h, Seq.isBusy, ht]

theorem Seq.isBusy_eq_true (q : Seq) : q.isBusy = true ↔ ∃ c, q = .busy c := by
  cases q <;> simp [Seq.isBusy]

theorem Seq.isBusy_eq_false (q : Seq) : q.isBusy = false ↔ q = .idle := by
  cases q <;> simp [Seq.isBusy]

end Sys2Proof.Machine
end

