-- ==== Sys2Proof/Laws/Invariant.lean ====
section
/-! SUPPORT. The invariant under a commit and under what is outside the block (spec/10_state.md R41). -/

namespace Sys2Proof.Machine

/-- The invariant does not depend on what is outside the block. -/
theorem inv_withHost {s : State} (h : s.Inv) (ins : List PortInput) (r : Option Response) :
    ({ s with inputs := ins, response := r } : State).Inv := by
  obtain ⟨a,b,c,d,e,f,g,i,j,k⟩ := h
  exact ⟨a,b,c,d,e,f,g,i,j,k⟩

/-- A commit keeps the invariant where its output fits OBUF and its result registers are consistent
(R41, R134). -/
theorem commit_inv {s : State} (h : s.Inv) (k : ResultCode) (o : Outputs) (fd : Option FdRegs)
    (ho : k = .ok → ∀ bs, o.bytes = some bs → bs.length ≤ s.params.obufBytes)
    (hf : ∀ r, fd = some r → r.Consistent) : (s.commit k o fd).Inv := by
  have hp := h.params_legal
  have hb := legal_bounds hp
  constructor
  · simpa using hp
  · by_cases hk : k = .ok
    · cases hob : o.bytes with
      | none => simpa [hob] using h.olen_le
      | some bs =>
        have := ho hk bs hob
        simp [hk, hob]; omega
    · simpa [hk] using h.olen_le
  · simpa using h.maxPayload_le
  · intro hbusy; simp [Seq.isBusy] at hbusy
  · cases fd with
    | none => simpa using h.fd_consistent
    | some r => simpa using hf r rfl
  · simpa using h.ibuf_wf
  · simpa using h.ibuf_within
  · by_cases hk : k = .ok
    · cases hob : o.bytes with
      | none => simpa [hob] using h.obuf_wf
      | some bs => simpa [hk, hob] using Memory.wf_writeRange h.obuf_wf 0 bs
    · simpa [hk] using h.obuf_wf
  · by_cases hk : k = .ok
    · cases hob : o.bytes with
      | none => simpa [hob] using h.obuf_within
      | some bs =>
        have := ho hk bs hob
        simpa [hk, hob] using Memory.within_writeRange h.obuf_within 0 bs (by omega)
    · simpa [hk] using h.obuf_within
  · by_cases hk : k = .ok
    · cases hob : o.bytes with
      | none => simpa [hob] using h.olen_written
      | some bs =>
        have hl := ho hk bs hob
        intro x hx
        subst hk
        have := commit_output hob (by omega) fd s
        rw [this.olen] at hx
        rw [this.obuf, dif_pos hx]; rfl
    · simpa [hk] using h.olen_written

end Sys2Proof.Machine
end

