-- ==== Sys2Proof/Laws/PerInstr.lean ====
section
/-! SUPPORT. For every command: it is well-formed exactly when the word the encoder writes for it is a
legal word (spec/30_encoding.md R105, R106). -/

namespace Sys2Proof.Laws.WellFormedLegal

open Sys2Proof Sys2Proof.Machine

/-- The command is well-formed exactly when its word is legal. -/
def Statement (i : Instr) : Prop := i.wellFormed = true ↔ LegalWord (encode i)

theorem nop : Statement .nop := by
  rw [Statement, legalWord_iff]; simp [encode, Instr.wellFormed]

theorem shaInit : Statement .shaInit := by
  rw [Statement, legalWord_iff]; simp [encode, Instr.wellFormed]

theorem shaBlock : Statement .shaBlock := by
  rw [Statement, legalWord_iff]; simp [encode, Instr.wellFormed]

theorem shaMsg (src : Src) : Statement (.shaMsg src) := by
  rw [Statement, legalWord_iff]; simp [encode, Instr.wellFormed]

theorem b64Enc (src : Src) : Statement (.b64Enc src) := by
  rw [Statement, legalWord_iff]; simp [encode, Instr.wellFormed]

theorem fdDecode (src : Src) : Statement (.fdDecode src) := by
  rw [Statement, legalWord_iff]; simp [encode, Instr.wellFormed]

theorem feEncode (src : Src) (fopc : BitVec 4) (fin : Bool) :
    Statement (.feEncode src fopc fin) := by
  rw [Statement, legalWord_iff]; cases fin <;> simp [encode, Instr.wellFormed]

end Sys2Proof.Laws.WellFormedLegal
end

