-- ==== Sys2Proof/Laws/Step.lean ====
section
/-! SUPPORT. Everything one step can do (spec/20_memory.md R72, spec/40_command_common.md R131,
spec/70_reset_and_hazards.md R280), and how runs of steps compose. -/

namespace Sys2Proof.Machine

/-! ## The kinds of step -/

theorem step_of_turn {s s₀ : State} (h : SequencerTurn s s₀) : step s = sequencerStep s₀ := by
  rcases h with ⟨h, rfl⟩ | ⟨rest, h, rfl⟩ <;> simp [step, takeStep, h, stepOn]

theorem step_bus {s : State} {t : Transaction} {rest : List PortInput}
    (h : s.inputs = .bus t :: rest) : step s = hostTransaction t { s with inputs := rest } := by
  simp [step, takeStep, h, stepOn]

theorem step_rst {s : State} {rest : List PortInput} (h : s.inputs = .rst :: rest) :
    step s = .next { s with inputs := rest }.applyReset := by
  simp [step, takeStep, h, stepOn]

/-- The state the sequencer moves on differs from s in `inputs` alone. -/
theorem SequencerTurn.eq {s s₀ : State} (h : SequencerTurn s s₀) :
    s₀ = { s with inputs := s₀.inputs } := by
  rcases h with ⟨-, rfl⟩ | ⟨rest, -, rfl⟩ <;> rfl

theorem SequencerTurn.seq_eq {s s₀ : State} (h : SequencerTurn s s₀) : s₀.seq = s.seq := by
  rw [h.eq]

theorem sequencerStep_idle {s : State} (h : s.seq = .idle) : sequencerStep s = .next s := by
  simp [sequencerStep, h]

theorem sequencerStep_busy {s : State} {c : Word} (h : s.seq = .busy c) :
    sequencerStep s = perform c s := by
  simp [sequencerStep, h]

/-- What the next step is about. -/
theorem input_kinds (s : State) :
    (∃ s₀, SequencerTurn s s₀) ∨
    (∃ a n rest, s.inputs = .bus (.read a n) :: rest) ∨
    (∃ a n v rest, s.inputs = .bus (.write a n v) :: rest) ∨
    ∃ rest, s.inputs = .rst :: rest := by
  cases h : s.inputs with
  | nil => exact .inl ⟨s, .inl ⟨h, rfl⟩⟩
  | cons i rest =>
    cases i with
    | quiet => exact .inl ⟨_, .inr ⟨rest, h, rfl⟩⟩
    | rst => exact .inr (.inr (.inr ⟨rest, rfl⟩))
    | bus t =>
      cases t with
      | read a n => exact .inr (.inl ⟨a, n, rest, rfl⟩)
      | write a n v => exact .inr (.inr (.inl ⟨a, n, v, rest, rfl⟩))

/-- Everything a step that goes on can do: nothing, a performance, a read, a write with BUS_ERROR, a lost
write, a performed write, or a reset. -/
theorem step_eq_next {s t : State} (h : step s = .next t) :
    (SequencerTurn s t ∧ s.seq = .idle) ∨
    (∃ s₀ c, SequencerTurn s s₀ ∧ s.seq = .busy c ∧ perform c s₀ = .next t) ∨
    (∃ a n rest r, s.inputs = .bus (.read a n) :: rest ∧ t = answered s rest r) ∨
    (∃ a n v rest, s.inputs = .bus (.write a n v) :: rest ∧ NotAdmitted s.params a n ∧
      t = answered s rest busErrorWrite) ∨
    (∃ a n v rest c, s.inputs = .bus (.write a n v) :: rest ∧ ¬ NotAdmitted s.params a n ∧
      a ≠ 0x00010 ∧ s.seq = .busy c ∧
      t = { answered s rest okayWrite with status := s.status.overrunSet }) ∨
    (∃ a n v rest tgt, s.inputs = .bus (.write a n v) :: rest ∧
      locate s.params a.toNat n = some tgt ∧ (s.seq = .idle ∨ tgt = .reg .status) ∧
      t = (targetWrite tgt n v { s with inputs := rest }).respond okayWrite) ∨
    ∃ rest, s.inputs = .rst :: rest ∧ t = { s with inputs := rest }.applyReset := by
  rcases input_kinds s with ⟨s₀, h₀⟩ | ⟨a, n, rest, hi⟩ | ⟨a, n, v, rest, hi⟩ | ⟨rest, hi⟩
  · rw [step_of_turn h₀] at h
    cases hq : s.seq with
    | idle =>
      rw [sequencerStep_idle (h₀.seq_eq.trans hq)] at h
      cases h
      exact .inl ⟨h₀, rfl⟩
    | busy c =>
      rw [sequencerStep_busy (h₀.seq_eq.trans hq)] at h
      exact .inr (.inl ⟨s₀, c, h₀, rfl, h⟩)
  · rw [step_bus hi] at h
    obtain ⟨r, rfl⟩ := hostRead_next h
    exact .inr (.inr (.inl ⟨a, n, rest, r, hi, rfl⟩))
  · rw [step_bus hi] at h
    rcases hostWrite_eq a n v { s with inputs := rest } with ⟨hl, hw⟩ | ⟨tgt, hl, hw⟩
    · rw [hostTransaction, hw] at h
      cases h
      exact .inr (.inr (.inr (.inl ⟨a, n, v, rest, hi, (locate_eq_none _ _ _).mp hl, rfl⟩)))
    · rw [hostTransaction, hw] at h
      cases h
      rcases admittedWrite_cases tgt n v { s with inputs := rest } with ⟨hb, ht, he⟩ | ⟨hb, he⟩
      · obtain ⟨c, hc⟩ := (Seq.isBusy_eq_true _).mp hb
        refine .inr (.inr (.inr (.inr (.inl ⟨a, n, v, rest, c, hi, ?_, ?_, hc, ?_⟩))))
        · rw [← locate_eq_none]; simp only at hl; simp [hl]
        · exact fun ha => ht ((locate_eq_status hl).mpr ha)
        · rw [he]; rfl
      · refine .inr (.inr (.inr (.inr (.inr (.inl ⟨a, n, v, rest, tgt, hi, hl, ?_, ?_⟩)))))
        · exact hb.imp (Seq.isBusy_eq_false _).mp id
        · rw [he]
  · rw [step_rst hi] at h
    cases h
    exact .inr (.inr (.inr (.inr (.inr (.inr ⟨rest, hi, rfl⟩)))))

/-! ## A register read or write as a step -/

theorem step_read_reg {s : State} {a : Addr} {rest : List PortInput} (r : Reg)
    (h : s.inputs = .bus (.read a .four) :: rest) (ha : a.toNat = r.offset) :
    step s = .next (answered s rest (okayRead (regRead r s))) := by
  rw [step_bus h]
  simp only [hostTransaction, hostRead, ha, locate_reg]
  cases r <;> rfl

theorem step_write_reg {s : State} {a : Addr} {v : Word} {rest : List PortInput} (r : Reg)
    (h : s.inputs = .bus (.write a .four v) :: rest) (ha : a.toNat = r.offset)
    (hs : s.seq = .idle ∨ r = .status) :
    step s = .next ((regWrite r v { s with inputs := rest }).respond okayWrite) := by
  rw [step_bus h]
  simp only [hostTransaction, hostWrite, ha, locate_reg]
  rcases hs with hs | rfl
  · rw [admittedWrite_idle (by simpa using hs)]; rfl
  · simp [admittedWrite, targetWrite]

/-! ## Runs -/

theorem run_zero (s : State) : Host.Core.run core 0 s = .next s := rfl

theorem run_succ {s t : State} (h : step s = .next t) (k : Nat) :
    Host.Core.run core (k + 1) s = Host.Core.run core k t := by
  have h' : core.step s = .next t := h
  simp only [Host.Core.run]
  rw [h']

/-- A run that goes on is a first step that goes on, and a run from there. -/
theorem run_succ_eq_next {s u : State} {k : Nat} (h : Host.Core.run core (k + 1) s = .next u) :
    ∃ t, step s = .next t ∧ Host.Core.run core k t = .next u := by
  simp only [Host.Core.run] at h
  cases hs : core.step s with
  | next t => rw [hs] at h; exact ⟨t, hs, h⟩
  | fault f => rw [hs] at h; cases h
  | refused r => rw [hs] at h; cases h

/-- Runs compose. -/
theorem run_add {s t : State} {j : Nat} (k : Nat) (h : Host.Core.run core j s = .next t) :
    Host.Core.run core (j + k) s = Host.Core.run core k t := by
  induction j generalizing s with
  | zero => cases h; simp
  | succ j ih =>
    obtain ⟨s', h1, h2⟩ := run_succ_eq_next h
    rw [show j + 1 + k = (j + k) + 1 by omega, run_succ h1, ih h2]

/-- A run splits. -/
theorem run_split {s u : State} {j k : Nat} (h : Host.Core.run core (j + k) s = .next u) :
    ∃ t : State, Host.Core.run core j s = .next t ∧ Host.Core.run core k t = .next u := by
  induction j generalizing s with
  | zero => exact ⟨s, rfl, by simpa using h⟩
  | succ j ih =>
    rw [show j + 1 + k = (j + k) + 1 by omega] at h
    obtain ⟨t, h1, h2⟩ := run_succ_eq_next h
    obtain ⟨t', h3, h4⟩ := ih h2
    exact ⟨t', by rw [run_succ h1, h3], h4⟩

/-- While a command is in progress a host transaction changes at most STATUS, the response, and what is
still to arrive (R79, R80). -/
theorem step_bus_busy {s t : State} {c : Word} {x : Transaction} {rest : List PortInput}
    (hq : s.seq = .busy c) (hi : s.inputs = .bus x :: rest) (h : step s = .next t) :
    ∃ st r, t = s.withHost st rest r := by
  have hno : ∀ {i rest'}, s.inputs = i :: rest' → i = .bus x ∧ rest' = rest := by
    intro i rest' hi'
    rw [hi] at hi'
    exact ⟨(List.cons.inj hi').1.symm, (List.cons.inj hi').2.symm⟩
  rcases step_eq_next h with ⟨-, h2⟩ | ⟨s₀, c', h1, -, -⟩ | ⟨_, _, _, _, h1, h2⟩ |
    ⟨_, _, _, _, h1, -, h2⟩ | ⟨_, _, _, _, _, h1, -, -, -, h2⟩ |
    ⟨_, _, _, _, tgt, h1, -, h3, h2⟩ | ⟨_, h1, -⟩
  · rw [hq] at h2; cases h2
  · rcases h1 with ⟨h1, -⟩ | ⟨_, h1, -⟩
    · rw [hi] at h1; cases h1
    · cases (hno h1).1
  · obtain ⟨-, rfl⟩ := hno h1; exact ⟨_, _, h2⟩
  · obtain ⟨-, rfl⟩ := hno h1; exact ⟨_, _, h2⟩
  · obtain ⟨-, rfl⟩ := hno h1; exact ⟨_, _, h2⟩
  · obtain ⟨-, rfl⟩ := hno h1
    rcases h3 with h3 | rfl
    · rw [hq] at h3; cases h3
    · exact ⟨_, _, h2⟩
  · cases (hno h1).1

end Sys2Proof.Machine
end

