-- ==== Sys2Proof/Tests/Slice0.lean ====
section
/-! SUPPORT. Tests on fixed values, each expected value from spec/ (30_encoding.md R102 to R108,
40_command_common.md, 95_test_vectors.md), and for every statement that has hypotheses a concrete state
and operands that meet them. -/

namespace Sys2Proof.Tests.Slice0

open Sys2Proof Sys2Proof.Machine

/-! ## States of the tests -/

/-- The bytes of an ASCII text (R9). -/
def ascii (t : String) : List Byte := t.toList.map fun c => BitVec.ofNat 8 c.toNat

/-- The bytes of numbers below 256. -/
def bytes (l : List Nat) : List Byte := l.map (BitVec.ofNat 8)

/-- Reset, with `IBUF[0..ILEN)` holding bs. -/
def loaded (bs : List Byte) : State :=
  { State.reset with ibuf := cellsFrom 0 bs, ilen := BitVec.ofNat 32 bs.length }

/-- Reset, with `OBUF[0..OLEN)` holding bs. -/
def chained (bs : List Byte) : State :=
  { State.reset with obuf := cellsFrom 0 bs, olen := BitVec.ofNat 32 bs.length }

/-- `loaded`, with the smallest legal buffers. -/
def small (bs : List Byte) : State :=
  { loaded bs with params := { ibufBytes := 64, obufBytes := 64, maxPayloadReset := 64 } }

/-- Command word c in progress in s. -/
def inProgress (c : Word) (s : State) : State := s.issue c

/-- Inputs arriving in s. -/
def arriving (ins : List PortInput) (s : State) : State := { s with inputs := ins }

/-- The state a result goes on in. -/
def nextState : Result → Option State
  | .next t => some t
  | .fault _ => none
  | .refused _ => none

/-- STATUS, OLEN and the first n bytes of OBUF after the next step. -/
def outcome (n : Nat) (s : State) : Option (Word × Word × Option (List Byte)) :=
  (nextState (step s)).map fun t => (regRead .status t, t.olen, t.obuf.readRange 0 n)

/-- STATUS and the decoder's four result registers after FD_DECODE ibuf. -/
def decoded (s : State) : Option (Word × Word × Word × Word × Word) :=
  (nextState (step (inProgress 0x00000020 s))).map fun t =>
    (regRead .status t, regRead .fdHdr t, t.fd.plenLo, t.fd.plenHi, t.fd.maskkey)

/-- The response of the next step. -/
def responseOf (s : State) : Option Response := (nextState (step s)).bind State.response

theorem inputIs {src : Src} {s : State} {bs : List Byte} (h : inputOf src s = .bytes bs) :
    InputIs src s bs := (inputOf_eq_bytes src s bs).mp h

/-! ## WellFormed: the one check refuses FIN = 0 (R105) -/

theorem test_wellFormed_refuses_fin_clear : (Instr.feEncode .ibuf 0x1 false).wellFormed = false := by
  decide

theorem test_wellFormed_accepts_fin_set : (Instr.feEncode .obuf 0xF true).wellFormed = true := by
  decide

/-! ## Decoding: words written out from R101 and R102, fields RES, FIN, FOPC, RES, SRC, OP -/

theorem test_decode_nop :
    decode 0b000000000000000_0_0000_000_0_00000000#32 = .ok .nop := by decide

theorem test_decode_shaInit :
    decode 0b000000000000000_0_0000_000_0_00000001#32 = .ok .shaInit := by decide

theorem test_decode_shaBlock :
    decode 0b000000000000000_0_0000_000_0_00000010#32 = .ok .shaBlock := by decide

theorem test_decode_shaMsg :
    decode 0b000000000000000_0_0000_000_1_00000011#32 = .ok (.shaMsg .obuf) := by decide

theorem test_decode_b64Enc :
    decode 0b000000000000000_0_0000_000_0_00010000#32 = .ok (.b64Enc .ibuf) := by decide

theorem test_decode_fdDecode :
    decode 0b000000000000000_0_0000_000_1_00100000#32 = .ok (.fdDecode .obuf) := by decide

theorem test_decode_feEncode :
    decode 0b000000000000000_1_1000_000_1_00110000#32 = .ok (.feEncode .obuf 0x8 true) := by decide

/-- R107's kinds, with the words of SEQ-ILL1 to SEQ-ILL6. -/
theorem test_decode_illegal :
    decode 0x000000FF = .error .reservedOp ∧ decode 0x00000220 = .error .reservedBits ∧
      decode 0x00000030 = .error .finClear ∧ decode 0x00000101 = .error .unusedField ∧
      decode 0x00001003 = .error .unusedField ∧ decode 0x00020000 = .error .reservedBits := by
  decide

/-- A table word placed for the next step runs as that command. -/
theorem test_withFetchWord_runs :
    decodeTableWord 32 0x00012130 = some (.feEncode .obuf 0x2 true) ∧
      outcome 2 (State.reset.withFetchWord 32 0x00012130) =
        some (0x00000001, 2, some (bytes [0x82, 0x00])) := by
  decide +kernel

/-! ## Commands: one step each (95_test_vectors.md sections 2.2 to 2.6) -/

/-- SEQ-NOP2. -/
theorem test_nop : outcome 0 (inProgress 0x00000000
    { State.reset with status := { State.reset.status with overrun := true } }) =
    some (0x00000009, 0, some []) := by decide +kernel

/-- SEQ-ILL1 and SEQ-CODE-ORDER. -/
theorem test_illegal : outcome 0 (inProgress 0x000000FF State.reset) = some (0x00000503, 0, some []) ∧
    outcome 0 (inProgress 0x000002FF { State.reset with ilen := 131073 }) =
      some (0x00000503, 0, some []) := by decide +kernel

/-- SHA-INIT. -/
theorem test_shaInit :
    (nextState (step (inProgress 0x00000001 { State.reset with h := #v[0, 1, 2, 3, 4] }))).map State.h =
      some #v[0x67452301, 0xEFCDAB89, 0x98BADCFE, 0x10325476, 0xC3D2E1F0] := by decide +kernel

/-- SHA-Z. -/
theorem test_shaBlock_zero :
    (nextState (step (inProgress 0x00000002 State.reset))).map State.h =
      some #v[0x92B404E5, 0x56588CED, 0x6C1ACD4E, 0xBF053F68, 0x09F73A93] := by decide +kernel

/-- SHA-448's midpoint: the first block of a two-block message, streamed. -/
theorem test_shaBlock_streamed :
    (nextState (step (inProgress 0x00000002 { State.reset with
      w := #v[0x61626364, 0x62636465, 0x63646566, 0x64656667, 0x65666768, 0x66676869, 0x6768696A,
        0x68696A6B, 0x696A6B6C, 0x6A6B6C6D, 0x6B6C6D6E, 0x6C6D6E6F, 0x6D6E6F70, 0x6E6F7071,
        0x80000000, 0x00000000] }))).map State.h =
      some #v[0xF4286818, 0xC37B27AE, 0x0408F581, 0x84677148, 0x4A566572] := by decide +kernel

/-- The round trace of SHA-ABC after rounds 3, 40 and 79, and its schedule's last word. -/
theorem test_shaRounds_abc :
    let w := shaSchedule (lastBlock (ascii "abc"))
    (w.getD 79 0, (shaRounds w shaIv 4).a, (shaRounds w shaIv 41).a, shaRounds w shaIv 80) =
      (0x822E0879, 0xCDD8E11B, 0xFC87DEDF,
        { a := 0x42541B35, b := 0x5738D5E1, c := 0x21834873, d := 0x681E6DF6, e := 0xD8FDF6AD }) := by
  decide +kernel

/-- SHA-ABC. -/
theorem test_shaMsg_abc : outcome 20 (inProgress 0x00000003 (loaded (ascii "abc"))) =
    some (0x00000001, 20, some (bytes [0xa9, 0x99, 0x3e, 0x36, 0x47, 0x06, 0x81, 0x6a, 0xba, 0x3e,
      0x25, 0x71, 0x78, 0x50, 0xc2, 0x6c, 0x9c, 0xd0, 0xd8, 0x9d])) := by decide +kernel

/-- SHA-448, a message of two blocks: the digest and the last padded block. -/
theorem test_shaMsg_two_blocks :
    (nextState (step (inProgress 0x00000003 (loaded
      (ascii "abcdbcdecdefdefgefghfghighijhijkijkljklmklmnlmnomnopnopq"))))).map
        (fun t => (t.h, t.w)) =
      some (#v[0x84983E44, 0x1C3BD26E, 0xBAAE4AA1, 0xF95129E5, 0xE54670F1],
        #v[0, 0, 0, 0, 0, 0, 0, 0, 0, 0, 0, 0, 0, 0, 0, 0x000001C0]) := by decide +kernel

/-- B64-TOKEN, from OBUF as after the digest of the accept key (S6). -/
theorem test_b64Enc_token : outcome 28 (inProgress 0x00000110 (chained (bytes [0xb3, 0x7a, 0x4f, 0x2c,
      0xc0, 0x62, 0x4f, 0x16, 0x90, 0xf6, 0x46, 0x06, 0xcf, 0x38, 0x59, 0x45, 0xb2, 0xbe, 0xc4,
      0xea]))) =
    some (0x00000001, 28, some (ascii "s3pPLMBiTxaQ9kYGzzhZRbK+xOo=")) := by decide +kernel

/-- B64-1. -/
theorem test_b64Enc_one : outcome 4 (inProgress 0x00000010 (loaded (bytes [0x66]))) =
    some (0x00000001, 4, some (ascii "Zg==")) := by decide +kernel

/-- The frame of FD-HELLO. -/
def hello : List Byte := bytes [0x81, 0x85, 0x37, 0xfa, 0x21, 0x3d, 0x7f, 0x9f, 0x4d, 0x51, 0x58]

/-- FD-OBUF: FD-EXTRA decoded from OBUF in place. -/
theorem test_fdDecode_obuf :
    outcome 5 (inProgress 0x00000120 (chained (hello ++ bytes [0x81, 0x80]))) =
      some (0x00000001, 5, some (ascii "Hello")) := by decide +kernel

/-- FD-CLOSE. -/
theorem test_fdDecode_close :
    decoded (loaded (bytes [0x88, 0x82, 0x01, 0x02, 0x03, 0x04, 0x02, 0xea])) =
      some (0x00000001, 0x00768288, 2, 0, 0x01020304) := by decide +kernel

/-- FE-HELLO. -/
theorem test_feEncode_hello : outcome 7 (inProgress 0x00011030 (loaded (ascii "Hello"))) =
    some (0x00000001, 7, some (bytes [0x81, 0x05, 0x48, 0x65, 0x6c, 0x6c, 0x6f])) := by decide +kernel

/-- FE-126: the first two-byte length. -/
theorem test_feEncode_126 :
    outcome 4 (inProgress 0x00012030 (loaded (List.replicate 126 0))) =
      some (0x00000001, 130, some (bytes [0x82, 0x7e, 0x00, 0x7e])) := by decide +kernel

/-! ## The host port: one transaction each (95_test_vectors.md section 2.1) -/

/-- BUS-LANE: "abcd" written as one word, read back by halves. -/
theorem test_lanes :
    ((nextState (step (arriving [wr32 0x20000 0x64636261] .reset))).map fun t =>
      (t.ibuf.readRange 0 4, responseOf (arriving [.bus (.read 0x20002 .two)] t))) =
      some (some (ascii "abcd"), some (okayRead 0x00006463)) := by decide +kernel

/-- BUS-MAX: a write above OBUF_BYTES is clamped. -/
theorem test_maxPayload_clamped :
    (nextState (step (arriving [wrReg .maxPayload 0xFFFFFFFF] .reset))).map State.maxPayload =
      some 0x00020000 := by decide +kernel

/-- BUS-CTRL. -/
theorem test_ctrl_reserved_bits :
    (nextState (step (arriving [wrReg .ctrl 0xFFFFFFFF] .reset))).map (regRead .ctrl) =
      some 0x00000003 := by decide +kernel

/-- BUS-W1C: from 0x0000_050B, writing 2 leaves 0x0000_0509. -/
theorem test_status_w1c :
    (nextState (step (arriving [wrReg .status 0x2] { State.reset with
      status := { done := true, err := true, overrun := true, code := .illegalCmd } }))).map
        (regRead .status) = some 0x00000509 := by decide +kernel

/-- SEQ-OVR1: a write while busy is lost, and STATUS then reads 0x0000_000C. -/
theorem test_write_while_busy :
    (nextState (step (arriving [wrReg .ilen 5] (inProgress 0 .reset)))).map
      (fun t => (regRead .status t, t.ilen)) = some (0x0000000C, 0) := by decide +kernel

/-- SEQ-RESET. -/
theorem test_reset_while_busy :
    (nextState (step (arriving [.rst] (inProgress 0x00000003 (loaded (ascii "abc")))))).map
      (fun t => (regRead .status t, t.seq, t.ilen, t.ibuf)) = some (0, .idle, 0, []) := by
  decide +kernel

/-- SEQ-IRQ2: irq rises at the CTRL write, because DONE = 1. -/
theorem test_irq_rises_at_enable :
    (nextState (step (arriving [wrReg .ctrl 1] { State.reset with
      status := { State.reset.status with done := true } }))).map State.irq = some true := by
  decide +kernel

/-! ## Witnesses: for each statement with hypotheses, states and operands that meet them

Each theorem is named after its statement and lists the hypotheses of its clauses, at boundary values
where a clause has a range. -/

theorem next_of {r : Result} (h : (nextState r).isSome = true) : ∃ t, r = .next t := by
  cases r with
  | next t => exact ⟨t, rfl⟩
  | fault f => cases h
  | refused q => cases h

theorem next_with {r : Result} (p : State → Prop) [DecidablePred p]
    (h : ((nextState r).map fun t => decide (p t)) = some true) : ∃ t, r = .next t ∧ p t := by
  cases r with
  | next t => exact ⟨t, rfl, by simpa [nextState] using h⟩
  | fault f => cases h
  | refused q => cases h

/-- A run of n steps that goes on, with what its last state holds. -/
theorem run_with {n : Nat} {s : State} (p : State → Prop) [DecidablePred p]
    (h : ((nextState (Host.Core.run core n s)).map fun t => decide (p t)) = some true) :
    ∃ t : State, Host.Core.run core n s = .next t ∧ p t := next_with p h

theorem witness_DecodeInvertsEncode : (Instr.feEncode .obuf 0xF true).WellFormed := by decide

theorem witness_LegalWordsAreTheDecodedWords :
    decode 0x0001F130 = .ok (.feEncode .obuf 0xF true) ∧ LegalWord 0x0001F130 := by
  unfold LegalWord; decide

theorem witness_StepRunsDecodedCommand :
    (∃ s s₀, SequencerTurn s s₀ ∧ s.seq = .busy 0x00000103 ∧ s.inputs = []) ∧
    (∃ s s₀, SequencerTurn s s₀ ∧ s.seq = .busy 0x00000103 ∧ s.inputs = [.quiet, .rst]) ∧
    decode 0x00000103 = .ok (.shaMsg .obuf) ∧
    decodeTableWord 32 0x00000103 = some (.shaMsg .obuf) :=
  ⟨⟨inProgress 0x00000103 .reset, _, .inl ⟨rfl, rfl⟩, rfl, rfl⟩,
    ⟨arriving [.quiet, .rst] (inProgress 0x00000103 .reset), _, .inr ⟨_, rfl, rfl⟩, rfl, rfl⟩,
    by decide, by decide⟩

theorem witness_IdleSequencerChangesNothing :
    ∃ s s₀, SequencerTurn s s₀ ∧ s.seq = .idle ∧ s.inputs = [.quiet, .quiet] :=
  ⟨arriving [.quiet, .quiet] .reset, _, .inr ⟨_, rfl, rfl⟩, rfl, rfl⟩

/-- A state in which the next input is a host write of v to a register. -/
def writing (r : Reg) (v : Word) (s : State) : State := arriving [wrReg r v, .quiet] s

theorem witness_CmdWriteIssues :
    (∃ s : State, s.inputs = .bus (.write 0x00014 .four 0xFFFFFFFF) :: [.quiet] ∧ s.seq = .idle) ∧
    ∃ s : State, s.inputs = .bus (.write 0x00014 .four 0xFFFFFFFF) :: [.quiet] ∧
      s.seq = .busy 0x00000000 :=
  ⟨⟨writing .cmd 0xFFFFFFFF .reset, rfl, rfl⟩,
    ⟨writing .cmd 0xFFFFFFFF (inProgress 0 .reset), rfl, rfl⟩⟩

theorem witness_IllegalWordCompletes :
    ∃ s s₀, SequencerTurn s s₀ ∧ s.seq = .busy 0x000000FF ∧ ¬ LegalWord 0x000000FF ∧
      s.status.overrun = false :=
  ⟨inProgress 0x000000FF .reset, _, .inl ⟨rfl, rfl⟩, rfl, by unfold LegalWord; decide, rfl⟩

theorem witness_NopCompletes :
    ∃ c : Word, c.extractLsb 7 0 = 0x00#8 ∧ c ≠ 0 ∧ decode 0x00000000 = .ok .nop :=
  ⟨0x00000100, by decide, by decide, by decide⟩

theorem witness_InputSelection :
    InputIs .ibuf (small (List.replicate 64 0x5A)) (List.replicate 64 0x5A) ∧
    (small (List.replicate 64 0x5A)).ilen.toNat = (small (List.replicate 64 0x5A)).params.ibufBytes ∧
    InputIs .ibuf State.reset [] ∧ State.reset.ilen = 0 ∧
    InputIs .obuf (chained (ascii "abc")) (ascii "abc") ∧
    InputTooLong .ibuf { State.reset with ilen := 131073 } ∧
    InputTooLong .ibuf { small [] with ilen := 65 } ∧
    InputUnwritten .ibuf { State.reset with ilen := 1 } ∧
    InputUnwritten .obuf { State.reset with olen := 1 } ∧
    (∀ f, Instr.b64Enc .obuf ∈ sourceCommands .obuf f) ∧
    ∃ t, exec (.shaMsg .ibuf) { State.reset with ilen := 131073 } = .next t ∧
      t.status.code = .badLength :=
  ⟨inputIs (by decide +kernel), by decide, inputIs (by decide +kernel), by decide,
    inputIs (by decide +kernel), ⟨rfl, by decide⟩, ⟨rfl, by decide⟩, ⟨by decide, 0, by decide, rfl⟩,
    ⟨0, by decide, rfl⟩, by simp [sourceCommands],
    next_with (fun t => t.status.code = .badLength) (by decide +kernel)⟩

/-- FD-UNM-S as a performance that ends with a code other than OK. -/
def unmasked : List Byte := bytes [0x81, 0x05, 0x48, 0x65, 0x6c, 0x6c, 0x6f]

theorem witness_FailureWritesNoOutput :
    (∃ t, perform 0x00000020 (loaded unmasked) = .next t ∧ t.status.code ≠ .ok) ∧
    ∃ t, perform 0x00000010 { State.reset with ilen := 131073 } = .next t ∧ t.status.code ≠ .ok ∧
      ∀ src, decode 0x00000010 ≠ .ok (.fdDecode src) :=
  ⟨next_with (fun t => t.status.code ≠ .ok) (by decide +kernel),
    let ⟨t, h, hc⟩ := next_with (r := perform 0x00000010 { State.reset with ilen := 131073 })
      (fun t => t.status.code ≠ .ok) (by decide +kernel)
    ⟨t, h, hc, by intro src; cases src <;> decide⟩⟩

theorem witness_CompletionSetsErrForErrors :
    (∃ t, perform 0x00000020 (loaded unmasked) = .next t ∧ t.status.code = .protoUnmasked) ∧
    ∃ t, perform 0x00000020 State.reset = .next t ∧ t.status.code = .incomplete :=
  ⟨next_with (fun t => t.status.code = .protoUnmasked) (by decide +kernel),
    next_with (fun t => t.status.code = .incomplete) (by decide +kernel)⟩

/-- Each code of R250 is the end of some command; `small` buffers overflow at 49 and at 63 bytes. -/
theorem witness_ResultCodesByCommand :
    (∃ t, perform 0x00000101 State.reset = .next t ∧ t.status.code = .illegalCmd) ∧
    (∃ t, exec .nop State.reset = .next t ∧ t.status.code = .ok) ∧
    (∃ t, exec (.shaMsg .ibuf) { small [] with ilen := 65 } = .next t ∧
      t.status.code = .badLength) ∧
    (∃ t, exec (.b64Enc .ibuf) (small (List.replicate 49 0)) = .next t ∧
      t.status.code = .outOverflow) ∧
    (∃ t, exec (.fdDecode .ibuf) (loaded (bytes [0x83, 0x80])) = .next t ∧
      t.status.code = .protoOpcode) ∧
    ∃ t, exec (.feEncode .ibuf 0x2 true) (small (List.replicate 63 0)) = .next t ∧
      t.status.code = .outOverflow :=
  ⟨next_with (fun t => t.status.code = .illegalCmd) (by decide +kernel),
    next_with (fun t => t.status.code = .ok) (by decide +kernel),
    next_with (fun t => t.status.code = .badLength) (by decide +kernel),
    next_with (fun t => t.status.code = .outOverflow) (by decide +kernel),
    next_with (fun t => t.status.code = .protoOpcode) (by decide +kernel),
    next_with (fun t => t.status.code = .outOverflow) (by decide +kernel)⟩

/-- Transactions that arrive during a command: a read, a lost write, and a STATUS write. -/
def during : List Transaction :=
  [.read 0x00040 .four, .write 0x20000 .one 0xFF, .write 0x00010 .four 0x8]

theorem witness_BusyTransactionsDoNotReachCommand :
    ∃ s : State, s.seq = .busy 0x00000003 ∧ s.inputs = during.map .bus ++ .quiet :: [.rst] ∧
      ∃ u : State, Host.Core.run core (during.length + 1) s = .next u ∧ u.olen = 20 :=
  ⟨arriving (during.map .bus ++ .quiet :: [.rst]) (inProgress 0x00000003 (loaded (ascii "abc"))),
    rfl, rfl, run_with (fun u => u.olen = 20) (by decide +kernel)⟩

theorem witness_CommandCompletesAfterLastTransaction :
    ∃ s : State, s.seq = .busy 0x00000000 ∧ s.inputs = during.map .bus ∧
      ∃ u : State, Host.Core.run core during.length s = .next u ∧ u.seq = .busy 0x00000000 :=
  ⟨arriving (during.map .bus) (inProgress 0x00000000 .reset), rfl, rfl,
    run_with (fun u => u.seq = .busy 0x00000000) (by decide +kernel)⟩

theorem witness_OutcomeIsFunctionOfOperands :
    ∃ s s' t : State, s.params.legal = true ∧ s'.params = s.params ∧ s'.ctrl = s.ctrl ∧
      s'.ilen = s.ilen ∧ s'.olen = s.olen ∧ s'.maxPayload = s.maxPayload ∧ s'.h = s.h ∧ s'.w = s.w ∧
      (∀ src f bs, (∃ i ∈ sourceCommands src f, decode 0x00000010 = .ok i) → InputIs src s bs →
        InputIs src s' bs) ∧
      perform 0x00000010 s = .next t ∧ t.status.code = .ok ∧ s' ≠ s := by
  obtain ⟨t, ht, hc⟩ := next_with (r := perform 0x00000010 (loaded (ascii "fo")))
    (fun t => t.status.code = .ok) (by decide +kernel)
  refine ⟨loaded (ascii "fo"), { loaded (ascii "fo") with obuf := cellsFrom 0 (ascii "old") }, t,
    by decide, rfl, rfl, rfl, rfl, rfl, rfl, rfl, fun src f bs hi h => ?_, ht, hc, by decide +kernel⟩
  cases src with
  | ibuf => exact h
  | obuf =>
    obtain ⟨i, hi, hd⟩ := hi
    rw [show decode 0x00000010 = .ok (.b64Enc .ibuf) from by decide] at hd
    cases hd
    simp [sourceCommands] at hi

/-- The invariant of a state, from a computed check of its clauses. -/
theorem inv_of {s : State} (h : s.params.legal = true ∧ s.olen.toNat ≤ s.params.obufBytes ∧
    s.maxPayload.toNat ≤ s.params.obufBytes ∧
    (s.seq.isBusy = true → s.status.done = false ∧ s.status.err = false ∧ s.status.code = .ok) ∧
    s.fd = FdRegs.zero ∧ s.ibuf.wf = true ∧ s.ibuf.within s.params.ibufBytes = true ∧
    s.obuf.wf = true ∧ s.obuf.within s.params.obufBytes = true ∧
    ∀ o, o < s.olen.toNat → (s.obuf.get? o).isSome = true) : s.Inv := by
  obtain ⟨h1, h2, h3, h4, h5, h6, h7, h8, h9, h10⟩ := h
  refine ⟨h1, h2, h3, h4, ?_, h6, h7, h8, h9, h10⟩
  rw [h5]
  constructor <;> simp [FdRegs.zero]

theorem witness_ChainedCommandsComplete :
    (chained (ascii "abc")).Inv ∧ Instr.feEncode .obuf 0x1 true ∈ sourceCommands .obuf 0x1 :=
  ⟨inv_of (by decide +kernel), by simp [sourceCommands]⟩

theorem witness_BusErrorExactlyWhenNotAdmitted :
    (∃ s : State, s.inputs = .bus (.read 0x00010 .one) :: [.quiet] ∧
      NotAdmitted s.params 0x00010 .one) ∧
    (∃ s : State, s.inputs = .bus (.read 0x000CC .four) :: [.quiet] ∧
      ¬ NotAdmitted s.params 0x000CC .four ∧ ∃ t, step s = .next t) ∧
    (∃ s : State, s.inputs = .bus (.write 0x20001 .two 0x1234) :: [.quiet] ∧
      NotAdmitted s.params 0x20001 .two) ∧
    ∃ s : State, s.inputs = .bus (.write 0x20002 .two 0x1234) :: [.quiet] ∧
      ¬ NotAdmitted s.params 0x20002 .two :=
  ⟨⟨arriving [.bus (.read 0x00010 .one), .quiet] .reset, rfl, by unfold NotAdmitted; decide⟩,
    ⟨arriving [.bus (.read 0x000CC .four), .quiet] .reset, rfl, by unfold NotAdmitted; decide,
      next_of (by decide +kernel)⟩,
    ⟨arriving [.bus (.write 0x20001 .two 0x1234), .quiet] .reset, rfl,
      by unfold NotAdmitted; decide⟩,
    ⟨arriving [.bus (.write 0x20002 .two 0x1234), .quiet] .reset, rfl,
      by unfold NotAdmitted; decide⟩⟩

/-- The bounds of R74's clauses, for 64-byte buffers: on each side of every edge. -/
theorem witness_NotAdmitted_edges :
    (∀ x ∈ [((0x00002 : Addr), Size.four), (0x000CC, .two), (0x00024, .four), (0x00054, .four),
        (0x000D0, .four), (0x000FC, .four), (0x00100, .four), (0x1FFFC, .four), (0x20040, .one),
        (0x3FFFF, .one), (0x40040, .four), (0x5FFFC, .four), (0x60000, .one), (0x7FFFC, .four)],
      NotAdmitted (small []).params x.1 x.2) ∧
    ∀ x ∈ [((0x00000 : Addr), Size.four), (0x00020, .four), (0x00050, .four), (0x000BC, .four),
        (0x20000, .one), (0x2003F, .one), (0x2003C, .four), (0x40000, .four), (0x4003E, .two)],
      ¬ NotAdmitted (small []).params x.1 x.2 := by
  unfold NotAdmitted; decide +kernel

theorem witness_ReadsHaveNoSideEffect :
    ∃ s t u : State, s.inputs = .bus (.read 0x20000 .two) ::
        ([((0x00010 : Addr), Size.four)].map (fun x => .bus (.read x.1 x.2)) ++
          .bus (.read 0x20000 .two) :: [.quiet]) ∧
      step s = .next t ∧ Host.Core.run core 2 t = .next u ∧
      u.response = some (okayRead 0x00006261) := by
  obtain ⟨u, hu, hr⟩ := run_with (n := 3) (s := arriving [.bus (.read 0x20000 .two),
    .bus (.read 0x00010 .four), .bus (.read 0x20000 .two), .quiet] (loaded (ascii "abc")))
    (fun u => u.response = some (okayRead 0x00006261)) (by decide +kernel)
  obtain ⟨t, ht, hu'⟩ := run_succ_eq_next hu
  exact ⟨_, t, u, rfl, ht, hu', hr⟩

theorem witness_ConstantRegisters :
    (∃ s : State, s.inputs = .bus (.read 0x00008 .four) :: []) ∧
    ∃ s t : State, s.inputs = .bus (.write 0x00008 .four 0xFFFFFFFF) :: [.quiet] ∧ s.seq = .idle ∧
      step s = .next t :=
  ⟨⟨arriving [rd32 0x008] .reset, rfl⟩,
    let ⟨t, ht⟩ := next_of (r := step (writing .paramObuf 0xFFFFFFFF .reset)) (by decide +kernel)
    ⟨writing .paramObuf 0xFFFFFFFF .reset, t, rfl, rfl, ht⟩⟩

theorem witness_RegistersReadBack :
    (∃ s : State, s.inputs = .bus (.read 0x00018 .four) :: [] ∧ s.ilen = 0xFFFFFFFF) ∧
    (∃ (s : State) (a : Addr), s.inputs = .bus (.read a .four) :: [] ∧
      a.toNat = 0x40 + 4 * (4 : Fin 5).val) ∧
    ∃ (s : State) (a : Addr), s.inputs = .bus (.read a .four) :: [] ∧
      a.toNat = 0x80 + 4 * (15 : Fin 16).val :=
  ⟨⟨arriving [rd32 0x018] { State.reset with ilen := 0xFFFFFFFF }, rfl, rfl⟩,
    ⟨arriving [rd32 0x050] .reset, 0x050, rfl, rfl⟩,
    ⟨arriving [rd32 0x0BC] .reset, 0x0BC, rfl, rfl⟩⟩

theorem witness_StatusWordsLayout :
    ∃ s : State, s.inputs = .bus (.read 0x000C0 .four) :: [] ∧ s.fd.hdr.stage = 3 :=
  ⟨arriving [rd32 0x0C0] { State.reset with fd := { FdRegs.zero with
    hdr := { b0 := 0x88, b1 := 0x82, hlen := 6, close := true, stage := 3 } } }, rfl, rfl⟩

theorem witness_RegisterWriteEffects :
    (∃ s : State, s.inputs = .bus (.write 0x00010 .four 0x3) :: [.quiet] ∧ s.seq = .busy 0) ∧
    (∃ s : State, s.inputs = .bus (.write 0x00020 .four 0xFFFFFFFF) :: [.quiet] ∧ s.seq = .idle ∧
      s.params.obufBytes < 2 ^ 32) ∧
    (∃ (s : State) (a : Addr), s.inputs = .bus (.write a .four 0x1) :: [.quiet] ∧ s.seq = .idle ∧
      a.toNat = 0x40 + 4 * (4 : Fin 5).val) ∧
    (∃ (s : State) (a : Addr), s.inputs = .bus (.write a .four 0x1) :: [.quiet] ∧ s.seq = .idle ∧
      a.toNat = 0x80 + 4 * (15 : Fin 16).val) ∧
    ∃ (s : State) (a : Addr), s.inputs = .bus (.write a .four 0x1) :: [.quiet] ∧ s.seq = .idle ∧
      a.toNat ∈ [0x000, 0x004, 0x008, 0x01C, 0x0C0, 0x0C4, 0x0C8, 0x0CC] :=
  ⟨⟨writing .status 0x3 (inProgress 0 .reset), rfl, rfl⟩,
    ⟨writing .maxPayload 0xFFFFFFFF .reset, rfl, rfl, by decide⟩,
    ⟨writing (.h 4) 0x1 .reset, 0x050, rfl, rfl, rfl⟩,
    ⟨writing (.w 15) 0x1 .reset, 0x0BC, rfl, rfl, rfl⟩,
    ⟨writing .fdMaskkey 0x1 .reset, 0x0CC, rfl, rfl, by decide⟩⟩

theorem witness_WriteWhileBusyIsLost :
    (∃ s : State, s.seq = .busy 0x00000003 ∧
      s.inputs = .bus (.write 0x5FFFF .one 0x7) :: [] ∧ ¬ NotAdmitted s.params 0x5FFFF .one) ∧
    ∃ s : State, s.seq = .busy 0x00000003 ∧ s.inputs = .bus (.write 0x00010 .four 0x8) :: [.quiet] ∧
      ¬ NotAdmitted s.params 0x00010 .four ∧ s.Inv :=
  ⟨⟨arriving [.bus (.write 0x5FFFF .one 0x7)] (inProgress 0x00000003 .reset), rfl, rfl,
      by unfold NotAdmitted; decide⟩,
    ⟨writing .status 0x8 (inProgress 0x00000003 .reset), rfl, rfl, by unfold NotAdmitted; decide,
      inv_of (by decide +kernel)⟩⟩

theorem witness_BufferLanesLittleEndian :
    (∃ s : State, s.params.legal = true ∧ 0x3E % Size.two.bytes = 0 ∧
      s.inputs = .bus (.read 0x2003E .two) :: [] ∧
      (0x2003E : Addr).toNat = 0x20000 + 0x3E ∧ 0x3E + Size.two.bytes ≤ s.params.ibufBytes ∧
      ∀ i, i < Size.two.bytes → s.ibuf.get? (0x3E + i) = some 0x5A) ∧
    (∃ s : State, s.params.legal = true ∧ s.inputs = .bus (.read 0x40000 .four) :: [] ∧
      (0x40000 : Addr).toNat = 0x40000 + 0 ∧ 0 + Size.four.bytes ≤ s.params.obufBytes ∧
      ∀ i, i < Size.four.bytes → s.obuf.get? (0 + i) = some 0x5A) ∧
    (∃ s : State, s.params.legal = true ∧ s.seq = .idle ∧
      s.inputs = .bus (.write 0x2003C .four 0xDDCCBBAA) :: [] ∧
      (0x2003C : Addr).toNat = 0x20000 + 0x3C ∧ 0x3C + Size.four.bytes ≤ s.params.ibufBytes) ∧
    ∃ s : State, s.params.legal = true ∧ s.seq = .idle ∧
      s.inputs = .bus (.write 0x4003F .one 0xAA) :: [] ∧
      (0x4003F : Addr).toNat = 0x40000 + 0x3F ∧ 0x3F + Size.one.bytes ≤ s.params.obufBytes :=
  ⟨⟨arriving [.bus (.read 0x2003E .two)] (small (List.replicate 64 0x5A)), by decide, by decide, rfl,
      by decide, by decide, by decide +kernel⟩,
    ⟨arriving [.bus (.read 0x40000 .four)] (chained (List.replicate 4 0x5A)), by decide, rfl,
      by decide, by decide, by decide +kernel⟩,
    ⟨arriving [.bus (.write 0x2003C .four 0xDDCCBBAA)] (small []), by decide, rfl, rfl, by decide,
      by decide⟩,
    ⟨arriving [.bus (.write 0x4003F .one 0xAA)] (small []), by decide, rfl, rfl, by decide,
      by decide⟩⟩

theorem witness_BufferReadAfterWrite :
    ∃ s : State, s.seq = .idle ∧ 0x20000 ≤ (0x5FFFE : Addr).toNat ∧
      ¬ NotAdmitted s.params 0x5FFFE .two ∧
      s.inputs = .bus (.write 0x5FFFE .two 0x1234BBAA) :: .bus (.read 0x5FFFE .two) :: [] :=
  ⟨arriving [.bus (.write 0x5FFFE .two 0x1234BBAA), .bus (.read 0x5FFFE .two)] .reset, rfl,
    by decide, by unfold NotAdmitted; decide, rfl⟩

theorem witness_UnwrittenBytesFault :
    (∃ s : State, s.inputs = .bus (.read 0x20000 .four) :: [] ∧
      ¬ NotAdmitted s.params 0x20000 .four ∧ 3 < Size.four.bytes ∧
      s.ibuf.get? ((0x20000 : Addr).toNat - 0x20000 + 3) = none ∧ s.ibuf ≠ []) ∧
    (∃ s : State, s.inputs = .bus (.read 0x5FFFC .four) :: [] ∧
      ¬ NotAdmitted s.params 0x5FFFC .four ∧ 0 < Size.four.bytes ∧
      s.obuf.get? ((0x5FFFC : Addr).toNat - 0x40000 + 0) = none) ∧
    InputUnwritten .ibuf { loaded (ascii "abc") with ilen := 4 } ∧
    Instr.fdDecode .ibuf ∈ sourceCommands .ibuf 0 :=
  ⟨⟨arriving [.bus (.read 0x20000 .four)] (loaded (ascii "abc")), rfl,
      by unfold NotAdmitted; decide, by decide, by decide +kernel, by decide +kernel⟩,
    ⟨arriving [.bus (.read 0x5FFFC .four)] .reset, rfl, by unfold NotAdmitted; decide, by decide,
      rfl⟩,
    ⟨by decide, 3, by decide, by decide +kernel⟩, by simp [sourceCommands]⟩

theorem witness_OnlyUnwrittenBytesStop :
    step (arriving [rd32 0x20000] .reset) = .fault .readOfUnwrittenBufferByte ∧
    step (inProgress 0x00000003 { State.reset with ilen := 1 }) = .fault .commandInputUnwritten :=
  ⟨rfl, rfl⟩

theorem witness_ShaInitSetsInitialValue :
    ∃ (s : State) (c : Word), s.status.overrun = false ∧ c.extractLsb 7 0 = 0x01#8 ∧ c ≠ 1 :=
  ⟨.reset, 0x00000101, rfl, by decide, by decide⟩

theorem witness_ShaBlockCompressesIntoH : ∃ c : Word, c.extractLsb 7 0 = 0x02#8 ∧ c ≠ 2 :=
  ⟨0x80000002, by decide, by decide⟩

theorem witness_ShaMsgDigestsInput :
    InputIs .ibuf (loaded (ascii "abc")) (ascii "abc") ∧ InputIs .obuf State.reset [] ∧
      InputTooLong .ibuf { small [] with ilen := 65 } :=
  ⟨inputIs (by decide +kernel), inputIs (by decide +kernel), ⟨rfl, by decide⟩⟩

theorem witness_ShaMsgIsFunctionOfMessage :
    ∃ s s' t t' : State, InputIs .ibuf s (ascii "abc") ∧ InputIs .obuf s' (ascii "abc") ∧
      exec (.shaMsg .ibuf) s = .next t ∧ exec (.shaMsg .obuf) s' = .next t' ∧ s'.ibuf ≠ s.ibuf := by
  have hi : InputIs .ibuf (loaded (ascii "abc")) (ascii "abc") := inputIs (by decide +kernel)
  have ho : InputIs .obuf (chained (ascii "abc")) (ascii "abc") := inputIs (by decide +kernel)
  exact ⟨_, _, _, _, hi, ho, exec_shaMsg hi, exec_shaMsg ho, by decide +kernel⟩

theorem witness_StreamingEqualsShaMsg :
    ∃ s s' t' : State, s.seq = .idle ∧ s.inputs = streamInputs (ascii "abc") ++ [.rst] ∧
      InputIs .ibuf s' (ascii "abc") ∧ exec (.shaMsg .ibuf) s' = .next t' := by
  have hi : InputIs .ibuf (loaded (ascii "abc")) (ascii "abc") := inputIs (by decide +kernel)
  exact ⟨arriving (streamInputs (ascii "abc") ++ [.rst]) .reset, _, _, rfl, rfl, hi, exec_shaMsg hi⟩

/-- 48 bytes fill a 64-byte OBUF exactly, 49 overflow it. -/
theorem witness_Base64EncodesInput :
    (InputIs .ibuf (small (List.replicate 48 0)) (List.replicate 48 0) ∧
      (small (List.replicate 48 0)).params.legal = true ∧
      4 * ((48 + 2) / 3) ≤ (small (List.replicate 48 0)).params.obufBytes) ∧
    (InputIs .ibuf (small (List.replicate 49 0)) (List.replicate 49 0) ∧
      (small (List.replicate 49 0)).params.obufBytes < 4 * ((49 + 2) / 3)) ∧
    InputTooLong .ibuf { small [] with ilen := 65 } :=
  ⟨⟨inputIs (by decide +kernel), by decide, by decide⟩, ⟨inputIs (by decide +kernel), by decide⟩,
    ⟨rfl, by decide⟩⟩

theorem witness_DigestThenBase64 :
    ∃ s t : State, s.params.legal = true ∧ InputIs .ibuf s (ascii "abc") ∧
      exec (.shaMsg .ibuf) s = .next t := by
  have hi : InputIs .ibuf (loaded (ascii "abc")) (ascii "abc") := inputIs (by decide +kernel)
  exact ⟨_, _, by decide, hi, exec_shaMsg hi⟩

/-- The clauses of `FrameDecoderOutcomes` whose hypotheses hold for an input of at least two bytes, in
the statement's order: their conditions, as it writes them. -/
def clausesOf (s : State) (bs : List Byte) : List Nat :=
  let b0 := (bs.getD 0 0).toNat
  let b1 := (bs.getD 1 0).toNat
  let opc := b0 % 16
  let masked := 128 ≤ b1
  let l7 := b1 % 128
  let x := if l7 = 126 then 2 else if l7 = 127 then 8 else 0
  let hlen := 2 + x + if masked then 4 else 0
  let plen := if x = 0 then l7 else beValue ((bs.drop 2).take x)
  let reserved := (0x3 ≤ opc ∧ opc ≤ 0x7) ∨ 0xB ≤ opc
  let refused := ¬ masked ∧ s.ctrl.lenientUnmasked = false
  let max := s.maxPayload.toNat
  (if reserved then [1] else []) ++
    (if ¬ reserved ∧ refused then [2] else []) ++
    (if ¬ reserved ∧ ¬ refused ∧ bs.length < 2 + x then [3] else []) ++
    (if ¬ reserved ∧ ¬ refused ∧ 2 + x ≤ bs.length ∧ max < plen then [4] else []) ++
    (if ¬ reserved ∧ ¬ refused ∧ 2 + x ≤ bs.length ∧ plen ≤ max ∧ bs.length < hlen then [5]
      else []) ++
    (if ¬ reserved ∧ ¬ refused ∧ hlen ≤ bs.length ∧ plen ≤ max ∧ bs.length < hlen + plen then [6]
      else []) ++
    (if ¬ reserved ∧ ¬ refused ∧ hlen + plen ≤ bs.length ∧ plen ≤ max then [7] else [])

/-- FD-126's first bytes. -/
def fd126 : List Byte := bytes [0x82, 0xfe, 0x00, 0x7e, 0x11, 0x22, 0x33, 0x44]

/-- FD-TOOLONG, FD-MAX100, FD-MSB, FD-NM64 and FD-RSV. -/
def tooLong : List Byte := bytes [0x82, 0xff, 0, 0, 0, 0, 0, 1, 0, 1]
def max100 : List Byte := bytes [0x82, 0xfe, 0x00, 0xc8]
def msb : List Byte := bytes [0x82, 0xff, 0x80, 0, 0, 0, 0, 0, 0, 0]
def nm64 : List Byte :=
  bytes [0x81, 0xff, 0, 0, 0, 0, 0, 0, 0, 5, 0x37, 0xfa, 0x21, 0x3d] ++ hello.drop 6
def rsv : List Byte := bytes [0xf1, 0x82, 0, 0, 0, 0, 0x48, 0x69]

/-- `loaded`, with MAX_PAYLOAD = m. -/
def capped (m : Word) (bs : List Byte) : State := { loaded bs with maxPayload := m }

/-- `loaded`, in lenient mode. -/
def leniently (bs : List Byte) : State :=
  { loaded bs with ctrl := { irqEn := false, lenientUnmasked := true } }

/-- BAD_LENGTH, and inputs of fewer than two bytes: SEQ-BADLEN2 and FD-1. -/
theorem witness_FrameDecoderOutcomes_short :
    InputTooLong .ibuf { State.reset with ilen := 131073 } ∧
    InputIs .ibuf (loaded (bytes [0x0b])) (bytes [0x0b]) ∧
    decoded { State.reset with ilen := 131073 } = some (0x00000603, 0, 0, 0, 0) ∧
    decoded (loaded (bytes [0x0b])) = some (0x00000101, 0, 0, 0, 0) :=
  ⟨⟨rfl, by decide⟩, inputIs (by decide +kernel), by decide +kernel, by decide +kernel⟩

/-- Each other clause alone, with the registers of section 2.5: FD-RESB, FD-UNM-S, FD-126-3, FD-TOOLONG,
FD-MAX100, FD-126-4, FD-126-7, FD-126-8, FD-P10, FD-HELLO. -/
theorem witness_FrameDecoderOutcomes_clauses :
    (clausesOf (loaded (bytes [0x8b, 0x00])) (bytes [0x8b, 0x00]) = [1] ∧
      decoded (loaded (bytes [0x8b, 0x00])) = some (0x00000303, 0x0022008B, 0, 0, 0)) ∧
    (clausesOf (loaded unmasked) unmasked = [2] ∧
      decoded (loaded unmasked) = some (0x00000203, 0x00220581, 0, 0, 0)) ∧
    (clausesOf (loaded (fd126.take 3)) (fd126.take 3) = [3] ∧
      decoded (loaded (fd126.take 3)) = some (0x00000101, 0x0028FE82, 0, 0, 0)) ∧
    (clausesOf (loaded tooLong) tooLong = [4] ∧
      decoded (loaded tooLong) = some (0x00000403, 0x004EFF82, 0x00010001, 0, 0)) ∧
    (clausesOf (capped 100 max100) max100 = [4] ∧
      decoded (capped 100 max100) = some (0x00000403, 0x0048FE82, 0xC8, 0, 0)) ∧
    (clausesOf (loaded (fd126.take 4)) (fd126.take 4) = [5] ∧
      decoded (loaded (fd126.take 4)) = some (0x00000101, 0x0048FE82, 0x7E, 0, 0)) ∧
    (clausesOf (loaded (fd126.take 7)) (fd126.take 7) = [5] ∧
      decoded (loaded (fd126.take 7)) = some (0x00000101, 0x0048FE82, 0x7E, 0, 0)) ∧
    (clausesOf (capped 126 fd126) fd126 = [6] ∧
      decoded (capped 126 fd126) = some (0x00000101, 0x0068FE82, 0x7E, 0, 0x11223344)) ∧
    (clausesOf (loaded (hello.take 10)) (hello.take 10) = [6] ∧
      decoded (loaded (hello.take 10)) = some (0x00000101, 0x00668581, 5, 0, 0x37FA213D)) ∧
    (clausesOf (loaded hello) hello = [7] ∧
      decoded (loaded hello) = some (0x00000001, 0x00668581, 5, 0, 0x37FA213D)) := by
  and_intros <;> decide +kernel

/-- FD-MSB, FD-UNM-L, FD-NM64 and FD-RSV. -/
theorem witness_FrameDecoderOutcomes_accepted :
    (clausesOf (loaded msb) msb = [4] ∧
      decoded (loaded msb) = some (0x00000403, 0x004EFF82, 0, 0x80000000, 0)) ∧
    (clausesOf (leniently unmasked) unmasked = [7] ∧
      decoded (leniently unmasked) = some (0x00000001, 0x00620581, 5, 0, 0)) ∧
    (clausesOf (loaded nm64) nm64 = [7] ∧
      decoded (loaded nm64) = some (0x00000001, 0x006EFF81, 5, 0, 0x37FA213D)) ∧
    (clausesOf (loaded rsv) rsv = [7] ∧
      decoded (loaded rsv) = some (0x00000001, 0x006682F1, 2, 0, 0)) := by
  and_intros <;> decide +kernel

theorem witness_UnmaskIsItsOwnInverse : 6 + 5 ≤ hello.length := by decide

theorem witness_LenientModeOnlyForUnmasked :
    (InputIs .ibuf (loaded hello) hello ∧ hello[1]? = some 0x85 ∧ 128 ≤ (0x85 : Byte).toNat ∧
      ∃ t, exec (.fdDecode .ibuf) (loaded hello) = .next t) ∧
    (InputIs .ibuf (leniently unmasked) unmasked ∧ unmasked[1]? = some 0x05 ∧
      (0x05 : Byte).toNat < 128 ∧ ∃ t, exec (.fdDecode .ibuf) (leniently unmasked) = .next t ∧
      t.status.code = .ok) :=
  ⟨⟨inputIs (by decide +kernel), by decide, by decide, next_of (by decide +kernel)⟩,
    ⟨inputIs (by decide +kernel), by decide, by decide,
      next_with (fun t => t.status.code = .ok) (by decide +kernel)⟩⟩

/-- The prefix law's three clauses: FD-HELLO with and without FD-EXTRA's bytes, FD-RES3 with more bytes
behind it, and two proper prefixes of FD-HELLO. -/
theorem witness_DecoderPrefixLaw :
    ((∃ t, exec (.fdDecode .ibuf) (loaded hello) = .next t ∧ t.status.code = .ok) ∧
      InputIs .ibuf (loaded hello) hello ∧
      InputIs .obuf (chained (hello ++ bytes [0x81, 0x80])) (hello ++ bytes [0x81, 0x80]) ∧
      ∃ t', exec (.fdDecode .obuf) (chained (hello ++ bytes [0x81, 0x80])) = .next t') ∧
    (∃ t, exec (.fdDecode .ibuf) (loaded (bytes [0x83, 0x80])) = .next t ∧
      t.status.code ∈ [ResultCode.protoOpcode, .protoUnmasked, .protoTooLong]) ∧
    ∃ t', exec (.fdDecode .ibuf) (loaded (hello.take 10)) = .next t' ∧
      t'.status.code = .incomplete :=
  ⟨⟨next_with (fun t => t.status.code = .ok) (by decide +kernel), inputIs (by decide +kernel),
      inputIs (by decide +kernel), next_of (by decide +kernel)⟩,
    next_with (fun t => t.status.code ∈ [ResultCode.protoOpcode, .protoUnmasked, .protoTooLong])
      (by decide +kernel),
    next_with (fun t => t.status.code = .incomplete) (by decide +kernel)⟩

theorem witness_FrameExtent :
    InputIs .ibuf (loaded (hello ++ bytes [0x81, 0x80])) (hello ++ bytes [0x81, 0x80]) ∧
    (∃ t, exec (.fdDecode .ibuf) (loaded (hello ++ bytes [0x81, 0x80])) = .next t ∧
      t.status.code = .ok ∧ t.fd.hdr.hlen.toNat + t.fd.plenLo.toNat = 11) ∧
    InputIs .obuf (chained (hello ++ bytes [0xFF])) (hello ++ bytes [0xFF]) :=
  ⟨inputIs (by decide +kernel),
    next_with (fun t => t.status.code = .ok ∧ t.fd.hdr.hlen.toNat + t.fd.plenLo.toNat = 11)
      (by decide +kernel),
    inputIs (by decide +kernel)⟩

theorem witness_LengthMultiplexerShortest :
    (125 < 2 ^ 64 ∧ 125 ≤ 125) ∧ (126 < 2 ^ 64 ∧ 125 < 126 ∧ 126 ≤ 65535) ∧
      (65535 < 2 ^ 64 ∧ 125 < 65535 ∧ 65535 ≤ 65535) ∧ (65536 < 2 ^ 64 ∧ 65535 < 65536) := by
  decide

/-- 62 bytes fill a 64-byte OBUF exactly, 63 overflow it. -/
theorem witness_FrameEncoderOutcomes :
    (InputIs .ibuf (small (List.replicate 62 0)) (List.replicate 62 0) ∧
      (small (List.replicate 62 0)).params.legal = true ∧
      2 + 62 ≤ (small (List.replicate 62 0)).params.obufBytes) ∧
    (InputIs .ibuf (small (List.replicate 63 0)) (List.replicate 63 0) ∧
      (small (List.replicate 63 0)).params.obufBytes < 2 + 63) ∧
    InputTooLong .ibuf { small [] with ilen := 65 } :=
  ⟨⟨inputIs (by decide +kernel), by decide, by decide⟩, ⟨inputIs (by decide +kernel), by decide⟩,
    ⟨rfl, by decide⟩⟩

/-- RT-125's frame and key; the opcodes 0x2 and 0xA border the reserved ranges. -/
theorem witness_MaskedFrameRoundTrip :
    let p := List.replicate 125 (0x5A : Byte)
    let frame := maskedFrame 0x2 p 0x37FA213D
    (frame.take 6 = bytes [0x82, 0xfd, 0x37, 0xfa, 0x21, 0x3d] ∧ frame.length = 131) ∧
    InputIs .ibuf (loaded frame) frame ∧
    (¬ ((0x3 ≤ (0x2 : BitVec 4).toNat ∧ (0x2 : BitVec 4).toNat ≤ 0x7) ∨
      0xB ≤ (0x2 : BitVec 4).toNat)) ∧
    (¬ ((0x3 ≤ (0xA : BitVec 4).toNat ∧ (0xA : BitVec 4).toNat ≤ 0x7) ∨
      0xB ≤ (0xA : BitVec 4).toNat)) ∧
    p.length ≤ (loaded frame).maxPayload.toNat :=
  ⟨by decide +kernel, inputIs (by decide +kernel), by decide, by decide, by decide +kernel⟩

/-- Program P6: "Hello" encoded, in lenient and in strict mode, and its masked client frame FD-HELLO. -/
theorem witness_EncodeDecodeEncodeIdempotent :
    (InputIs .ibuf (leniently (ascii "Hello")) (ascii "Hello") ∧
      (leniently (ascii "Hello")).params.legal = true ∧
      (leniently (ascii "Hello")).ctrl.lenientUnmasked = true ∧
      (ascii "Hello").length ≤ (leniently (ascii "Hello")).maxPayload.toNat ∧
      ∃ t, exec (.feEncode .ibuf 0x1 true) (leniently (ascii "Hello")) = .next t ∧
        t.status.code = .ok) ∧
    (InputIs .ibuf (loaded (ascii "Hello")) (ascii "Hello") ∧
      (loaded (ascii "Hello")).ctrl.lenientUnmasked = false ∧
      (∃ t, exec (.feEncode .ibuf 0x1 true) (loaded (ascii "Hello")) = .next t ∧
        t.status.code = .ok) ∧
      (loaded hello).params = (loaded (ascii "Hello")).params ∧
      (ascii "Hello").length ≤ (loaded hello).maxPayload.toNat ∧
      maskedFrame 0x1 (ascii "Hello") 0x37FA213D = hello ∧ InputIs .ibuf (loaded hello) hello) :=
  ⟨⟨inputIs (by decide +kernel), by decide, by decide, by decide +kernel,
      next_with (fun t => t.status.code = .ok) (by decide +kernel)⟩,
    ⟨inputIs (by decide +kernel), by decide,
      next_with (fun t => t.status.code = .ok) (by decide +kernel), rfl, by decide +kernel,
      by decide +kernel, inputIs (by decide +kernel)⟩⟩

theorem witness_StepKeepsInvariant :
    ∃ s t, s.Inv ∧ step s = .next t ∧ s.seq = .busy 0x00000110 ∧ s.olen = 3 := by
  obtain ⟨t, ht⟩ := next_of (r := step (inProgress 0x00000110 (chained (ascii "abc"))))
    (by decide +kernel)
  exact ⟨_, t, inv_of (by decide +kernel), ht, rfl, by decide⟩

theorem witness_ErrRisesOnlyAtCompletion :
    ∃ s t, step s = .next t ∧ s.status.err = false ∧ t.status.err = true := by
  obtain ⟨t, ht, he⟩ := next_with (r := step (inProgress 0x000000FF .reset))
    (fun t => t.status.err = true) (by decide +kernel)
  exact ⟨_, t, ht, rfl, he⟩

theorem witness_ResetMeetsInvariant :
    Params.legal { ibufBytes := 64, obufBytes := 64, maxPayloadReset := 64 } = true := by decide

/-- `seq` changes at an issue, at a completion and at a reset. -/
theorem witness_SequencerChangesOnly :
    (∃ t, step (writing .cmd 0 .reset) = .next t ∧ t.seq ≠ .idle) ∧
    (∃ t, step (inProgress 0 .reset) = .next t ∧ t.seq ≠ .busy 0) ∧
    ∃ t, step (arriving [.rst] (inProgress 0 .reset)) = .next t ∧ t.seq ≠ .busy 0 :=
  ⟨next_with (fun t => t.seq ≠ .idle) (by decide +kernel),
    next_with (fun t => t.seq ≠ .busy 0) (by decide +kernel),
    next_with (fun t => t.seq ≠ .busy 0) (by decide +kernel)⟩

/-- `irq` low with IRQ_EN = 1 and a command in progress, and high with DONE = 1 (SEQ-IRQ to SEQ-IRQ3). -/
def irqState (done enable : Bool) (q : Seq) : State :=
  { State.reset with
    ctrl := { irqEn := enable, lenientUnmasked := false }
    status := { done := done, err := false, overrun := false, code := .ok }
    seq := q }

theorem witness_InterruptIsALevel :
    ((irqState false true (.busy 0)).irq = false ∧
      ∃ t, step (irqState false true (.busy 0)) = .next t ∧ t.irq = true) ∧
    ((irqState true false .idle).irq = false ∧
      ∃ t, step (writing .ctrl 1 (irqState true false .idle)) = .next t ∧ t.irq = true) ∧
    ((irqState true true .idle).irq = true ∧
      (∃ t, step (writing .status 1 (irqState true true .idle)) = .next t ∧ t.irq = false) ∧
      (∃ t, step (writing .cmd 0 (irqState true true .idle)) = .next t ∧ t.irq = false) ∧
      (∃ t, step (writing .ctrl 0 (irqState true true .idle)) = .next t ∧ t.irq = false) ∧
      ∃ t, step (arriving [.rst] (irqState true true .idle)) = .next t ∧ t.irq = false) :=
  ⟨⟨rfl, next_with (fun t => t.irq = true) (by decide +kernel)⟩,
    ⟨rfl, next_with (fun t => t.irq = true) (by decide +kernel)⟩,
    ⟨rfl, next_with (fun t => t.irq = false) (by decide +kernel),
      next_with (fun t => t.irq = false) (by decide +kernel),
      next_with (fun t => t.irq = false) (by decide +kernel),
      next_with (fun t => t.irq = false) (by decide +kernel)⟩⟩

theorem witness_OverrunIsSticky :
    (∃ s : State, s.seq = .busy 0 ∧ s.inputs = .bus (.write 0x00014 .four 0) :: [.quiet] ∧
      ¬ NotAdmitted s.params 0x00014 .four ∧ (0x00014 : Addr) ≠ 0x00010 ∧
      s.status.overrun = false ∧ ∃ t, step s = .next t ∧ t.status.overrun = true) ∧
    (∃ s : State, s.status.overrun = true ∧ ∃ t, step s = .next t ∧ t.status.overrun = false) ∧
    ∃ s : State, s.seq = .idle ∧ s.inputs = .bus (.write 0x00014 .four 0) :: [.quiet] ∧
      s.status.overrun = true :=
  ⟨⟨writing .cmd 0 (inProgress 0 .reset), rfl, rfl, by unfold NotAdmitted; decide, by decide, rfl,
      next_with (fun t => t.status.overrun = true) (by decide +kernel)⟩,
    ⟨writing .status 0x8 { State.reset with status := { State.reset.status with overrun := true } },
      rfl, next_with (fun t => t.status.overrun = false) (by decide +kernel)⟩,
    ⟨writing .cmd 0 { State.reset with status := { State.reset.status with overrun := true } },
      rfl, rfl, rfl⟩⟩

theorem witness_OnlyHostWritesConfigure :
    ∃ s t, step s = .next t ∧ (∀ a n v rest, s.inputs ≠ .bus (.write a n v) :: rest) ∧
      (∀ rest, s.inputs ≠ .rst :: rest) ∧ s.ilen = 3 := by
  obtain ⟨t, ht⟩ := next_of (r := step (inProgress 0x00000003 (loaded (ascii "abc"))))
    (by decide +kernel)
  exact ⟨_, t, ht, by simp [inProgress, loaded, State.issue, State.reset, State.resetWith],
    by simp [inProgress, loaded, State.issue, State.reset, State.resetWith], by decide⟩

theorem witness_ResetSetsEveryRegister :
    ∃ s : State, s.inputs = .rst :: [.rst] ∧ s.seq = .busy 0x00000003 ∧ s.ibuf ≠ [] :=
  ⟨arriving [.rst, .rst] (inProgress 0x00000003 (loaded (ascii "abc"))), rfl, rfl, by decide +kernel⟩

/-- The first and the last word the recurrence gives. -/
theorem witness_ScheduleRecurrence : (16 ≤ 16 ∧ 16 < 80) ∧ 16 ≤ 79 ∧ 79 < 80 := by decide

/-- Both ends of the four ranges of rounds. -/
theorem witness_CompressIsEightyRounds :
    (0 < 20 ∧ 19 < 20) ∧ (20 ≤ 20 ∧ 39 < 40) ∧ (40 ≤ 40 ∧ 59 < 60) ∧ 60 ≤ 60 ∧ 60 ≤ 79 ∧ 79 < 80 := by
  decide

/-- A message whose padding has zero bytes. -/
theorem witness_PaddingIsLeast : 0 < padZeros ([] : List Byte).length := by decide

/-- Both ends of the alphabet's ranges. -/
theorem witness_Base64Alphabet :
    (0#6).toNat ≤ 25 ∧ (25#6).toNat ≤ 25 ∧ (26 ≤ (26#6).toNat ∧ (51#6).toNat ≤ 51) ∧
      (52 ≤ (52#6).toNat ∧ (61#6).toNat ≤ 61) ∧ (62#6).toNat = 62 ∧ (63#6).toNat = 63 := by decide

/-- A first part of a multiple of 3 bytes, and a position of the output. -/
theorem witness_Base64Laws :
    (ascii "foo").length % 3 = 0 ∧ 7 < (base64 (ascii "foob")).length := by decide +kernel

end Sys2Proof.Tests.Slice0
end

/-! PROOFS. The statements of 10_state.md: the constant registers (R21 to R23) and the sequencer's state
(R37), from what one write and one step do to the parameters and to `seq`. -/

namespace Sys2Proof.Machine

/-! ## What a performed write does to the parameters and to `seq` -/

@[simp] theorem targetWrite_params (tgt : Target) (n : Size) (v : Word) (s : State) :
    (targetWrite tgt n v s).params = s.params := by
  cases tgt with
  | reg r => cases r <;> rfl
  | ibuf _ => rfl
  | obuf _ => rfl

/-- Only a performed write to CMD moves the sequencer (R37, R78). -/
theorem targetWrite_seq (tgt : Target) (n : Size) (v : Word) (s : State) :
    (targetWrite tgt n v s).seq = if tgt = .reg .cmd then .busy v else s.seq := by
  cases tgt with
  | reg r => cases r <;> simp [targetWrite, regWrite]
  | ibuf _ => simp [targetWrite]
  | obuf _ => simp [targetWrite]

/-- A write that reaches CMD is a 4-byte write at 0x014 (R43, R75). -/
theorem locate_eq_cmd {p : Params} {a : Addr} {n : Size}
    (h : locate p a.toNat n = some (.reg .cmd)) : a = 0x00014 ∧ n = .four := by
  obtain ⟨ha, hn⟩ := locate_eq_reg h
  exact ⟨BitVec.eq_of_toNat_eq (by simpa [Reg.offset] using ha), hn⟩

/-! ## What a step does to the parameters and to `seq` -/

theorem SequencerTurn.params_eq {s s₀ : State} (h : SequencerTurn s s₀) : s₀.params = s.params := by
  rw [h.eq]

/-- No step changes the parameters (00_scope.md R6). -/
theorem step_params {s t : State} (h : step s = .next t) : t.params = s.params := by
  rcases step_eq_next h with ⟨hturn, -⟩ | ⟨s₀, c, hturn, -, hperf⟩ | ⟨_, _, _, _, -, rfl⟩ |
    ⟨_, _, _, _, -, -, rfl⟩ | ⟨_, _, _, _, _, -, -, -, -, rfl⟩ |
    ⟨_, _, _, _, _, -, -, -, rfl⟩ | ⟨_, -, rfl⟩
  · exact hturn.params_eq
  · obtain ⟨k, o, fd, rfl, -⟩ := perform_eq_next hperf
    simpa using hturn.params_eq
  all_goals simp [answered]

/-- A step leaves `seq`, issues the word of a CMD write while IDLE, completes the command in progress, or
resets (R37). -/
theorem step_seq_cases {s t : State} (h : step s = .next t) :
    t.seq = s.seq ∨
    (s.seq = .idle ∧ ∃ c rest, s.inputs = .bus (.write 0x00014 .four c) :: rest ∧ t.seq = .busy c) ∨
    (∃ s₀ c, SequencerTurn s s₀ ∧ s.seq = .busy c ∧ t.seq = .idle ∧ t.status.done = true) ∨
    ∃ rest, s.inputs = .rst :: rest ∧ t.seq = .idle := by
  rcases step_eq_next h with ⟨hturn, -⟩ | ⟨s₀, c, hturn, hbusy, hperf⟩ | ⟨_, _, _, _, -, rfl⟩ |
    ⟨_, _, _, _, -, -, rfl⟩ | ⟨_, _, _, _, _, -, -, -, -, rfl⟩ |
    ⟨a, n, v, rest, tgt, hin, hloc, hseq, rfl⟩ | ⟨rest, hin, rfl⟩
  · exact .inl hturn.seq_eq
  · obtain ⟨k, o, fd, rfl, -⟩ := perform_eq_next hperf
    exact .inr (.inr (.inl ⟨s₀, c, hturn, hbusy, by simp, by simp⟩))
  · exact .inl rfl
  · exact .inl rfl
  · exact .inl rfl
  · by_cases hcmd : tgt = .reg .cmd
    · subst hcmd
      obtain ⟨rfl, rfl⟩ := locate_eq_cmd hloc
      exact .inr (.inl ⟨hseq.resolve_right (by decide), v, rest, hin, by simp [targetWrite_seq]⟩)
    · exact .inl (by simp [targetWrite_seq, hcmd])
  · exact .inr (.inr (.inr ⟨rest, hin, rfl⟩))

/-! ## STATUS.BUSY -/

/-- STATUS.BUSY is bit 2 of STATUS (R25). -/
theorem Status.toWord_busy (st : Status) (busy : Bool) : (st.toWord busy).getLsbD 2 = busy := by
  simp only [Status.toWord, BitVec.getLsbD_append]
  simp

/-! ## The statements -/

/-- Settles O53: a step's cases for `seq`, and STATUS bit 2 as the sequencer's BUSY. -/
theorem sequencerChangesOnly : Obligations.SequencerChangesOnly := by
  refine ⟨fun s t h hne => (step_seq_cases h).resolve_left hne, fun s => ?_, rfl⟩
  rw [regRead, Status.toWord_busy, Seq.isBusy_eq_true]

/-- Settles O19: a read or a write of each of the three registers as a step, and the parameters' frame. -/
theorem constantRegisters : Obligations.ConstantRegisters := by
  refine ⟨fun s a rest hin => ⟨?_, ?_, ?_⟩, fun s a v rest hin hidle ha => ?_,
    fun s t => step_params, rfl, rfl⟩
  · rintro rfl; exact step_read_reg .id hin rfl
  · rintro rfl; exact step_read_reg .paramIbuf hin rfl
  · rintro rfl; exact step_read_reg .paramObuf hin rfl
  · rcases ha with rfl | rfl | rfl
    · exact step_write_reg .id hin rfl (.inl hidle)
    · exact step_write_reg .paramIbuf hin rfl (.inl hidle)
    · exact step_write_reg .paramObuf hin rfl (.inl hidle)

end Sys2Proof.Machine

/-! PROOFS. The statements of 20_memory.md: admission and responses (R74), reads without side effect
(R77), register writes (R78), lost writes (R79) and the lanes of the buffers (R76), from one rule
for each kind of host transaction. -/

namespace Sys2Proof.Machine

/-! ## Writes as steps -/

/-- A write that is not admitted changes nothing but the response (R74). -/
theorem step_write_notAdmitted {s : State} {a : Addr} {n : Size} {v : Word} {rest : List PortInput}
    (hin : s.inputs = .bus (.write a n v) :: rest) (hadm : NotAdmitted s.params a n) :
    step s = .next (answered s rest busErrorWrite) := by
  simp [step_bus hin, hostTransaction, hostWrite, (locate_eq_none _ _ _).mpr hadm, State.respond,
    answered]

/-- A write that reaches a target completes with OKAY (R72). -/
theorem step_write_located {s : State} {a : Addr} {n : Size} {v : Word} {rest : List PortInput}
    {tgt : Target} (hin : s.inputs = .bus (.write a n v) :: rest)
    (hloc : locate s.params a.toNat n = some tgt) :
    step s = .next ((admittedWrite tgt n v { s with inputs := rest }).respond okayWrite) := by
  simp [step_bus hin, hostTransaction, hostWrite, hloc]

/-- While IDLE a write that reaches a target is performed (R72). -/
theorem step_write_idle {s : State} {a : Addr} {n : Size} {v : Word} {rest : List PortInput}
    {tgt : Target} (hin : s.inputs = .bus (.write a n v) :: rest) (hidle : s.seq = .idle)
    (hloc : locate s.params a.toNat n = some tgt) :
    step s = .next ((targetWrite tgt n v { s with inputs := rest }).respond okayWrite) := by
  rw [step_write_located hin hloc, admittedWrite_idle (s := { s with inputs := rest }) hidle]

/-- What an admitted transaction reaches. -/
theorem exists_located {p : Params} {a : Addr} {n : Size} (hadm : ¬ NotAdmitted p a n) :
    ∃ tgt, locate p a.toNat n = some tgt :=
  Option.ne_none_iff_exists'.mp (mt (locate_eq_none p a n).mp hadm)

/-! ## Reads of a buffer -/

theorem bufRead_of_readRange {m : Memory} {o : Nat} {n : Size} {bs : List Byte}
    (h : m.readRange o n.bytes = some bs) (s : State) :
    bufRead m o n s = .next (s.respond (okayRead (BitVec.ofNat 32 (leValue bs)))) := by
  simp [bufRead, h]

theorem bufRead_of_unwritten {m : Memory} {o : Nat} {n : Size} (h : m.readRange o n.bytes = none)
    (s : State) : bufRead m o n s = .fault .readOfUnwrittenBufferByte := by
  simp [bufRead, h]

/-- A buffer read answers OKAY, whatever the state it answers in, or it faults (R76, R86). -/
theorem bufRead_cases (m : Memory) (o : Nat) (n : Size) :
    (∃ x, ∀ s, bufRead m o n s = .next (s.respond (okayRead x))) ∨
    ∀ s, bufRead m o n s = .fault .readOfUnwrittenBufferByte := by
  cases h : m.readRange o n.bytes with
  | some bs => exact .inl ⟨_, bufRead_of_readRange h⟩
  | none => exact .inr (bufRead_of_unwritten h)

/-! ## Reads as steps -/

/-- A read that is not admitted returns 0 and changes nothing but the response (R74). -/
theorem step_read_notAdmitted {s : State} {a : Addr} {n : Size} {rest : List PortInput}
    (hin : s.inputs = .bus (.read a n) :: rest) (hadm : NotAdmitted s.params a n) :
    step s = .next (answered s rest busErrorRead) := by
  simp [step_bus hin, hostTransaction, hostRead, (locate_eq_none _ _ _).mpr hadm, State.respond,
    answered]

theorem step_read_ibuf {s : State} {a : Addr} {n : Size} {rest : List PortInput} {o : Nat}
    (hin : s.inputs = .bus (.read a n) :: rest)
    (hloc : locate s.params a.toNat n = some (.ibuf o)) :
    step s = bufRead s.ibuf o n { s with inputs := rest } := by
  simp [step_bus hin, hostTransaction, hostRead, hloc]

theorem step_read_obuf {s : State} {a : Addr} {n : Size} {rest : List PortInput} {o : Nat}
    (hin : s.inputs = .bus (.read a n) :: rest)
    (hloc : locate s.params a.toNat n = some (.obuf o)) :
    step s = bufRead s.obuf o n { s with inputs := rest } := by
  simp [step_bus hin, hostTransaction, hostRead, hloc]

/-- The value of a register does not depend on what is outside the block. -/
theorem regRead_outside (r : Reg) (s : State) (ins : List PortInput) (q : Option Response) :
    regRead r { s with inputs := ins, response := q } = regRead r s := by
  cases r <;> rfl

/-- A read that reaches a target answers OKAY with a value that does not depend on what is outside
the block, or it faults (R72, R86). -/
theorem hostRead_located {s : State} {a : Addr} {n : Size} {tgt : Target}
    (hloc : locate s.params a.toNat n = some tgt) :
    (∃ x, ∀ ins q, hostRead a n { s with inputs := ins, response := q } =
      .next (answered s ins (okayRead x))) ∨
    ∀ ins q, hostRead a n { s with inputs := ins, response := q } =
      .fault .readOfUnwrittenBufferByte := by
  cases tgt with
  | reg r =>
    refine .inl ⟨regRead r s, fun ins q => ?_⟩
    simp [hostRead, hloc, regRead_outside, State.respond, answered]
  | ibuf o =>
    rcases bufRead_cases s.ibuf o n with ⟨x, hx⟩ | hf
    · exact .inl ⟨x, fun ins q => by simp [hostRead, hloc, hx, State.respond, answered]⟩
    · exact .inr fun ins q => by simp [hostRead, hloc, hf]
  | obuf o =>
    rcases bufRead_cases s.obuf o n with ⟨x, hx⟩ | hf
    · exact .inl ⟨x, fun ins q => by simp [hostRead, hloc, hx, State.respond, answered]⟩
    · exact .inr fun ins q => by simp [hostRead, hloc, hf]

/-- An admitted read that does not fault answers OKAY (R74). -/
theorem step_read_admitted {s t : State} {a : Addr} {n : Size} {rest : List PortInput}
    (hin : s.inputs = .bus (.read a n) :: rest) (hadm : ¬ NotAdmitted s.params a n)
    (h : step s = .next t) : ∃ x, t = answered s rest (okayRead x) := by
  obtain ⟨tgt, hloc⟩ := exists_located hadm
  rw [step_bus hin] at h
  rcases hostRead_located hloc with ⟨x, hx⟩ | hf
  · exact ⟨x, (Host.Outcome.next.inj ((hx rest s.response).symm.trans h)).symm⟩
  · cases (hf rest s.response).symm.trans h

/-- A read changes the response alone (R77). -/
theorem step_read {s t : State} {a : Addr} {n : Size} {rest : List PortInput}
    (hin : s.inputs = .bus (.read a n) :: rest) (h : step s = .next t) :
    ∃ r, t = answered s rest r := by
  rw [step_bus hin] at h
  exact hostRead_next h

/-- A read answers the same in a state that differs only in what is outside the block (R77). -/
theorem step_read_again {s : State} {a : Addr} {n : Size} {rest : List PortInput} {r : Response}
    (hin : s.inputs = .bus (.read a n) :: rest) (h : step s = .next (answered s rest r))
    (rest' : List PortInput) (q : Option Response) :
    step { s with inputs := .bus (.read a n) :: rest', response := q } =
      .next (answered s rest' r) := by
  by_cases hadm : NotAdmitted s.params a n
  · rw [step_read_notAdmitted hin hadm] at h
    have hr : busErrorRead = r := by simpa [answered] using h
    exact hr ▸ step_read_notAdmitted rfl hadm
  · obtain ⟨tgt, hloc⟩ := exists_located hadm
    rw [step_bus hin] at h
    rcases hostRead_located hloc with ⟨x, hx⟩ | hf
    · have hr : okayRead x = r := by simpa [answered] using (hx rest s.response).symm.trans h
      rw [← hr, step_bus (rest := rest') rfl]
      exact hx rest' q
    · cases (hf rest s.response).symm.trans h

/-- A run of reads changes the response alone (R77). -/
theorem run_reads {s u : State} {rest : List PortInput} (reads : List (Addr × Size))
    (hin : s.inputs = reads.map (fun x => .bus (.read x.1 x.2)) ++ rest)
    (h : Host.Core.run core reads.length s = .next u) :
    ∃ q, u = { s with inputs := rest, response := q } := by
  induction reads generalizing s with
  | nil =>
    have hu : s = u := Host.Outcome.next.inj h
    exact ⟨s.response, by rw [← hu, ← show s.inputs = rest from hin]⟩
  | cons x reads ih =>
    obtain ⟨t, hstep, hrun⟩ := run_succ_eq_next h
    obtain ⟨r, rfl⟩ := step_read hin hstep
    exact ih (s := answered s _ r) rfl hrun

/-! ## The lanes of a buffer access (R76) -/

theorem Size.bytes_le (n : Size) : n.bytes ≤ 4 := by cases n <;> decide

theorem leValue_map_range (b : Nat → Byte) (n : Nat) :
    leValue ((List.range n).map b) = ∑ i ∈ Finset.range n, (b i).toNat * 2 ^ (8 * i) := by
  induction n generalizing b with
  | zero => rfl
  | succ n ih =>
    rw [List.range_succ_eq_map, List.map_cons, List.map_map, leValue, ih, Finset.sum_range_succ',
      Finset.mul_sum, Nat.add_comm]
    congr 1
    · refine Finset.sum_congr rfl fun i _ => ?_
      rw [show 8 * (i + 1) = 8 * i + 8 by omega, Nat.pow_add, Function.comp_apply]
      ring
    · simp

/-- A buffer read of bytes that hold values returns their little-endian sum. -/
theorem bufRead_of_bytes {m : Memory} {o : Nat} {n : Size} {b : Nat → Byte}
    (h : ∀ i, i < n.bytes → m.get? (o + i) = some (b i)) :
    ∃ x : Word, (∀ s, bufRead m o n s = .next (s.respond (okayRead x))) ∧
      x.toNat = ∑ i ∈ Finset.range n.bytes, (b i).toNat * 2 ^ (8 * i) := by
  have hread : m.readRange o n.bytes = some ((List.range n.bytes).map b) := by
    rw [Memory.readRange_eq_some]
    exact ⟨by simp, fun i hi => by simpa using h i (by simpa using hi)⟩
  have hlt : leValue ((List.range n.bytes).map b) < 2 ^ 32 := by
    refine (leValue_lt _).trans_le (Nat.pow_le_pow_right (by decide) ?_)
    have := n.bytes_le
    simp only [List.length_map, List.length_range]
    omega
  refine ⟨_, bufRead_of_readRange hread, ?_⟩
  rw [BitVec.toNat_ofNat, Nat.mod_eq_of_lt hlt, leValue_map_range]

/-- A buffer write puts lane i of its data into byte o + i and leaves every other byte. -/
theorem get?_writeRange_bytesLE (m : Memory) (o : Nat) (v : Word) (k x : Nat) :
    (m.writeRange o (bytesLE v.toNat k)).get? x =
      if o ≤ x ∧ x < o + k then some (v.extractLsb' (8 * (x - o)) 8) else m.get? x := by
  rw [Memory.get?_writeRange, bytesLE_length]
  split
  · have hx : x - o < (bytesLE v.toNat k).length := by rw [bytesLE_length]; omega
    rw [List.getElem?_eq_getElem hx, bytesLE_getElem]
    rfl
  · rfl

/-! ## A STATUS write while a command is in progress -/

/-- With DONE and ERR clear, write-1-to-clear can only clear OVERRUN (R25, R79). -/
theorem Status.writeOneToClear_of_clear {st : Status} (hdone : st.done = false)
    (herr : st.err = false) (v : Word) :
    st.writeOneToClear v = { st with overrun := st.overrun && !v.getLsbD 3 } := by
  simp [Status.writeOneToClear, hdone, herr]

/-! ## The statements -/

/-- Settles O17: the four cases, a read or a write, admitted or not. -/
theorem busErrorExactlyWhenNotAdmitted : Obligations.BusErrorExactlyWhenNotAdmitted := by
  intro s a n rest
  refine ⟨fun hin => ⟨step_read_notAdmitted hin, fun hadm t h => ?_⟩,
    fun v hin => ⟨step_write_notAdmitted hin, fun hadm => ?_⟩⟩
  · obtain ⟨x, rfl⟩ := step_read_admitted hin hadm h
    exact ⟨x, rfl⟩
  · obtain ⟨tgt, hloc⟩ := exists_located hadm
    exact ⟨_, step_write_located hin hloc, rfl⟩

/-- Settles O18: the reads between change the response alone, and a read does not depend on it. -/
theorem readsHaveNoSideEffect : Obligations.ReadsHaveNoSideEffect := by
  refine ⟨fun s t a n rest => step_read, fun s t u a n between rest hin hstep hrun => ?_⟩
  obtain ⟨r, rfl⟩ := step_read hin hstep
  obtain ⟨t', hbetween, hlast⟩ := run_split hrun
  obtain ⟨q, rfl⟩ := run_reads between rfl hbetween
  obtain ⟨u', hagain, hu⟩ := run_succ_eq_next hlast
  cases hu
  cases (step_read_again hin hstep rest q).symm.trans hagain
  rfl

/-- Settles O23: the target decides between the lost write and the STATUS write. -/
theorem writeWhileBusyIsLost : Obligations.WriteWhileBusyIsLost := by
  intro s c a n v rest hbusy hin hadm
  obtain ⟨tgt, hloc⟩ := exists_located hadm
  refine ⟨fun ha => ?_, fun ha hinv => ?_⟩
  · rw [step_write_located hin hloc,
      admittedWrite_busy (s := { s with inputs := rest }) hbusy (mt (locate_eq_status hloc).mp ha)]
    rfl
  · obtain ⟨hdone, herr, -⟩ := hinv.busy_clear ((Seq.isBusy_eq_true _).mpr ⟨c, hbusy⟩)
    rw [step_write_located hin hloc, (locate_eq_status hloc).mpr ha,
      ← Status.writeOneToClear_of_clear hdone herr]
    simp [admittedWrite, targetWrite, regWrite, State.respond, answered]

/-- Settles O24: the read's sum and the written lanes, once for each buffer. -/
theorem bufferLanesLittleEndian : Obligations.BufferLanesLittleEndian := by
  intro s a o n rest hlegal haligned
  obtain ⟨⟨-, hibuf⟩, ⟨-, hobuf⟩, -⟩ := legal_bounds hlegal
  refine ⟨fun hin b => ⟨fun ha hfit hb => ?_, fun ha hfit hb => ?_⟩,
    fun v hin hidle => ⟨fun ha hfit => ?_, fun ha hfit => ?_⟩⟩
  · obtain ⟨x, hread, hsum⟩ := bufRead_of_bytes hb
    exact ⟨x, (step_read_ibuf hin (locate_ibuf ha haligned hfit hibuf)).trans (hread _), hsum⟩
  · obtain ⟨x, hread, hsum⟩ := bufRead_of_bytes hb
    exact ⟨x, (step_read_obuf hin (locate_obuf ha haligned hfit hobuf)).trans (hread _), hsum⟩
  · exact ⟨_, step_write_idle hin hidle (locate_ibuf ha haligned hfit hibuf),
      get?_writeRange_bytesLE _ _ _ _⟩
  · exact ⟨_, step_write_idle hin hidle (locate_obuf ha haligned hfit hobuf),
      get?_writeRange_bytesLE _ _ _ _⟩

/-- Settles O22: each register's write as a step. -/
theorem registerWriteEffects : Obligations.RegisterWriteEffects := by
  intro s a v rest hin
  refine ⟨?_, fun hidle => ⟨?_, ?_, fun i ha => step_write_reg (.h i) hin ha (.inl hidle),
    fun k ha => step_write_reg (.w k) hin ha (.inl hidle), ?_, ?_, fun ha => ?_⟩⟩
  · rintro rfl; exact step_write_reg .status hin rfl (.inr rfl)
  · rintro rfl; exact step_write_reg .ctrl hin rfl (.inl hidle)
  · rintro rfl; exact step_write_reg .ilen hin rfl (.inl hidle)
  · rintro rfl
    refine ⟨_, step_write_reg .maxPayload hin rfl (.inl hidle), fun hp => ?_⟩
    exact Nat.mod_eq_of_lt (by omega)
  · rintro rfl; exact step_write_reg .cmd hin rfl (.inl hidle)
  · simp only [List.mem_cons, List.not_mem_nil, or_false] at ha
    rcases ha with ha | ha | ha | ha | ha | ha | ha | ha
    · exact step_write_reg .id hin ha (.inl hidle)
    · exact step_write_reg .paramIbuf hin ha (.inl hidle)
    · exact step_write_reg .paramObuf hin ha (.inl hidle)
    · exact step_write_reg .olen hin ha (.inl hidle)
    · exact step_write_reg .fdHdr hin ha (.inl hidle)
    · exact step_write_reg .fdPlenLo hin ha (.inl hidle)
    · exact step_write_reg .fdPlenHi hin ha (.inl hidle)
    · exact step_write_reg .fdMaskkey hin ha (.inl hidle)

end Sys2Proof.Machine

/-! PROOFS. The statements of 40_command_common.md: issue (R130), the input of a command (R132),
failing commands (R135), NOP (R136), illegal words (R137), and that an outcome is a function of the
operands (R139), from the decoder's inverse and from one lemma on what a command commits. -/

namespace Sys2Proof

/-! ## What the decoder accepts -/

/-- A word that decodes is the word of a well-formed command, the one it decodes to (R106). -/
theorem encode_of_decode {c : Word} {i : Instr} (h : decode c = .ok i) :
    i.WellFormed ∧ encode i = c := by
  unfold decode at h
  split_ifs at h with hreserved _ _ _ _ _ _ _ _ _ hfin
  all_goals
    obtain ⟨hhigh, hlow⟩ := not_or.mp hreserved
    cases h
    refine ⟨rfl, .trans ?_ (eq_layout (not_not.mp hhigh) (not_not.mp hlow)).symm⟩
  on_goal 7 => have hone := (bit_cases (finField c)).resolve_left hfin
  all_goals simp_all [encode]

namespace Machine

/-- The encoder writes a legal word for every well-formed command (R105, R108). -/
theorem legalWord_encode {i : Instr} (h : i.WellFormed) : LegalWord (encode i) := by
  cases i with
  | nop => exact Laws.WellFormedLegal.nop.mp h
  | shaInit => exact Laws.WellFormedLegal.shaInit.mp h
  | shaBlock => exact Laws.WellFormedLegal.shaBlock.mp h
  | shaMsg src => exact (Laws.WellFormedLegal.shaMsg src).mp h
  | b64Enc src => exact (Laws.WellFormedLegal.b64Enc src).mp h
  | fdDecode src => exact (Laws.WellFormedLegal.fdDecode src).mp h
  | feEncode src fopc fin => exact (Laws.WellFormedLegal.feEncode src fopc fin).mp h

/-- A word that decodes is legal (R106). -/
theorem legalWord_of_decode {c : Word} {i : Instr} (h : decode c = .ok i) : LegalWord c := by
  obtain ⟨hwf, rfl⟩ := encode_of_decode h
  exact legalWord_encode hwf

/-- The one legal word with OP = 0x00 is 0 (R136). -/
theorem LegalWord.eq_zero {c : Word} (h : LegalWord c) (hop : opField c = 0x00) : c = 0 := by
  obtain ⟨hhigh, hlow, hcmd⟩ := (legalWord_iff c).mp h
  obtain ⟨hsrc, hfopc, hfin⟩ : srcField c = 0 ∧ fopcField c = 0 ∧ finField c = 0 := by
    simpa [hop] using hcmd
  rw [eq_layout hhigh hlow, hop, hsrc, hfopc, hfin]
  rfl

/-- An illegal word ends with ILLEGAL_CMD (R137). -/
theorem perform_of_illegal {c : Word} (h : ¬ LegalWord c) (s : State) :
    perform c s = .next (s.commit .illegalCmd {} none) := by
  cases hdec : decode c with
  | ok i => exact absurd (legalWord_of_decode hdec) h
  | error e => exact perform_of_error hdec s

/-- On its turn the sequencer performs the command in progress (R131). -/
theorem step_perform {s s₀ : State} {c : Word} (hturn : SequencerTurn s s₀)
    (hbusy : s.seq = .busy c) :
    step s = perform c s₀ :=
  (step_of_turn hturn).trans (sequencerStep_busy (hturn.seq_eq.trans hbusy))

/-- STATUS after a commit: the code, OVERRUN as it was, BUSY clear, ERR by the code, and DONE (R25,
R134). -/
theorem regRead_status_commit (k : ResultCode) (o : Outputs) (fd : Option FdRegs) (s : State) :
    regRead .status (s.commit k o fd) =
      (0#16 ++ k.value ++ 0#4 ++ BitVec.ofBool s.status.overrun ++ 0#1 ++ BitVec.ofBool k.isError ++
        1#1 : BitVec 32) := by
  rw [regRead, State.commit_status, State.commit_seq]
  rfl

/-! ## What a command commits -/

/-- The two states agree on the parameters and on every register a command reads (R139). -/
structure SameOperands (s s' : State) : Prop where
  params : s'.params = s.params
  ctrl : s'.ctrl = s.ctrl
  ilen : s'.ilen = s.ilen
  olen : s'.olen = s.olen
  maxPayload : s'.maxPayload = s.maxPayload
  h : s'.h = s.h
  w : s'.w = s.w

/-- From each of the two states the command makes the given commit, and that commit writes all the
outputs the command has: output bytes where it reads a source and ends with OK, and the decoder's
result registers where it is FD_DECODE (R134). -/
structure CommitsFromBoth (i : Instr) (s s' : State) (k : ResultCode) (o : Outputs)
    (fd : Option FdRegs) : Prop where
  left : exec i s = .next (s.commit k o fd)
  right : exec i s' = .next (s'.commit k o fd)
  bytes : ∀ src f, i ∈ sourceCommands src f → k = .ok → ∃ out, o.bytes = some out
  regs : ∀ src, i = .fdDecode src → ∃ r, fd = some r

section commits
variable {src : Src} {fopc : BitVec 4} {i : Instr} {s s' t : State} {bs : List Byte}

theorem SameOperands.refl (s : State) : SameOperands s s := by constructor <;> rfl

theorem SameOperands.tooLong (hs : SameOperands s s') (h : InputTooLong src s) :
    InputTooLong src s' := by
  simpa only [InputTooLong, hs.params, hs.ilen] using h

/-- With ILEN out of range a command that reads a source ends with BAD_LENGTH (R132), the same from
states with the same operands. -/
theorem commitsFromBoth_of_tooLong (hs : SameOperands s s') (hi : i ∈ sourceCommands src fopc)
    (h : InputTooLong src s) : ∃ fd, CommitsFromBoth i s s' .badLength {} fd := by
  have h' := hs.tooLong h
  simp only [sourceCommands, List.mem_cons, List.not_mem_nil, or_false] at hi
  rcases hi with rfl | rfl | rfl | rfl
  · exact ⟨_, withInput_of_tooLong h, withInput_of_tooLong h', by simp, by simp⟩
  · exact ⟨_, withInput_of_tooLong h, withInput_of_tooLong h', by simp, by simp⟩
  · exact ⟨_, exec_fdDecode_tooLong h, exec_fdDecode_tooLong h', by simp, by simp⟩
  · exact ⟨_, withInput_of_tooLong h, withInput_of_tooLong h', by simp, by simp⟩

/-- Over an input of bytes a command that reads a source completes with a code other than BAD_LENGTH
(R132), the same from states with the same operands and the same input. -/
theorem commitsFromBoth_of_inputIs (hs : SameOperands s s') (hi : i ∈ sourceCommands src fopc)
    (h : InputIs src s bs) (h' : InputIs src s' bs) :
    ∃ k o fd, CommitsFromBoth i s s' k o fd ∧ k ≠ .badLength := by
  simp only [sourceCommands, List.mem_cons, List.not_mem_nil, or_false] at hi
  rcases hi with rfl | rfl | rfl | rfl
  · exact ⟨_, _, _, ⟨exec_shaMsg h, exec_shaMsg h', by simp [shaMsgOutputs], by simp⟩, by simp⟩
  · by_cases hfit : base64Length bs.length ≤ s.params.obufBytes
    · exact ⟨_, _, _, ⟨exec_b64Enc_fits h hfit, exec_b64Enc_fits h' (hs.params ▸ hfit), by simp,
        by simp⟩, by simp⟩
    · have hover := Nat.not_le.mp hfit
      exact ⟨_, _, _, ⟨exec_b64Enc_overflow h hover, exec_b64Enc_overflow h' (hs.params ▸ hover),
        by simp, by simp⟩, by simp⟩
  · refine ⟨_, _, _, ⟨exec_fdDecode h, by rw [exec_fdDecode h', hs.ctrl, hs.maxPayload], by simp,
      by simp⟩, fun hbad => ?_⟩
    have hcode := fdDecode_code s.ctrl.lenientUnmasked s.maxPayload.toNat bs
    simp [hbad] at hcode
  · by_cases hfit : encHeaderLength bs.length + bs.length ≤ s.params.obufBytes
    · exact ⟨_, _, _, ⟨exec_feEncode_fits h hfit, exec_feEncode_fits h' (hs.params ▸ hfit), by simp,
        by simp⟩, by simp⟩
    · have hover := Nat.not_le.mp hfit
      exact ⟨_, _, _, ⟨exec_feEncode_overflow h hover,
        exec_feEncode_overflow h' (hs.params ▸ hover), by simp, by simp⟩, by simp⟩

/-- A command that goes on commits the same from states with the same operands and the same input
(R139). -/
theorem commitsFromBoth_of_next (hs : SameOperands s s')
    (hin : ∀ src f bs, i ∈ sourceCommands src f → InputIs src s bs → InputIs src s' bs)
    (hex : exec i s = .next t) : ∃ k o fd, CommitsFromBoth i s s' k o fd := by
  rcases instr_cases i with rfl | rfl | rfl | ⟨src, f, hi⟩ | ⟨src, f, rfl⟩
  · exact ⟨_, _, _, exec_nop s, exec_nop s', by simp [sourceCommands], by simp⟩
  · exact ⟨_, _, _, exec_shaInit s, exec_shaInit s', by simp [sourceCommands], by simp⟩
  · exact ⟨_, _, _, exec_shaBlock s, by rw [exec_shaBlock, hs.h, hs.w], by simp [sourceCommands],
      by simp⟩
  · rcases input_cases src s with h | h | ⟨bs, h⟩
    · exact ⟨_, _, commitsFromBoth_of_tooLong hs hi h⟩
    · rw [exec_unwritten h hi] at hex
      cases hex
    · obtain ⟨k, o, fd, hboth, -⟩ := commitsFromBoth_of_inputIs hs hi h (hin src f bs hi h)
      exact ⟨k, o, fd, hboth⟩
  · exact ⟨_, _, _, exec_feEncode_finClear, exec_feEncode_finClear, by simp [sourceCommands],
      by simp⟩

/-- One commit from two states with the same operands leaves the same result code, H0 to H4, W0 to
W15 and OLEN (R134). -/
theorem SameOperands.commit (hs : SameOperands s s') (k : ResultCode) (o : Outputs)
    (fd : Option FdRegs) :
    (s'.commit k o fd).status.code = (s.commit k o fd).status.code ∧
      (s'.commit k o fd).h = (s.commit k o fd).h ∧ (s'.commit k o fd).w = (s.commit k o fd).w ∧
      (s'.commit k o fd).olen = (s.commit k o fd).olen := by
  simp [hs.h, hs.w, hs.olen]

/-- The bytes `OBUF[0..OLEN)` after a commit of output bytes are those bytes, whatever stood
there (R36). -/
theorem commit_obuf_get? {o : Outputs} {out : List Byte} (ho : o.bytes = some out)
    (fd : Option FdRegs) {x : Nat} (hx : x < (s.commit .ok o fd).olen.toNat) :
    (s.commit .ok o fd).obuf.get? x = out[x]? := by
  have hlt : x < out.length := by
    simp only [State.commit_olen, if_true, State.writeOutputs_olen, ho, Option.map_some,
      Option.getD_some, BitVec.toNat_ofNat] at hx
    exact hx.trans_le (Nat.mod_le _ _)
  simp [ho, Memory.get?_writeRange_zero, hlt]

end commits

/-! ## The statements -/

/-- Settles O6: a write to CMD as a step, performed while IDLE and lost while BUSY. -/
theorem cmdWriteIssues : Obligations.CmdWriteIssues := by
  intro s c rest hin
  refine ⟨fun hidle => ⟨_, step_write_reg .cmd hin rfl (.inl hidle), rfl, ?_, rfl⟩,
    fun c' hbusy => ⟨_, step_write_located hin (locate_reg _ .cmd), ?_⟩⟩
  · exact Status.toWord_busy _ _
  · rw [admittedWrite_busy (s := { s with inputs := rest }) hbusy (by decide)]
    exact hbusy

/-- Settles O7: an illegal word does not decode, so its performance is the commit of ILLEGAL_CMD. -/
theorem illegalWordCompletes : Obligations.IllegalWordCompletes := by
  refine ⟨fun s s₀ c hturn hbusy hillegal => ?_, ?_⟩
  · have hover : s₀.status.overrun = s.status.overrun := by rw [hturn.eq]
    refine ⟨_, (step_perform hturn hbusy).trans (perform_of_illegal hillegal s₀), ?_, rfl,
      fun h => ?_⟩
    · rw [← hover]; rfl
    · rw [regRead_status_commit, hover, h]
      decide
  · refine ⟨?_, ?_, ?_, ?_, ?_⟩ <;> (unfold LegalWord; decide)

/-- Settles O8: NOP is a commit of OK with no output, and its word is 0. -/
theorem nopCompletes : Obligations.NopCompletes := by
  refine ⟨fun s => ⟨_, exec_nop s, rfl, ?_⟩, fun c => ⟨fun h => ?_, ?_⟩,
    fun c hop hne hlegal => hne (hlegal.eq_zero hop)⟩
  · rw [regRead_status_commit]
    cases s.status.overrun <;> decide
  · exact (encode_of_decode h).2.symm
  · rintro rfl; rfl

/-- Settles O9: the three cases of an input, and what a command with a source answers in each. -/
theorem inputSelection : Obligations.InputSelection := by
  refine ⟨input_cases, fun src s bs h => ⟨h.not_tooLong, h.not_unwritten, fun bs' => h.unique, ?_⟩,
    fun s hlen h => ?_, fun src s f i hi => ⟨fun h => ?_, fun t hex hbad => ?_,
    fun h => exec_unwritten h hi, fun bs h => ?_⟩⟩
  · rintro rfl hzero
    obtain ⟨-, hlen, -⟩ := h
    exact List.length_eq_zero_iff.mp (by simpa [hzero] using hlen)
  · exact absurd h.2 (by omega)
  · obtain ⟨fd, hex, -⟩ := exec_tooLong h hi
    exact ⟨_, hex, by simp⟩
  · rcases input_cases src s with h | h | ⟨bs, h⟩
    · exact ⟨h.1, h⟩
    · rw [exec_unwritten h hi] at hex
      cases hex
    · obtain ⟨k, o, fd, hboth, hk⟩ := commitsFromBoth_of_inputIs (.refl s) hi h h
      cases hboth.left.symm.trans hex
      exact absurd (by simpa using hbad) hk
  · obtain ⟨k, o, fd, hboth, -⟩ := commitsFromBoth_of_inputIs (.refl s) hi h h
    exact ⟨_, hboth.left⟩

/-- Settles O10: a performance that goes on is a commit, and one that is not OK writes no output. -/
theorem failureWritesNoOutput : Obligations.FailureWritesNoOutput := by
  intro c s t hperf hcode
  obtain ⟨k, o, fd, rfl, hfd⟩ := perform_eq_next hperf
  obtain ⟨hh, hw, hout⟩ := commit_no_output (by simpa using hcode) o fd s
  refine ⟨commit_frame k o fd s, hh, hw, hout, by simp, fun hno => ?_⟩
  have hnone : fd = none := by
    by_contra hsome
    obtain ⟨src, hdec⟩ := hfd hsome
    exact hno src hdec
  simp [hnone]

/-- Settles O15: from both states the word makes the same commit. -/
theorem outcomeIsFunctionOfOperands : Obligations.OutcomeIsFunctionOfOperands := by
  intro c s s' t _ hparams hctrl hilen holen hmax hh hw hin hperf
  have hs : SameOperands s s' := ⟨hparams, hctrl, hilen, holen, hmax, hh, hw⟩
  cases hdec : decode c with
  | error e =>
    cases (perform_of_error hdec s).symm.trans hperf
    obtain ⟨hcode, hh', hw', holen'⟩ := hs.commit .illegalCmd {} none
    exact ⟨_, perform_of_error hdec s', hcode, hh', hw', holen', by simp, by simp⟩
  | ok i =>
    rw [perform_of_decode hdec] at hperf
    obtain ⟨k, o, fd, hboth⟩ := commitsFromBoth_of_next hs
      (fun src f bs hi => hin src f bs ⟨i, hi, hdec⟩) hperf
    cases hboth.left.symm.trans hperf
    obtain ⟨hcode, hh', hw', holen'⟩ := hs.commit k o fd
    refine ⟨_, (perform_of_decode hdec s').trans hboth.right, hcode, hh', hw', holen', ?_, ?_⟩
    · rintro ⟨src, hi⟩
      cases hi
      obtain ⟨r, rfl⟩ := hboth.regs src rfl
      simp
    · rintro ⟨src, f, j, hj, hi⟩ hok x hx
      cases hi
      obtain rfl : k = .ok := by simpa using hok
      obtain ⟨out, hout⟩ := hboth.bytes src f hj rfl
      rw [commit_obuf_get? hout fd hx, commit_obuf_get? hout fd (holen' ▸ hx)]

end Machine
end Sys2Proof

/-! PROOFS. The statement of 41_sha1.md: the message schedule (R152) is the block extended by 64 words. -/

namespace Sys2Proof.Machine

/-! ## The schedule of a block -/

theorem shaSchedule_length (b : Block) : (shaSchedule b).length = 80 := by
  simp [shaSchedule, extendSchedule_length]

/-- The first 16 words of the schedule are the block (R152). -/
theorem shaSchedule_getD_block (b : Block) (j : Fin 16) : (shaSchedule b).getD j.val 0 = b[j] := by
  have hj : j.val < b.toList.length := by simp
  rw [shaSchedule, extendSchedule_getD _ _ _ hj, List.getD_eq_getElem _ _ hj, Vector.getElem_toList]
  rfl

/-- From word 16 on the schedule is the recurrence, its rotation the library's (R152, R10). -/
theorem shaSchedule_getD_rec (b : Block) (j : Nat) (h : 16 ≤ j) (hj : j < 80) :
    (shaSchedule b).getD j 0 =
      ((shaSchedule b).getD (j - 3) 0 ^^^ (shaSchedule b).getD (j - 8) 0 ^^^
        (shaSchedule b).getD (j - 14) 0 ^^^ (shaSchedule b).getD (j - 16) 0).rotateLeft 1 := by
  have hlen : b.toList.length = 16 := b.length_toList
  rw [← rotl32_eq _ 1 (by decide)]
  exact extendSchedule_rec 64 b.toList j (by omega) (by omega) (by omega)

/-! ## The statements -/

/-- Settles O30: the schedule's length, its first 16 words and its recurrence. -/
theorem scheduleRecurrence : Obligations.ScheduleRecurrence :=
  fun b => ⟨shaSchedule_length b, shaSchedule_getD_block b, shaSchedule_getD_rec b⟩

end Sys2Proof.Machine

/-! PROOFS. The statement of 44_frame_encoder.md: the first two bytes of an encoded frame (R230). -/

namespace Sys2Proof.Machine

/-! ## Byte 0 of an encoded frame, bit by bit -/

/-- Bit 7 is set, and every other bit is the opcode's, which has bits 3:0 only (R230). -/
theorem getLsbD_frameByte0 (opc : BitVec 4) (i : Nat) :
    (frameByte0 opc).getLsbD i = (decide (i = 7) || opc.getLsbD i) := by
  have hfin : (0x80 : Byte) = BitVec.twoPow 8 7 := by decide
  have hwide : (decide (i < 8) && opc.getLsbD i) = opc.getLsbD i := by
    simpa using fun h => (BitVec.lt_of_getLsbD (x := opc) h).trans (by decide : 4 < 8)
  rw [frameByte0, hfin, BitVec.getLsbD_or, BitVec.getLsbD_twoPow, BitVec.getLsbD_setWidth, hwide]
  simp [@eq_comm _ 7 i]

/-- A 4-bit opcode widened to a byte is not changed by the mask `0x0F` of R230. -/
theorem zeroExtend_and_lowNibble (opc : BitVec 4) :
    opc.zeroExtend 8 &&& 0x0F = opc.zeroExtend 8 := by
  have hmask : (0x0F : Byte) = (BitVec.allOnes 4).setWidth 8 := by decide
  rw [hmask, ← BitVec.setWidth_and, BitVec.and_allOnes]

theorem frameByte0_eq (opc : BitVec 4) :
    frameByte0 opc = 0x80 ||| (opc.zeroExtend 8 &&& 0x0F) := by
  rw [zeroExtend_and_lowNibble, frameByte0]

theorem frameByte0_fin (opc : BitVec 4) : (frameByte0 opc).getLsbD 7 = true := by
  simp [getLsbD_frameByte0]

theorem frameByte0_rsv (opc : BitVec 4) : (frameByte0 opc).extractLsb 6 4 = 0 := by
  refine BitVec.eq_of_getLsbD_eq fun i (hi : i < 3) => ?_
  simp [getLsbD_frameByte0, show 4 + i ≠ 7 by omega]

theorem frameByte0_opcode (opc : BitVec 4) : (frameByte0 opc).extractLsb 3 0 = opc := by
  refine BitVec.eq_of_getLsbD_eq fun i (hi : i < 4) => ?_
  simp [getLsbD_frameByte0, show i ≠ 7 by omega, Nat.le_of_lt_succ hi]

/-! ## The statement -/

/-- Settles O45: byte 0 by its bits, and byte 1 the first of the length field, below 128; nothing
stands between the length field and the payload. -/
theorem encodedHeaderBits : Obligations.EncodedHeaderBits := by
  intro opc p
  obtain ⟨b1, ext, hlen, hb1, -⟩ := lenhdr_eq p.length
  have hmask : maskBit b1 = false := by simpa [maskBit_eq] using hb1
  refine ⟨frameByte0 opc, b1, ext ++ p, ?_, frameByte0_eq opc, frameByte0_fin opc,
    frameByte0_rsv opc, frameByte0_opcode opc, hmask, ?_⟩
  · simp [feFrame, hlen]
  · simp [hlen]
    omega

end Sys2Proof.Machine

/-! PROOFS. The statements of 60_exceptions.md: completion and ERR (R134, R251), OVERRUN (R258), and the
two faults of R86 as all that stops the machine (R259). -/

namespace Sys2Proof.Machine

/-! ## OVERRUN -/

/-- A performed write changes OVERRUN only where it is a STATUS write with bit 3 set (R25, R78). -/
theorem targetWrite_overrun (tgt : Target) (n : Size) (v : Word) (s : State) :
    (targetWrite tgt n v s).status.overrun =
      if tgt = .reg .status then s.status.overrun && !v.getLsbD 3 else s.status.overrun := by
  cases tgt with
  | reg r => cases r <;> simp [targetWrite, regWrite, State.issue]
  | ibuf _ => simp [targetWrite]
  | obuf _ => simp [targetWrite]

/-- A step keeps OVERRUN, loses a write, writes STATUS, or resets (R258). -/
theorem step_overrun_cases {s t : State} (h : step s = .next t) :
    t.status.overrun = s.status.overrun ∨
    (t.status.overrun = true ∧ ∃ c a n v rest, s.seq = .busy c ∧
      s.inputs = .bus (.write a n v) :: rest ∧ ¬ NotAdmitted s.params a n ∧ a ≠ 0x00010) ∨
    (∃ v rest, s.inputs = .bus (.write 0x00010 .four v) :: rest ∧
      t.status.overrun = (s.status.overrun && !v.getLsbD 3)) ∨
    (t.status.overrun = false ∧ ∃ rest, s.inputs = .rst :: rest) := by
  rcases step_eq_next h with ⟨hturn, -⟩ | ⟨s₀, c, hturn, -, hperf⟩ | ⟨_, _, _, _, -, rfl⟩ |
    ⟨_, _, _, _, -, -, rfl⟩ | ⟨a, n, v, rest, c, hin, hadm, ha, hbusy, rfl⟩ |
    ⟨a, n, v, rest, tgt, hin, hloc, -, rfl⟩ | ⟨rest, hin, rfl⟩
  · exact .inl (by rw [hturn.eq])
  · obtain ⟨k, o, fd, rfl, -⟩ := perform_eq_next hperf
    exact .inl ((commit_frame k o fd s₀).overrun.trans (by rw [hturn.eq]))
  · exact .inl rfl
  · exact .inl rfl
  · exact .inr (.inl ⟨rfl, c, a, n, v, rest, hbusy, hin, hadm, ha⟩)
  · by_cases hstatus : tgt = .reg .status
    · obtain rfl := (locate_eq_status hloc).mp hstatus
      subst hstatus
      obtain ⟨-, rfl⟩ := locate_eq_reg hloc
      exact .inr (.inr (.inl ⟨v, rest, hin, by simp [targetWrite_overrun]⟩))
    · exact .inl (by simp [targetWrite_overrun, hstatus])
  · exact .inr (.inr (.inr ⟨rfl, rest, hin⟩))

/-! ## What stops the machine -/

/-- The host read of n bytes at a reaches a buffer byte that holds no value (R86). -/
def ReadUnwritten (a : Addr) (n : Size) (s : State) : Prop :=
  ∃ i, i < n.bytes ∧
    ((0x20000 ≤ a.toNat ∧ a.toNat < 0x40000 ∧ s.ibuf.get? (a.toNat - 0x20000 + i) = none) ∨
      (0x40000 ≤ a.toNat ∧ a.toNat < 0x60000 ∧ s.obuf.get? (a.toNat - 0x40000 + i) = none))

/-- A buffer read goes on, or it faults at a byte of its range that holds no value (R76, R86). -/
theorem bufRead_next_or_unwritten (m : Memory) (o : Nat) (n : Size) (s : State) :
    (∃ t, bufRead m o n s = .next t) ∨
    (bufRead m o n s = .fault .readOfUnwrittenBufferByte ∧
      ∃ i, i < n.bytes ∧ m.get? (o + i) = none) := by
  cases h : m.readRange o n.bytes with
  | some bs => exact .inl ⟨_, bufRead_of_readRange h s⟩
  | none => exact .inr ⟨bufRead_of_unwritten h s, (Memory.readRange_eq_none _ _ _).mp h⟩

/-- A host read goes on, or it faults at a buffer byte that holds no value (R72, R86). -/
theorem hostRead_next_or_unwritten (a : Addr) (n : Size) (s : State) :
    (∃ t, hostRead a n s = .next t) ∨
    (hostRead a n s = .fault .readOfUnwrittenBufferByte ∧ ReadUnwritten a n s) := by
  unfold hostRead
  cases hloc : locate s.params a.toNat n with
  | none => exact .inl ⟨_, rfl⟩
  | some tgt =>
    cases tgt with
    | reg r => exact .inl ⟨_, rfl⟩
    | ibuf o =>
      obtain ⟨hlo, hhi, ho, -⟩ := locate_eq_ibuf hloc
      exact (bufRead_next_or_unwritten s.ibuf o n s).imp_right
        fun ⟨hf, i, hi, hnone⟩ => ⟨hf, i, hi, .inl ⟨hlo, hhi, ho ▸ hnone⟩⟩
    | obuf o =>
      obtain ⟨hlo, hhi, ho, -⟩ := locate_eq_obuf hloc
      exact (bufRead_next_or_unwritten s.obuf o n s).imp_right
        fun ⟨hf, i, hi, hnone⟩ => ⟨hf, i, hi, .inr ⟨hlo, hhi, ho ▸ hnone⟩⟩

/-- The input of the command in progress does not depend on what is still to arrive. -/
theorem SequencerTurn.inputUnwritten {s s₀ : State} {src : Src} (h : SequencerTurn s s₀)
    (hin : InputUnwritten src s₀) : InputUnwritten src s := by
  rw [h.eq] at hin
  cases src <;> exact hin

/-- A step goes on, or it is a host read of a buffer byte that holds no value, or the sequencer performs
a command whose input holds such a byte (R86, R259). -/
theorem step_next_or_unwritten (s : State) :
    (∃ t, step s = .next t) ∨
    (step s = .fault .readOfUnwrittenBufferByte ∧
      ∃ a n rest, s.inputs = .bus (.read a n) :: rest ∧ ReadUnwritten a n s) ∨
    (step s = .fault .commandInputUnwritten ∧
      ∃ s₀ c src f, SequencerTurn s s₀ ∧ s.seq = .busy c ∧ InputUnwritten src s ∧
        ∃ i ∈ sourceCommands src f, decode c = .ok i) := by
  rcases input_kinds s with ⟨s₀, hturn⟩ | ⟨a, n, rest, hin⟩ | ⟨a, n, v, rest, hin⟩ | ⟨rest, hin⟩
  · cases hseq : s.seq with
    | idle =>
      exact .inl ⟨_, (step_of_turn hturn).trans (sequencerStep_idle (hturn.seq_eq.trans hseq))⟩
    | busy c =>
      rw [step_perform hturn hseq]
      rcases perform_cases c s₀ with ⟨_, _, _, hperf, -⟩ | ⟨src, f, i, hi, hdec, hun, hperf⟩
      · exact .inl ⟨_, hperf⟩
      · exact .inr (.inr ⟨hperf, s₀, c, src, f, hturn, rfl, hturn.inputUnwritten hun, i, hi, hdec⟩)
  · rw [step_bus hin]
    exact (hostRead_next_or_unwritten a n { s with inputs := rest }).imp_right
      fun ⟨hf, hun⟩ => .inl ⟨hf, a, n, rest, hin, hun⟩
  · rw [step_bus hin]
    exact .inl ((hostWrite_eq a n v _).elim (fun h => ⟨_, h.2⟩) fun ⟨_, h⟩ => ⟨_, h.2⟩)
  · exact .inl ⟨_, step_rst hin⟩

/-! ## The statements -/

/-- Settles O11: a performance that goes on is a commit, with the commit's frame and completion. -/
theorem completionSetsErrForErrors : Obligations.CompletionSetsErrForErrors := by
  refine ⟨fun c s t hperf => ?_, rfl, rfl⟩
  obtain ⟨k, o, fd, rfl, -⟩ := perform_eq_next hperf
  obtain ⟨hcode, hdone, herr, hseq⟩ := commit_completed k o fd s
  exact ⟨commit_frame k o fd s, hseq, hdone, by rwa [hcode]⟩

/-- Settles O27: the three ways a step can end, of which two are the faults and none is a refusal. -/
theorem onlyUnwrittenBytesStop : Obligations.OnlyUnwrittenBytesStop := by
  refine ⟨fun s r h => ?_, fun s h => ?_, fun s h => ?_⟩
  all_goals rcases step_next_or_unwritten s with ⟨t, hs⟩ | ⟨hs, hread⟩ | ⟨hs, hinput⟩
  all_goals cases hs.symm.trans h
  · obtain ⟨a, n, rest, hin, i, hi, hnone⟩ := hread
    exact ⟨a, n, rest, i, hin, hi, hnone⟩
  · exact hinput

/-- Settles O55: a write lost while BUSY and an issue as steps, and a step's cases for OVERRUN in both
directions. -/
theorem overrunIsSticky : Obligations.OverrunIsSticky := by
  refine ⟨fun s c a n v rest hbusy hin hadm ha => ?_, fun s t h hclear hset => ?_,
    fun s t h hset hclear => ?_, fun s c rest hidle hin => ?_⟩
  · exact ⟨_, (writeWhileBusyIsLost s c a n v rest hbusy hin hadm).1 ha, rfl⟩
  · rcases step_overrun_cases h with hkept | ⟨-, hlost⟩ | ⟨v, rest, -, hw1c⟩ | ⟨hreset, -⟩
    · simp [hkept, hclear] at hset
    · exact hlost
    · simp [hw1c, hclear] at hset
    · simp [hreset] at hset
  · rcases step_overrun_cases h with hkept | ⟨hlost, -⟩ | ⟨v, rest, hin, hw1c⟩ | ⟨-, hreset⟩
    · simp [hkept, hset] at hclear
    · simp [hlost] at hclear
    · exact .inl ⟨v, rest, hin, by simpa [hw1c, hset] using hclear⟩
    · exact .inr hreset
  · exact ⟨_, step_write_reg .cmd hin rfl (.inl hidle), rfl, rfl⟩

end Sys2Proof.Machine

/-! PROOFS. The statements of 30_encoding.md: decoding inverts encoding (R106, R108), so the legal words
are the words of the well-formed commands, 41 in all, and the words the spec writes out are among them. -/

namespace Sys2Proof

/-! ## Decoding inverts encoding -/

theorem decode_encode {i : Instr} (h : i.WellFormed) : decode (encode i) = .ok i := by
  cases i with
  | feEncode src fopc fin =>
    obtain rfl : fin = true := h
    simp [decode, encode]
  | nop | shaInit | shaBlock | shaMsg _ | b64Enc _ | fdDecode _ => simp [decode, encode]

/-- A word decodes to a command exactly when the command is well formed and the word is its word
(R106, R108). -/
theorem decode_eq_ok_iff (c : Word) (i : Instr) : decode c = .ok i ↔ i.WellFormed ∧ encode i = c := by
  refine ⟨encode_of_decode, ?_⟩
  rintro ⟨hwf, rfl⟩
  exact decode_encode hwf

/-- A well-formed command has one word (R106, R108). -/
theorem decode_eq_ok_iff_eq {i : Instr} (hwf : i.WellFormed) (c : Word) :
    decode c = .ok i ↔ c = encode i := by
  rw [decode_eq_ok_iff, and_iff_right hwf, eq_comm]

/-- What the encoder writes for a well-formed command decodes to it (R108). -/
theorem decode_and_encode {i : Instr} {c : Word} (hwf : i.WellFormed) (h : encode i = c) :
    decode c = .ok i ∧ encode i = c :=
  ⟨(decode_eq_ok_iff c i).mpr ⟨hwf, h⟩, h⟩

/-- A command with SRC as its one operand has two words (R103, R106). -/
theorem exists_src_decode_iff {op : Src → Instr} (hwf : ∀ src, (op src).WellFormed) (c : Word) :
    (∃ src, decode c = .ok (op src)) ↔ c = encode (op .ibuf) ∨ c = encode (op .obuf) := by
  simp only [decode_eq_ok_iff_eq (hwf _)]
  constructor
  · rintro ⟨src, h⟩
    cases src
    · exact .inl h
    · exact .inr h
  · rintro (h | h)
    · exact ⟨.ibuf, h⟩
    · exact ⟨.obuf, h⟩

/-- Well-formed commands with the same word are the same command (R108). -/
theorem encode_inj {i j : Instr} (hi : i.WellFormed) (hj : j.WellFormed) (h : encode i = encode j) :
    i = j := by
  have hdec := decode_encode hi
  rw [h, decode_encode hj] at hdec
  exact (Except.ok.inj hdec).symm

namespace Machine

/-- A legal word is the word of a well-formed command (R106). -/
theorem LegalWord.exists_encode {c : Word} (h : LegalWord c) :
    ∃ i : Instr, i.WellFormed ∧ encode i = c := by
  obtain ⟨hhigh, hlow, hcmd⟩ := (legalWord_iff c).mp h
  have hc := eq_layout hhigh hlow
  rcases hcmd with ⟨hop, hsrc, hfopc, hfin⟩ | ⟨hop, hfopc, hfin⟩ | ⟨hop, hfin⟩
  · rw [hsrc, hfopc, hfin] at hc
    rcases hop with hop | hop | hop <;> rw [hop] at hc
    · exact ⟨.nop, rfl, hc.symm⟩
    · exact ⟨.shaInit, rfl, hc.symm⟩
    · exact ⟨.shaBlock, rfl, hc.symm⟩
  · rw [hfopc, hfin, ← srcBit_srcOfBit (srcField c)] at hc
    rcases hop with hop | hop | hop <;> rw [hop] at hc
    · exact ⟨.shaMsg (srcOfBit (srcField c)), rfl, hc.symm⟩
    · exact ⟨.b64Enc (srcOfBit (srcField c)), rfl, hc.symm⟩
    · exact ⟨.fdDecode (srcOfBit (srcField c)), rfl, hc.symm⟩
  · rw [hop, hfin, ← srcBit_srcOfBit (srcField c)] at hc
    exact ⟨.feEncode (srcOfBit (srcField c)) (fopcField c) true, rfl, hc.symm⟩

/-- The legal words are the words of the well-formed commands (R106). -/
theorem legalWord_iff_exists_encode (c : Word) :
    LegalWord c ↔ ∃ i : Instr, i.WellFormed ∧ encode i = c := by
  refine ⟨LegalWord.exists_encode, ?_⟩
  rintro ⟨i, hwf, rfl⟩
  exact legalWord_encode hwf

/-- The decoder accepts exactly the legal words (R106). -/
theorem exists_decode_iff (c : Word) : (∃ i, decode c = .ok i) ↔ LegalWord c := by
  simp only [decode_eq_ok_iff, legalWord_iff_exists_encode]

end Machine

/-! ## The well-formed commands, counted -/

/-- The sixteen values of FOPC (R104). -/
def allFopc : List (BitVec 4) := (List.finRange 16).map BitVec.ofFin

theorem mem_allFopc (f : BitVec 4) : f ∈ allFopc :=
  List.mem_map.mpr ⟨f.toFin, List.mem_finRange _, rfl⟩

/-- The FE_ENCODE commands with FIN = 1, one for each source and frame opcode (R103 to R105). -/
def feEncodeCommands : List Instr :=
  allFopc.map (.feEncode .ibuf · true) ++ allFopc.map (.feEncode .obuf · true)

/-- Every well-formed command. -/
def wellFormedCommands : List Instr :=
  [.nop, .shaInit, .shaBlock, .shaMsg .ibuf, .shaMsg .obuf, .b64Enc .ibuf, .b64Enc .obuf,
    .fdDecode .ibuf, .fdDecode .obuf] ++ feEncodeCommands

theorem mem_feEncodeCommands (i : Instr) :
    i ∈ feEncodeCommands ↔ ∃ src f, i = .feEncode src f true := by
  simp only [feEncodeCommands, List.mem_append, List.mem_map]
  constructor
  · rintro (⟨f, -, rfl⟩ | ⟨f, -, rfl⟩) <;> exact ⟨_, f, rfl⟩
  · rintro ⟨src, f, rfl⟩
    cases src
    · exact .inl ⟨f, mem_allFopc f, rfl⟩
    · exact .inr ⟨f, mem_allFopc f, rfl⟩

theorem mem_wellFormedCommands (i : Instr) : i ∈ wellFormedCommands ↔ i.WellFormed := by
  rw [wellFormedCommands, List.mem_append, mem_feEncodeCommands]
  cases i with
  | nop | shaInit | shaBlock => simp [Instr.WellFormed, Instr.wellFormed]
  | shaMsg src | b64Enc src | fdDecode src => cases src <;> simp [Instr.WellFormed, Instr.wellFormed]
  | feEncode src f fin => simp [Instr.WellFormed, Instr.wellFormed]

/-- Different well-formed commands have different words, so a list of them without repetition gives a
list of words without repetition. -/
theorem nodup_map_encode {is : List Instr} (h : is.Nodup) (hwf : ∀ i ∈ is, i.WellFormed) :
    (is.map encode).Nodup :=
  h.map_on fun i hi j hj hij => encode_inj (hwf i hi) (hwf j hj) hij

theorem nodup_wellFormedCommands : wellFormedCommands.Nodup := by decide

/-! ## The statements -/

/-- Settles O2: the decoder reads back each field of the command's word. -/
theorem decodeInvertsEncode : Obligations.DecodeInvertsEncode := fun _ => decode_encode

/-- Settles O3: the words that decode are the words of the well-formed commands, which are listed. -/
theorem legalWordsAreTheDecodedWords : Obligations.LegalWordsAreTheDecodedWords := by
  refine ⟨Machine.exists_decode_iff, fun c i => encode_of_decode, decode_eq_ok_iff_eq rfl,
    decode_eq_ok_iff_eq rfl, decode_eq_ok_iff_eq rfl, exists_src_decode_iff fun _ => rfl,
    exists_src_decode_iff fun _ => rfl, exists_src_decode_iff fun _ => rfl,
    ⟨feEncodeCommands.map encode, rfl, ?_, fun c => ?_⟩,
    wellFormedCommands.map encode, rfl, ?_, fun c => ?_⟩
  · refine nodup_map_encode (nodup_wellFormedCommands.sublist (List.sublist_append_right _ _)) ?_
    intro i hi
    obtain ⟨src, f, rfl⟩ := (mem_feEncodeCommands i).mp hi
    rfl
  · simp only [List.mem_map, mem_feEncodeCommands, decode_eq_ok_iff]
    constructor
    · rintro ⟨src, f, -, rfl⟩; exact ⟨_, ⟨src, f, rfl⟩, rfl⟩
    · rintro ⟨_, ⟨src, f, rfl⟩, rfl⟩; exact ⟨src, f, rfl, rfl⟩
  · exact nodup_map_encode nodup_wellFormedCommands fun i => (mem_wellFormedCommands i).mp
  · simp only [List.mem_map, mem_wellFormedCommands, Machine.legalWord_iff_exists_encode]

/-- Settles O1: each word the spec writes out is what the encoder writes, so it decodes to its
command. -/
theorem specWordsDecode : Obligations.SpecWordsDecode := by
  refine ⟨⟨rfl, rfl⟩, ⟨rfl, rfl⟩, ⟨rfl, rfl⟩, ⟨rfl, rfl⟩, ⟨rfl, rfl⟩, ⟨rfl, rfl⟩, ⟨rfl, rfl⟩,
    ⟨rfl, rfl⟩, ⟨rfl, rfl⟩, fun f => decode_and_encode rfl ?_, fun f => decode_and_encode rfl ?_,
    rfl, rfl, rfl⟩
  · revert f; decide
  · revert f; decide

end Sys2Proof

/-! PROOFS. The statements of 10_state.md section 6: the invariant at reset, over every step and for
chained commands (R41), and the events that move ERR (R41 (d)) and the interrupt output (R38). -/

namespace Sys2Proof.Machine

/-! ## The invariant at reset and under host writes -/

theorem resetWith_inv {p : Params} (hp : p.legal = true) : (State.resetWith p).Inv where
  params_legal := hp
  olen_le := Nat.zero_le _
  maxPayload_le := (Nat.mod_le _ _).trans (legal_bounds hp).2.2
  busy_clear h := nomatch h
  fd_consistent := FdRegs.zero_consistent
  ibuf_wf := rfl
  ibuf_within := rfl
  obuf_wf := rfl
  obuf_within := rfl
  olen_written o ho := absurd ho (Nat.not_lt_zero o)

theorem applyReset_inv {s : State} (h : s.Inv) : s.applyReset.Inv :=
  inv_withHost (resetWith_inv h.params_legal) s.inputs none

/-- The invariant speaks of the parameters, OLEN, MAX_PAYLOAD, the decoder's result registers, the
buffers and, while BUSY, of STATUS. -/
theorem State.Inv.of_kept {s t : State} (h : s.Inv) (hparams : t.params = s.params)
    (holen : t.olen = s.olen) (hfd : t.fd = s.fd) (hibuf : t.ibuf = s.ibuf)
    (hobuf : t.obuf = s.obuf) (hmax : t.maxPayload.toNat ≤ s.params.obufBytes)
    (hbusy : t.seq.isBusy = true →
      t.status.done = false ∧ t.status.err = false ∧ t.status.code = .ok) : t.Inv where
  params_legal := hparams ▸ h.params_legal
  olen_le := by rw [holen, hparams]; exact h.olen_le
  maxPayload_le := hparams ▸ hmax
  busy_clear := hbusy
  fd_consistent := hfd ▸ h.fd_consistent
  ibuf_wf := hibuf ▸ h.ibuf_wf
  ibuf_within := by rw [hibuf, hparams]; exact h.ibuf_within
  obuf_wf := hobuf ▸ h.obuf_wf
  obuf_within := by rw [hobuf, hparams]; exact h.obuf_within
  olen_written := by rw [holen, hobuf]; exact h.olen_written

/-- A lost write keeps the invariant: it sets OVERRUN alone (R79). -/
theorem overrunSet_inv {s : State} (h : s.Inv) : { s with status := s.status.overrunSet }.Inv :=
  h.of_kept rfl rfl rfl rfl rfl h.maxPayload_le h.busy_clear

/-- While BUSY a STATUS write leaves DONE, ERR and CODE clear (R25, R41 (c)). -/
theorem writeOneToClear_inv {s : State} (h : s.Inv) (v : Word) :
    { s with status := s.status.writeOneToClear v }.Inv := by
  refine h.of_kept rfl rfl rfl rfl rfl h.maxPayload_le fun hbusy => ?_
  obtain ⟨hdone, herr, hcode⟩ := h.busy_clear hbusy
  simp [hdone, herr, hcode]

/-- A performed register write keeps the invariant: MAX_PAYLOAD is clamped, and an issue clears DONE,
ERR and CODE (R29, R78, R130). -/
theorem regWrite_inv {s : State} (h : s.Inv) (r : Reg) (v : Word)
    (hseq : s.seq = .idle ∨ r = .status) : (regWrite r v s).Inv := by
  have hmax := h.maxPayload_le
  have hbusy := h.busy_clear
  cases r with
  | id | paramIbuf | paramObuf | olen | fdHdr | fdPlenLo | fdPlenHi | fdMaskkey => exact h
  | status => exact writeOneToClear_inv h v
  | cmd => exact h.of_kept rfl rfl rfl rfl rfl hmax fun _ => ⟨rfl, rfl, rfl⟩
  | maxPayload =>
    exact h.of_kept rfl rfl rfl rfl rfl ((Nat.mod_le _ _).trans (Nat.min_le_right _ _)) hbusy
  | ctrl | ilen | h _ | w _ => exact h.of_kept rfl rfl rfl rfl rfl hmax hbusy

/-- A byte that holds a value still holds one after a range is written. -/
theorem Memory.isSome_get?_writeRange {m : Memory} {x : Nat} (h : (m.get? x).isSome = true) (o : Nat)
    (bs : List Byte) : ((m.writeRange o bs).get? x).isSome = true := by
  rw [Memory.get?_writeRange]
  split
  · rw [List.getElem?_eq_getElem (by omega)]
    rfl
  · exact h

/-- A performed host write keeps the invariant (R41, R76, R78). -/
theorem targetWrite_inv {s : State} (h : s.Inv) {a : Nat} {n : Size} {tgt : Target} (v : Word)
    (hloc : locate s.params a n = some tgt) (hseq : s.seq = .idle ∨ tgt = .reg .status) :
    (targetWrite tgt n v s).Inv := by
  cases tgt with
  | reg r => exact regWrite_inv h r v (hseq.imp_right Target.reg.inj)
  | ibuf o =>
    obtain ⟨-, -, -, hfit⟩ := locate_eq_ibuf hloc
    exact { h with
      ibuf_wf := Memory.wf_writeRange h.ibuf_wf _ _
      ibuf_within := Memory.within_writeRange h.ibuf_within _ _ (by rwa [bytesLE_length]) }
  | obuf o =>
    obtain ⟨-, -, -, hfit⟩ := locate_eq_obuf hloc
    exact { h with
      obuf_wf := Memory.wf_writeRange h.obuf_wf _ _
      obuf_within := Memory.within_writeRange h.obuf_within _ _ (by rwa [bytesLE_length])
      olen_written := fun x hx => Memory.isSome_get?_writeRange (h.olen_written x hx) _ _ }

/-! ## The invariant under a performance -/

theorem raise_inv {s : State} (h : s.Inv) (k : ResultCode) : (s.raise k).Inv :=
  commit_inv h k {} none (by simp) (by simp)

/-- Ending with OK keeps the invariant where the output bytes, if any, fit OBUF. -/
theorem finishOk_inv {s : State} (h : s.Inv) (o : Outputs)
    (hfit : ∀ bs, o.bytes = some bs → bs.length ≤ s.params.obufBytes) : (s.finishOk o).Inv :=
  commit_inv h .ok o none (fun _ => hfit) (by simp)

/-- A command keeps the invariant: what it outputs fits OBUF, and FD_DECODE leaves consistent result
registers (R157, R182, R205, R232). -/
theorem exec_inv {i : Instr} {s t : State} (h : s.Inv) (hex : exec i s = .next t) : t.Inv := by
  cases i with
  | nop => cases hex; exact finishOk_inv h _ nofun
  | shaInit => cases hex; exact finishOk_inv h _ nofun
  | shaBlock => cases hex; exact finishOk_inv h _ nofun
  | shaMsg src =>
    rcases withInput_eq_next hex with ⟨-, rfl⟩ | ⟨m, -, rfl⟩
    · exact raise_inv h _
    · have hobuf := (legal_bounds h.params_legal).2.1.1
      refine finishOk_inv h _ ?_
      rintro _ ⟨⟩
      rw [digestBytes_length]
      omega
  | b64Enc src =>
    rcases withInput_eq_next hex with ⟨-, rfl⟩ | ⟨bs, -, rfl⟩
    · exact raise_inv h _
    · split
      case isTrue => exact raise_inv h _
      case isFalse hfit =>
        refine finishOk_inv h _ ?_
        rintro _ ⟨⟩
        rw [base64_length]
        omega
  | fdDecode src =>
    rcases withInput_eq_next hex with ⟨-, rfl⟩ | ⟨bs, -, rfl⟩
    · refine commit_inv h _ _ _ nofun ?_
      rintro _ ⟨⟩
      exact FdRegs.zero_consistent
    · refine commit_inv h _ _ _ ?_ ?_
      · rintro hok _ ⟨⟩
        exact (fdDecode_payload_length hok).trans h.maxPayload_le
      · rintro _ ⟨⟩
        exact fdDecode_consistent _ _ _
  | feEncode src f fin =>
    cases fin with
    | false => cases hex; exact raise_inv h _
    | true =>
      rcases withInput_eq_next hex with ⟨-, rfl⟩ | ⟨bs, -, rfl⟩
      · exact raise_inv h _
      · split
        case isTrue => exact raise_inv h _
        case isFalse hfit =>
          refine finishOk_inv h _ ?_
          rintro _ ⟨⟩
          rw [feFrame_length]
          omega

theorem perform_inv {c : Word} {s t : State} (h : s.Inv) (hperf : perform c s = .next t) : t.Inv := by
  cases hdec : decode c with
  | ok i => exact exec_inv h ((perform_of_decode hdec s).symm.trans hperf)
  | error e =>
    cases (perform_of_error hdec s).symm.trans hperf
    exact raise_inv h _

/-! ## The invariant under a step -/

/-- The state the sequencer moves on meets the invariant. -/
theorem SequencerTurn.inv {s s₀ : State} (hturn : SequencerTurn s s₀) (h : s.Inv) : s₀.Inv := by
  rw [hturn.eq]
  exact inv_withHost h s₀.inputs s.response

theorem respond_inv {s : State} (h : s.Inv) (r : Response) : (s.respond r).Inv :=
  inv_withHost h s.inputs r

theorem step_inv {s t : State} (h : s.Inv) (hstep : step s = .next t) : t.Inv := by
  have hrest : ∀ rest, { s with inputs := rest }.Inv := fun rest => inv_withHost h rest s.response
  rcases step_eq_next hstep with ⟨hturn, -⟩ | ⟨s₀, c, hturn, -, hperf⟩ | ⟨_, _, rest, r, -, rfl⟩ |
    ⟨_, _, _, rest, -, -, rfl⟩ | ⟨_, _, _, rest, _, -, -, -, -, rfl⟩ |
    ⟨a, n, v, rest, tgt, -, hloc, hseq, rfl⟩ | ⟨rest, -, rfl⟩
  · exact hturn.inv h
  · exact perform_inv (hturn.inv h) hperf
  · exact inv_withHost h rest r
  · exact inv_withHost h rest busErrorWrite
  · exact inv_withHost (overrunSet_inv h) rest okayWrite
  · exact respond_inv (targetWrite_inv (hrest rest) v hloc hseq) okayWrite
  · exact applyReset_inv (hrest rest)

/-! ## ERR and the interrupt output under a step -/

/-- A performed write never sets ERR (R25, R78, R130). -/
theorem targetWrite_err {tgt : Target} {n : Size} {v : Word} {s : State}
    (h : (targetWrite tgt n v s).status.err = true) : s.status.err = true := by
  cases tgt with
  | reg r =>
    cases r with
    | status => exact (Bool.and_eq_true_iff.mp h).1
    | cmd => cases h
    | _ => exact h
  | ibuf _ => exact h
  | obuf _ => exact h

/-- What a performed write does to the interrupt output, by the register it reaches (R38). -/
theorem targetWrite_irq (tgt : Target) (n : Size) (v : Word) (s : State) :
    (targetWrite tgt n v s).irq =
      if tgt = .reg .ctrl then s.status.done && v.getLsbD 0
      else if tgt = .reg .status then s.irq && !v.getLsbD 0
      else if tgt = .reg .cmd then false
      else s.irq := by
  cases tgt with
  | reg r =>
    cases r with
    | status => exact Bool.and_right_comm _ _ _
    | _ => rfl
  | ibuf _ => rfl
  | obuf _ => rfl

/-- A write that reaches CTRL is a 4-byte write at 0x00C (R43, R75). -/
theorem locate_eq_ctrl {p : Params} {a : Addr} {n : Size}
    (h : locate p a.toNat n = some (.reg .ctrl)) : a = 0x0000C ∧ n = .four := by
  obtain ⟨ha, hn⟩ := locate_eq_reg h
  exact ⟨BitVec.eq_of_toNat_eq (by simpa [Reg.offset] using ha), hn⟩

/-- A step keeps the interrupt output, completes a command, writes CTRL, STATUS or CMD, or resets
(R38). -/
theorem step_irq_cases {s t : State} (h : step s = .next t) :
    t.irq = s.irq ∨
    (t.irq = s.ctrl.irqEn ∧ ∃ s₀ c, SequencerTurn s s₀ ∧ s.seq = .busy c ∧ t.seq = .idle) ∨
    (∃ v rest, s.inputs = .bus (.write 0x0000C .four v) :: rest ∧
      t.irq = (s.status.done && v.getLsbD 0)) ∨
    (∃ v rest, s.inputs = .bus (.write 0x00010 .four v) :: rest ∧ t.irq = (s.irq && !v.getLsbD 0)) ∨
    (t.irq = false ∧ ∃ c rest, s.inputs = .bus (.write 0x00014 .four c) :: rest ∧ t.seq = .busy c) ∨
    (t.irq = false ∧ ∃ rest, s.inputs = .rst :: rest) := by
  rcases step_eq_next h with ⟨hturn, -⟩ | ⟨s₀, c, hturn, hbusy, hperf⟩ | ⟨_, _, _, _, -, rfl⟩ |
    ⟨_, _, _, _, -, -, rfl⟩ | ⟨_, _, _, _, _, -, -, -, -, rfl⟩ |
    ⟨a, n, v, rest, tgt, hin, hloc, -, rfl⟩ | ⟨rest, hin, rfl⟩
  · exact .inl (by rw [hturn.eq]; rfl)
  · obtain ⟨k, o, fd, rfl, -⟩ := perform_eq_next hperf
    refine .inr (.inl ⟨?_, s₀, c, hturn, hbusy, by simp⟩)
    rw [State.irq, State.commit_status, Status.completed_done, State.commit_ctrl, hturn.eq]
    rfl
  · exact .inl rfl
  · exact .inl rfl
  · exact .inl rfl
  · have hirq := targetWrite_irq tgt n v { s with inputs := rest }
    by_cases hctrl : tgt = .reg .ctrl
    · subst hctrl
      obtain ⟨rfl, rfl⟩ := locate_eq_ctrl hloc
      exact .inr (.inr (.inl ⟨v, rest, hin, hirq⟩))
    · by_cases hstatus : tgt = .reg .status
      · obtain rfl := (locate_eq_status hloc).mp hstatus
        subst hstatus
        obtain ⟨-, rfl⟩ := locate_eq_reg hloc
        exact .inr (.inr (.inr (.inl ⟨v, rest, hin, hirq⟩)))
      · by_cases hcmd : tgt = .reg .cmd
        · subst hcmd
          obtain ⟨rfl, rfl⟩ := locate_eq_cmd hloc
          exact .inr (.inr (.inr (.inr (.inl ⟨hirq, v, rest, hin, rfl⟩))))
        · rw [if_neg hctrl, if_neg hstatus, if_neg hcmd] at hirq
          exact .inl hirq
  · exact .inr (.inr (.inr (.inr (.inr ⟨rfl, rest, hin⟩))))

/-! ## The statements -/

/-- Settles O50: each kind of step keeps the invariant. -/
theorem stepKeepsInvariant : Obligations.StepKeepsInvariant := fun _ _ => step_inv

/-- Settles O52: the invariant for any legal parameters, of which the defaults are some. -/
theorem resetMeetsInvariant : Obligations.ResetMeetsInvariant :=
  ⟨resetWith_inv (by decide), fun _ => resetWith_inv⟩

/-- Settles O16: under the invariant the bytes `OBUF[0..OLEN)` are an input, and over an input a command
completes with another code. -/
theorem chainedCommandsComplete : Obligations.ChainedCommandsComplete := by
  intro s f hinv i hi
  rcases input_cases .obuf s with hlong | ⟨x, hx, hnone⟩ | ⟨bs, hbs⟩
  · cases hlong.1
  · have hsome := hinv.olen_written x hx
    rw [hnone] at hsome
    cases hsome
  · obtain ⟨k, o, fd, hboth, hk⟩ := commitsFromBoth_of_inputIs (.refl s) hi hbs hbs
    exact ⟨_, hboth.left, by simpa using hk⟩

/-- Settles O51: of the kinds of step only a performance can set ERR. -/
theorem errRisesOnlyAtCompletion : Obligations.ErrRisesOnlyAtCompletion := by
  intro s t h hclear hset
  rcases step_eq_next h with ⟨hturn, -⟩ | ⟨s₀, c, hturn, hbusy, hperf⟩ | ⟨_, _, _, _, -, rfl⟩ |
    ⟨_, _, _, _, -, -, rfl⟩ | ⟨_, _, _, _, _, -, -, -, -, rfl⟩ |
    ⟨_, _, _, rest, _, -, -, -, rfl⟩ | ⟨_, -, rfl⟩
  · rw [hturn.eq] at hset
    cases hclear.symm.trans hset
  · obtain ⟨k, o, fd, rfl, -⟩ := perform_eq_next hperf
    obtain ⟨-, hdone, -, hseq⟩ := commit_completed k o fd s₀
    exact ⟨hdone, s₀, c, hturn, hbusy, hseq⟩
  · cases hclear.symm.trans hset
  · cases hclear.symm.trans hset
  · cases hclear.symm.trans hset
  · cases hclear.symm.trans (targetWrite_err (s := { s with inputs := rest }) hset)
  · cases hset

/-- Settles O54: a step's cases for the interrupt output, in both directions. -/
theorem interruptIsALevel : Obligations.InterruptIsALevel := by
  refine ⟨fun s => Bool.and_eq_true_iff, fun s t h hlow hhigh => ?_, fun s t h hhigh hlow => ?_,
    fun p => rfl⟩
  · rcases step_irq_cases h with hkept | ⟨hirq, s₀, c, hturn, hbusy, hseq⟩ | ⟨v, rest, hin, hirq⟩ |
      ⟨v, rest, -, hirq⟩ | ⟨hirq, -⟩ | ⟨hirq, -⟩
    · simp [hkept, hlow] at hhigh
    · exact .inl ⟨s₀, c, hturn, hbusy, hseq, hirq ▸ hhigh⟩
    · obtain ⟨hdone, hen⟩ := Bool.and_eq_true_iff.mp (hirq ▸ hhigh)
      exact .inr ⟨hdone, v, rest, hin, hen⟩
    · simp [hirq, hlow] at hhigh
    · cases hirq.symm.trans hhigh
    · cases hirq.symm.trans hhigh
  · have hen : s.ctrl.irqEn = true := (Bool.and_eq_true_iff.mp hhigh).2
    have hdone : s.status.done = true := (Bool.and_eq_true_iff.mp hhigh).1
    rcases step_irq_cases h with hkept | ⟨hirq, -⟩ | ⟨v, rest, hin, hirq⟩ |
      ⟨v, rest, hin, hirq⟩ | ⟨-, hcmd⟩ | ⟨-, hrst⟩
    · simp [hkept, hhigh] at hlow
    · simp [hirq, hen] at hlow
    · exact .inr (.inr (.inl ⟨v, rest, hin, by simpa [hirq, hdone] using hlow⟩))
    · exact .inl ⟨v, rest, hin, by simpa [hirq, hhigh] using hlow⟩
    · exact .inr (.inl hcmd)
    · exact .inr (.inr (.inr hrst))

/-- Settles O56: a step that is no write and no reset is a stutter, a commit, or a read. -/
theorem onlyHostWritesConfigure : Obligations.OnlyHostWritesConfigure := by
  intro s t h hnowrite hnorst
  rcases step_eq_next h with ⟨hturn, -⟩ | ⟨s₀, c, hturn, -, hperf⟩ | ⟨_, _, _, _, -, rfl⟩ |
    ⟨a, n, v, rest, hin, -, -⟩ | ⟨a, n, v, rest, _, hin, -⟩ | ⟨a, n, v, rest, _, hin, -⟩ |
    ⟨rest, hin, -⟩
  · rw [hturn.eq]
    exact ⟨rfl, rfl, rfl, rfl, rfl⟩
  · obtain ⟨k, o, fd, rfl, -⟩ := perform_eq_next hperf
    obtain ⟨-, hctrl, hilen, hmax, hibuf, hover, -, -⟩ := commit_frame k o fd s₀
    rw [hturn.eq] at hctrl hilen hmax hibuf hover ⊢
    exact ⟨hctrl, hilen, hmax, hibuf, hover⟩
  · exact ⟨rfl, rfl, rfl, rfl, rfl⟩
  · exact absurd hin (hnowrite a n v rest)
  · exact absurd hin (hnowrite a n v rest)
  · exact absurd hin (hnowrite a n v rest)
  · exact absurd hin (hnorst rest)

end Sys2Proof.Machine

/-! PROOFS. The statements of 40_command_common.md about the sequencer and its agents: the step performs
the decoded command (R131), what arrives while BUSY does not reach it (R133, R80), it completes after
the last transaction (R287), and the codes it can end with (R250). -/

namespace Sys2Proof.Machine

/-! ## The placed word -/

theorem decode_of_decodeTableWord {nbits w : Nat} {i : Instr}
    (h : decodeTableWord nbits w = some i) : decode (tableWord nbits w) = .ok i := by
  have hopt : (decode (tableWord nbits w)).toOption = some i := by
    unfold decodeTableWord at h
    split at h
    · exact h
    · cases h
  cases hdec : decode (tableWord nbits w) with
  | ok j => exact congrArg Except.ok (Option.some.inj ((congrArg _ hdec).symm.trans hopt))
  | error e => cases (congrArg Except.toOption hdec).symm.trans hopt

/-- After `withFetchWord` it is the sequencer's turn, on the state in which the word is issued
(log 4). -/
theorem sequencerTurn_withFetchWord (s : State) (nbits w : Nat) :
    SequencerTurn (s.withFetchWord nbits w) (s.issue (tableWord nbits w)) :=
  .inr ⟨s.inputs, rfl, rfl⟩

/-! ## Transactions while BUSY -/

/-- A run of host transactions while a command is in progress changes at most STATUS, the response and
what is still to arrive (R79, R80). -/
theorem run_bus_busy {s u : State} {c : Word} (ts : List Transaction) {rest : List PortInput}
    (hbusy : s.seq = .busy c) (hin : s.inputs = ts.map .bus ++ rest)
    (hrun : Host.Core.run core ts.length s = .next u) : ∃ st r, u = s.withHost st rest r := by
  induction ts generalizing s with
  | nil =>
    have hu : s = u := Host.Outcome.next.inj hrun
    exact ⟨s.status, s.response, by rw [← hu, ← show s.inputs = rest from hin]⟩
  | cons x ts ih =>
    obtain ⟨t, hstep, hrun⟩ := run_succ_eq_next hrun
    obtain ⟨st, r, rfl⟩ := step_bus_busy hbusy hin hstep
    exact ih (s := s.withHost st _ r) hbusy rfl hrun

/-- Of two answers alike but for what a command does not read, one goes on where the other does. -/
theorem sameButHost_eq_next {st : Status} {ins : List PortInput} {q : Option Response} {r : Result}
    {u : State} (h : sameButHost st ins q r = .next u) :
    ∃ v, r = .next v ∧ u = v.withHost (st.completed v.status.code) ins q := by
  cases r with
  | next v => exact ⟨v, rfl, (Host.Outcome.next.inj h).symm⟩
  | fault f => cases h
  | refused x => cases h

/-- A performance goes on, and then it is complete, or it faults at an unwritten input byte (R134,
R86). -/
theorem perform_completes_or_faults (c : Word) (s : State) :
    (∃ t, perform c s = .next t ∧ t.seq = .idle ∧ t.status.done = true) ∨
      perform c s = .fault .commandInputUnwritten := by
  rcases perform_cases c s with ⟨k, o, fd, hperf, -⟩ | ⟨_, _, _, _, _, _, hperf⟩
  · exact .inl ⟨_, hperf, by simp, by simp⟩
  · exact .inr hperf

/-! ## Result codes -/

/-- What a command over its input ends with: BAD_LENGTH, or a code of what it does with the bytes. -/
theorem code_of_withInput {src : Src} {s t : State} {fd : Option FdRegs} {k : List Byte → State}
    {codes : List ResultCode}
    (h : withInput src s (s.commit .badLength {} fd) k = .next t) (hbad : .badLength ∈ codes)
    (hk : ∀ bs, (k bs).status.code ∈ codes) : t.status.code ∈ codes := by
  rcases withInput_eq_next h with ⟨-, rfl⟩ | ⟨bs, -, rfl⟩
  · simpa using hbad
  · exact hk bs

theorem exec_shaMsg_code {src : Src} {s t : State} (h : exec (.shaMsg src) s = .next t) :
    t.status.code ∈ [ResultCode.ok, .badLength] :=
  code_of_withInput h (by simp) fun bs => by simp [State.finishOk]

theorem exec_b64Enc_code {src : Src} {s t : State} (h : exec (.b64Enc src) s = .next t) :
    t.status.code ∈ [ResultCode.ok, .badLength, .outOverflow] :=
  code_of_withInput h (by simp) fun bs => by split <;> simp [State.finishOk, State.raise]

theorem exec_fdDecode_code {src : Src} {s t : State} (h : exec (.fdDecode src) s = .next t) :
    t.status.code ∈
      [ResultCode.ok, .incomplete, .protoUnmasked, .protoOpcode, .protoTooLong, .badLength] :=
  code_of_withInput h (by simp) fun bs => by
    rw [State.commit_status, Status.completed_code]
    exact List.mem_append_left [.badLength]
      (fdDecode_code s.ctrl.lenientUnmasked s.maxPayload.toNat bs)

theorem exec_feEncode_code {src : Src} {f : BitVec 4} {s t : State}
    (h : exec (.feEncode src f true) s = .next t) :
    t.status.code ∈ [ResultCode.ok, .badLength, .outOverflow] :=
  code_of_withInput h (by simp) fun bs => by split <;> simp [State.finishOk, State.raise]

/-- A well-formed command never ends with ILLEGAL_CMD (R250). -/
theorem exec_code_ne_illegalCmd {i : Instr} {s t : State} (hwf : i.WellFormed)
    (h : exec i s = .next t) : t.status.code ≠ .illegalCmd := by
  intro hill
  cases i with
  | nop => cases (exec_nop s).symm.trans h; simp at hill
  | shaInit => cases (exec_shaInit s).symm.trans h; simp at hill
  | shaBlock => cases (exec_shaBlock s).symm.trans h; simp at hill
  | shaMsg src => simpa [hill] using exec_shaMsg_code h
  | b64Enc src => simpa [hill] using exec_b64Enc_code h
  | fdDecode src => simpa [hill] using exec_fdDecode_code h
  | feEncode src f fin =>
    obtain rfl : fin = true := hwf
    simpa [hill] using exec_feEncode_code h

theorem ResultCode.value_le (k : ResultCode) : k.value.toNat ≤ 0x07 := by
  cases k <;> decide

/-! ## The statements -/

/-- Settles O4: the sequencer's turn is a performance, and the placed word's next step is one. -/
theorem stepRunsDecodedCommand : Obligations.StepRunsDecodedCommand :=
  ⟨fun _ s₀ _ _ hturn hbusy hdec => (step_perform hturn hbusy).trans (perform_of_decode hdec s₀),
    fun s nbits w _ hdec => (step_perform (sequencerTurn_withFetchWord s nbits w) rfl).trans
      (perform_of_decode (decode_of_decodeTableWord hdec) _)⟩

/-- Settles O5: the sequencer's step while IDLE. -/
theorem idleSequencerChangesNothing : Obligations.IdleSequencerChangesNothing :=
  fun _ _ hturn hidle =>
    (step_of_turn hturn).trans (sequencerStep_idle (hturn.seq_eq.trans hidle))

/-- Settles O12: the codes by command; an illegal word ends with ILLEGAL_CMD, and a legal one is a
well-formed command. -/
theorem resultCodesByCommand : Obligations.ResultCodesByCommand := by
  refine ⟨fun c s t hperf => ⟨?_, t.status.code.value_le⟩, fun i hi s t hex => ?_,
    fun _ _ _ => exec_shaMsg_code, fun _ _ _ => exec_b64Enc_code, fun _ _ _ => exec_fdDecode_code,
    fun _ _ _ _ => exec_feEncode_code⟩
  · constructor
    · rintro hill hlegal
      obtain ⟨i, hwf, rfl⟩ := hlegal.exists_encode
      exact exec_code_ne_illegalCmd hwf ((perform_of_decode (decode_encode hwf) s).symm.trans hperf)
        hill
    · intro hillegal
      cases (perform_of_illegal hillegal s).symm.trans hperf
      simp
  · simp only [List.mem_cons, List.not_mem_nil, or_false] at hi
    rcases hi with rfl | rfl | rfl
    · cases (exec_nop s).symm.trans hex; simp
    · cases (exec_shaInit s).symm.trans hex; simp
    · cases (exec_shaBlock s).symm.trans hex; simp

/-- Settles O13: the transactions leave a state that differs in what no command reads. -/
theorem busyTransactionsDoNotReachCommand : Obligations.BusyTransactionsDoNotReachCommand := by
  intro s c ts rest u hbusy hin hrun
  obtain ⟨s', hbus, hlast⟩ := run_split hrun
  obtain ⟨st, r, rfl⟩ := run_bus_busy ts hbusy hin hbus
  obtain ⟨u', hstep, hu⟩ := run_succ_eq_next hlast
  cases hu
  rw [step_perform (.inr ⟨rest, rfl, rfl⟩) (s := s.withHost st _ r) hbusy] at hstep
  obtain ⟨v, hperf, rfl⟩ := sameButHost_eq_next
    ((perform_withHost c { s with inputs := rest } st rest r).symm.trans hstep)
  obtain ⟨k, o, fd, rfl, -⟩ := perform_eq_next hperf
  have hnow : step { s with inputs := .quiet :: rest } = perform c { s with inputs := rest } :=
    step_perform (.inr ⟨rest, rfl, rfl⟩) hbusy
  refine ⟨_, hnow.trans hperf, ?_⟩
  simp [Status.completed]

/-- Settles O14: after the transactions the command is still in progress, and the next step is its
performance. -/
theorem commandCompletesAfterLastTransaction : Obligations.CommandCompletesAfterLastTransaction := by
  intro s c ts u hbusy hin hrun
  obtain ⟨st, r, rfl⟩ := run_bus_busy ts hbusy (hin.trans (List.append_nil _).symm) hrun
  refine ⟨hbusy, rfl, ?_⟩
  rw [step_perform (s := s.withHost st [] r) (.inl ⟨rfl, rfl⟩) hbusy]
  exact perform_completes_or_faults c _

end Sys2Proof.Machine

/-! PROOFS. The statements of 20_memory.md and 10_state.md read through the host port: what each register
reads as (R24, R25, R32, R43), a buffer read after a write (R76), bytes with no value (R86), and the
reset values (R42, R280 to R282). -/

namespace Sys2Proof.Machine

/-! ## The words with fields, bit by bit -/

/-- CTRL as the host reads it (R24). -/
theorem Ctrl.toWord_bits (c : Ctrl) :
    c.toWord.getLsbD 0 = c.irqEn ∧ c.toWord.getLsbD 1 = c.lenientUnmasked ∧
      c.toWord.extractLsb 31 2 = 0 := by
  obtain ⟨irqEn, lenient⟩ := c
  cases irqEn <;> cases lenient <;> decide

/-- The one-bit fields of STATUS but BUSY, and its reserved bits and CODE (R25). -/
theorem Status.toWord_bits (st : Status) (busy : Bool) :
    ((st.toWord busy).getLsbD 0 = st.done ∧ (st.toWord busy).getLsbD 1 = st.err ∧
      (st.toWord busy).getLsbD 3 = st.overrun) ∧
    (st.toWord busy).extractLsb 7 4 = 0 ∧ (st.toWord busy).extractLsb 15 8 = st.code.value ∧
      (st.toWord busy).extractLsb 31 16 = 0 := by
  simp only [Status.toWord, BitVec.getLsbD_append, BitVec.extractLsb, BitVec.extractLsb'_append_eq_ite]
  simp

/-- The fields of FD_HDR (R32). -/
theorem FdHdr.toWord_bits (r : FdHdr) :
    r.toWord.extractLsb 7 0 = r.b0 ∧ r.toWord.extractLsb 15 8 = r.b1 ∧
      r.toWord.extractLsb 19 16 = r.hlen ∧ r.toWord.getLsbD 20 = r.close ∧
      r.toWord.extractLsb 22 21 = r.stage ∧ r.toWord.extractLsb 31 23 = 0 := by
  simp only [FdHdr.toWord, BitVec.getLsbD_append, BitVec.extractLsb, BitVec.extractLsb'_append_eq_ite]
  simp

/-! ## The buffers -/

/-- Above the registers an admitted transaction reaches the buffer of its window (R71). -/
theorem locate_buffer {p : Params} {a : Nat} {n : Size} {tgt : Target}
    (h : locate p a n = some tgt) (ha : 0x20000 ≤ a) :
    (a < 0x40000 ∧ tgt = .ibuf (a - 0x20000)) ∨ (0x40000 ≤ a ∧ tgt = .obuf (a - 0x40000)) := by
  cases tgt with
  | reg r =>
    have hoff := r.offset_lt
    have := (locate_eq_reg h).1
    omega
  | ibuf o =>
    obtain ⟨-, hlt, ho, -⟩ := locate_eq_ibuf h
    exact .inl ⟨hlt, by rw [ho]⟩
  | obuf o =>
    obtain ⟨hge, -, ho, -⟩ := locate_eq_obuf h
    exact .inr ⟨hge, by rw [ho]⟩

/-- A buffer read of the bytes just written returns the low bits of the data (R76). -/
theorem bufRead_writeRange (m : Memory) (o : Nat) (n : Size) (v : Word) :
    ∃ x : Word, (∀ s, bufRead (m.writeRange o (bytesLE v.toNat n.bytes)) o n s =
      .next (s.respond (okayRead x))) ∧ x.toNat = v.toNat % 2 ^ (8 * n.bytes) := by
  have hread := Memory.readRange_writeRange m o (bytesLE v.toNat n.bytes)
  rw [bytesLE_length] at hread
  refine ⟨_, bufRead_of_readRange hread, ?_⟩
  rw [BitVec.toNat_ofNat, leValue_bytesLE]
  exact Nat.mod_eq_of_lt ((Nat.mod_le _ _).trans_lt v.isLt)

theorem bufRead_of_get?_none {m : Memory} {o i : Nat} {n : Size} (hi : i < n.bytes)
    (h : m.get? (o + i) = none) (s : State) : bufRead m o n s = .fault .readOfUnwrittenBufferByte :=
  bufRead_of_unwritten ((Memory.readRange_eq_none _ _ _).mpr ⟨i, hi, h⟩) s

/-! ## The statements -/

/-- Settles O20: the read of each register as a step. -/
theorem registersReadBack : Obligations.RegistersReadBack := by
  intro s a rest hin
  refine ⟨?_, ?_, ?_, ?_, fun i ha => step_read_reg (.h i) hin ha,
    fun k ha => step_read_reg (.w k) hin ha, ?_, ?_, ?_⟩
  · rintro rfl; exact step_read_reg .cmd hin rfl
  · rintro rfl; exact step_read_reg .ilen hin rfl
  · rintro rfl; exact step_read_reg .olen hin rfl
  · rintro rfl; exact step_read_reg .maxPayload hin rfl
  · rintro rfl; exact step_read_reg .fdPlenLo hin rfl
  · rintro rfl; exact step_read_reg .fdPlenHi hin rfl
  · rintro rfl; exact step_read_reg .fdMaskkey hin rfl

/-- Settles O21: the reads of CTRL, STATUS and FD_HDR as steps, and their words' fields. -/
theorem statusWordsLayout : Obligations.StatusWordsLayout := by
  intro s a rest hin
  refine ⟨?_, ?_, ?_⟩
  · rintro rfl
    exact ⟨_, step_read_reg .ctrl hin rfl, s.ctrl.toWord_bits⟩
  · rintro rfl
    obtain ⟨⟨hdone, herr, hover⟩, hfields⟩ := s.status.toWord_bits s.seq.isBusy
    refine ⟨_, step_read_reg .status hin rfl, hdone, herr, ?_, hover, hfields⟩
    rw [regRead, Status.toWord_busy, Seq.isBusy_eq_true]
  · rintro rfl
    exact ⟨_, step_read_reg .fdHdr hin rfl, s.fd.hdr.toWord_bits⟩

/-- Settles O25: the write as a step, then the read of the bytes written, once for each buffer. -/
theorem bufferReadAfterWrite : Obligations.BufferReadAfterWrite := by
  intro s a n v rest hidle ha hadm hin
  obtain ⟨tgt, hloc⟩ := exists_located hadm
  have hwrite := step_write_idle hin hidle hloc
  rcases locate_buffer hloc ha with ⟨-, rfl⟩ | ⟨-, rfl⟩
  · obtain ⟨x, hread, hx⟩ := bufRead_writeRange s.ibuf (a.toNat - 0x20000) n v
    have hnext := step_read_ibuf (rest := rest)
      (s := (targetWrite (.ibuf (a.toNat - 0x20000)) n v { s with inputs := _ }).respond okayWrite)
      rfl hloc
    exact ⟨_, _, x, hwrite, hnext.trans (hread _), rfl, hx⟩
  · obtain ⟨x, hread, hx⟩ := bufRead_writeRange s.obuf (a.toNat - 0x40000) n v
    have hnext := step_read_obuf (rest := rest)
      (s := (targetWrite (.obuf (a.toNat - 0x40000)) n v { s with inputs := _ }).respond okayWrite)
      rfl hloc
    exact ⟨_, _, x, hwrite, hnext.trans (hread _), rfl, hx⟩

/-- Settles O26: the empty buffers of reset, and the two faults of R86. -/
theorem unwrittenBytesFault : Obligations.UnwrittenBytesFault := by
  refine ⟨fun p o => ⟨rfl, rfl⟩, fun s a n rest i hin hadm hi => ?_,
    fun src s f hun i hmem => exec_unwritten hun hmem⟩
  obtain ⟨tgt, hloc⟩ := exists_located hadm
  refine ⟨fun hlo hhi hnone => ?_, fun hlo hnone => ?_⟩
  · obtain ⟨-, rfl⟩ := (locate_buffer hloc hlo).resolve_right (by omega)
    exact (step_read_ibuf hin hloc).trans (bufRead_of_get?_none hi hnone _)
  · obtain ⟨-, rfl⟩ := (locate_buffer hloc (by omega)).resolve_left (by omega)
    exact (step_read_obuf hin hloc).trans (bufRead_of_get?_none hi hnone _)

/-- Settles O57: the step with `rst` asserted, field by field. -/
theorem resetSetsEveryRegister : Obligations.ResetSetsEveryRegister :=
  fun _ _ hin => ⟨_, step_rst hin, rfl, rfl, rfl, rfl, rfl, rfl, rfl, rfl, rfl, rfl,
    fun _ => ⟨rfl, rfl⟩, rfl, rfl⟩

/-- Settles O58: the registers of the reset state, field by field. -/
theorem resetRegisterValues : Obligations.ResetRegisterValues := by
  refine ⟨rfl, rfl, rfl, rfl, rfl, rfl, rfl, rfl, rfl, rfl, rfl, rfl, rfl, rfl, ?_, rfl, rfl, rfl,
    rfl, fun o => ⟨rfl, rfl⟩, rfl, rfl⟩
  decide

end Sys2Proof.Machine

/-! PROOFS. The statements of 41_sha1.md: SHA_INIT and SHA_BLOCK (R155, R156), the rounds of the
compression (R151, R153), the padding (R154) and SHA_MSG (R157, R158 (b) and (c)). -/

namespace Sys2Proof.Machine

/-! ## The words of the commands without operands -/

/-- A legal word with one of the three OPs that have no operand is that OP alone (R106). -/
theorem LegalWord.eq_op {c : Word} (h : LegalWord c)
    (hop : opField c = 0x00 ∨ opField c = 0x01 ∨ opField c = 0x02) : c = (opField c).zeroExtend 32 := by
  obtain ⟨i, -, rfl⟩ := h.exists_encode
  cases i with
  | nop | shaInit | shaBlock => decide
  | shaMsg _ | b64Enc _ | fdDecode _ | feEncode _ _ _ => simp [encode] at hop

/-! ## The compression -/

theorem shaRounds_succ (w : List Word) (h : Digest) (n : Nat) :
    shaRounds w h (n + 1) = shaRound w (shaRounds w h n) n := by
  simp [shaRounds, List.range_succ]

/-- The mixing function and constant of a round, by its range (R151). -/
theorem shaMix_shaConst_cases (t : Nat) (b c d : Word) :
    (t < 20 → shaMix t b c d = (b &&& c) ||| (~~~b &&& d) ∧ shaConst t = 0x5A827999) ∧
    (20 ≤ t → t < 40 → shaMix t b c d = b ^^^ c ^^^ d ∧ shaConst t = 0x6ED9EBA1) ∧
    (40 ≤ t → t < 60 →
      shaMix t b c d = (b &&& c) ||| (b &&& d) ||| (c &&& d) ∧ shaConst t = 0x8F1BBCDC) ∧
    (60 ≤ t → shaMix t b c d = b ^^^ c ^^^ d ∧ shaConst t = 0xCA62C1D6) := by
  unfold shaMix shaConst
  refine ⟨fun h => ?_, fun h h' => ?_, fun h h' => ?_, fun h => ?_⟩
  · simp [h]
  · simp [h', show ¬ t < 20 by omega]
  · simp [h', show ¬ t < 20 by omega, show ¬ t < 40 by omega]
  · simp [show ¬ t < 20 by omega, show ¬ t < 40 by omega, show ¬ t < 60 by omega]

/-! ## The padding -/

/-- `padZeros` is the least number of zero bytes (R154, log 18). -/
theorem padZeros_least {n y : Nat} (h : y < padZeros n) : (n + 1 + y) % 64 ≠ 56 := by
  unfold padZeros at h; omega

/-! ## What SHA_MSG leaves -/

/-- A command that ends with a code other than OK and no decoder registers changes STATUS and `seq`
alone (R135). -/
theorem endsWithStatusOnly_of_raise {i : Instr} {s : State} {k : ResultCode} (hk : k ≠ .ok)
    (h : exec i s = .next (s.commit k {} none)) : EndsWithStatusOnly i s k := by
  obtain ⟨hh, hw, hout⟩ := commit_no_output hk {} none s
  exact ⟨_, h, commit_frame _ _ _ _, commit_completed _ _ _ _, ⟨hh, hw, by simp⟩, hout⟩

/-- OBUF after SHA_MSG: the digest's words, the high byte first, and above them what it held (R157). -/
theorem shaMsg_obuf_get? (s : State) (m : List Byte) (o : Nat) :
    (s.commit .ok (shaMsgOutputs m) none).obuf.get? o =
      if o < 20 then some (((sha1 m).toList.getD (o / 4) 0).extractLsb' (24 - 8 * (o % 4)) 8)
      else s.obuf.get? o := by
  have hlen := digestBytes_length (sha1 m)
  have hout : OutputIs (digestBytes (sha1 m)) s (s.commit .ok (shaMsgOutputs m) none) :=
    commit_output rfl (by omega) none s
  rw [hout.obuf]
  by_cases ho : o < 20
  · rw [dif_pos (by omega), if_pos ho, ← List.getElem?_eq_getElem, digestBytes_getElem? _ _ ho]
  · rw [dif_neg (by omega), if_neg ho]

theorem shaMsg_olen (s : State) (m : List Byte) :
    (s.commit .ok (shaMsgOutputs m) none).olen = 20 := by
  simp [shaMsgOutputs, digestBytes_length]

theorem shaMsg_h (s : State) (m : List Byte) : (s.commit .ok (shaMsgOutputs m) none).h = sha1 m := by
  simp [shaMsgOutputs]

theorem shaMsg_w (s : State) (m : List Byte) :
    (s.commit .ok (shaMsgOutputs m) none).w = lastBlock m := by
  simp [shaMsgOutputs]

/-! ## The statements -/

/-- Settles O28: SHA_INIT is a commit of the initial value; its word is OP alone. -/
theorem shaInitSetsInitialValue : Obligations.ShaInitSetsInitialValue := by
  refine ⟨fun s => ⟨_, exec_shaInit s, rfl, rfl, fun hover => ?_⟩, fun p => rfl,
    decode_eq_ok_iff_eq rfl, fun c hop hne hlegal => hne ?_⟩
  · rw [regRead_status_commit, hover]
    decide
  · have hop : opField c = 0x01 := hop
    simpa [hop] using hlegal.eq_op (.inr (.inl hop))

/-- Settles O29: SHA_BLOCK is a commit of the compression; its word is OP alone, and the example is
computed. -/
theorem shaBlockCompressesIntoH : Obligations.ShaBlockCompressesIntoH := by
  refine ⟨exec_shaBlock, decode_eq_ok_iff_eq rfl, fun c hop hne hlegal => hne ?_, by decide +kernel⟩
  have hop : opField c = 0x02 := hop
  simpa [hop] using hlegal.eq_op (.inr (.inr hop))

/-- Settles O31: the working variables before each round are those after the rounds before it. -/
theorem compressIsEightyRounds : Obligations.CompressIsEightyRounds := by
  intro h blk
  let v := shaRounds (shaSchedule blk) h
  refine ⟨fun t => (v t).a, fun t => (v t).b, fun t => (v t).c, fun t => (v t).d, fun t => (v t).e,
    ⟨rfl, rfl, rfl, rfl, rfl⟩, fun t _ => ?_, rfl⟩
  obtain ⟨h1, h2, h3, h4⟩ := shaMix_shaConst_cases t (v t).b (v t).c (v t).d
  have hround : v (t + 1) = shaRound (shaSchedule blk) (v t) t := shaRounds_succ _ _ _
  refine ⟨_, _, h1, h2, h3, h4, ?_⟩
  simp only [hround, shaRound, rotl32_eq _ 5 (by decide), rotl32_eq _ 30 (by decide), and_self]

/-- Settles O32: the closed form `padZeros` is the least z, and the length field is big-endian. -/
theorem paddingIsLeast : Obligations.PaddingIsLeast := by
  intro m
  refine ⟨padZeros m.length, padZeros_spec _, fun y => padZeros_least,
    ⟨_, rfl, bytesBE_length _ _, ?_⟩, shaPad_blocks m⟩
  rw [beValue_bytesBE]
  exact Nat.mod_mod _ _

/-- Settles O33: SHA_MSG over its input is a commit of its outputs. -/
theorem shaMsgDigestsInput : Obligations.ShaMsgDigestsInput := by
  refine fun src s => ⟨fun m hin => ?_, fun hlong => ?_⟩
  · refine ⟨_, exec_shaMsg hin, commit_frame _ _ _ _, commit_completed _ _ _ _, by simp,
      shaMsg_h s m, fun k => ?_, shaMsg_olen s m, shaMsg_obuf_get? s m⟩
    rw [shaMsg_w]
    simp [lastBlock, blockAt]
  · exact endsWithStatusOnly_of_raise (by decide) (withInput_of_tooLong hlong)

/-- Settles O34: both commits write the same outputs. -/
theorem shaMsgIsFunctionOfMessage : Obligations.ShaMsgIsFunctionOfMessage := by
  intro src src' s s' t t' m hin hin' hex hex'
  cases (exec_shaMsg hin).symm.trans hex
  cases (exec_shaMsg hin').symm.trans hex'
  refine ⟨fun i j => ?_, by rw [shaMsg_h, shaMsg_h], by rw [shaMsg_w, shaMsg_w],
    by rw [shaMsg_olen, shaMsg_olen], fun o ho => ?_⟩
  · rw [shaMsg_obuf_get?, if_pos (by omega), shaMsg_h, show (4 * i.val + j.val) / 4 = i.val by omega,
      show (4 * i.val + j.val) % 4 = j.val by omega]
    simp
  · rw [shaMsg_obuf_get?, shaMsg_obuf_get?, if_pos ho, if_pos ho]

end Sys2Proof.Machine

/-! PROOFS. Hashing a message block by block (41_sha1.md R158 (a)): what a register write and an issued
command do as runs of steps, one block, and the message by induction on its blocks. -/

namespace Sys2Proof.Machine

/-! ## Runs of the host's inputs -/

/-- A register write while IDLE as a step, as host programs write it (R109). -/
theorem step_wrReg {s : State} {r : Reg} {v : Word} {rest : List PortInput} (hidle : s.seq = .idle)
    (hin : s.inputs = wrReg r v :: rest) :
    step s = .next ((regWrite r v { s with inputs := rest }).respond okayWrite) := by
  refine step_write_reg r hin ?_ (.inl hidle)
  rw [BitVec.toNat_ofNat]
  exact Nat.mod_eq_of_lt (r.offset_lt.trans (by decide))

/-- The two steps of a command: a CMD write while IDLE issues it, and on the quiet input it is performed
(R110, R130, R131). -/
theorem run_command {s t : State} {i : Instr} {rest : List PortInput} (hwf : i.WellFormed)
    (hidle : s.seq = .idle) (hin : s.inputs = cmdInputs i ++ .quiet :: rest)
    (hex : exec i { s.issue (encode i) with inputs := rest, response := some okayWrite } = .next t) :
    Host.Core.run core 2 s = .next t := by
  rw [run_succ (step_wrReg hidle hin), run_succ (t := t)]
  · rfl
  · refine (step_perform (.inr ⟨rest, rfl, rfl⟩) rfl).trans ?_
    exact (perform_of_decode (decode_encode hwf) _).trans hex

/-- The words of a block with word j of b written into it. -/
theorem getElem_set_of_block (w b : Block) (j k : Fin 16) :
    (w.set j b[j])[k] = if j = k then b[k] else w[k] := by
  rw [Fin.getElem_fin, Vector.getElem_set]
  by_cases hjk : j = k
  · subst hjk; simp
  · simp [hjk, Fin.val_inj]

/-- The writes of some words of a block leave, while IDLE, those words in their registers (R31, R78). -/
theorem run_blockWrites {s : State} (b : Block) (ks : List (Fin 16)) {rest : List PortInput}
    (hidle : s.seq = .idle) (hin : s.inputs = ks.map (fun k => wrReg (.w k) b[k]) ++ rest) :
    ∃ w r, Host.Core.run core ks.length s = .next { s with w := w, inputs := rest, response := r } ∧
      ∀ k : Fin 16, w[k] = if k ∈ ks then b[k] else s.w[k] := by
  induction ks generalizing s with
  | nil => exact ⟨s.w, s.response, by rw [← show s.inputs = rest from hin]; rfl, by simp⟩
  | cons j ks ih =>
    obtain ⟨w, r, hrun, hw⟩ := ih (s := (regWrite (.w j) b[j] { s with inputs := _ }).respond okayWrite)
      hidle rfl
    refine ⟨w, r, (run_succ (step_wrReg hidle hin) _).trans hrun, fun k => ?_⟩
    calc w[k] = if k ∈ ks then b[k] else (s.w.set j b[j])[k] := hw k
      _ = if k ∈ j :: ks then b[k] else s.w[k] := by
        rw [getElem_set_of_block]
        by_cases hk : k ∈ ks
        · simp [hk]
        · simp [hk, eq_comm]

/-! ## The accumulators block by block -/

/-- From s the host's inputs have been taken up to `rest`, and the last command has left the accumulators
h, completed with OK and touched neither OBUF nor OLEN (R158 (a)). -/
structure Hashed (s u : State) (h : Digest) (rest : List PortInput) : Prop where
  h : u.h = h
  inputs : u.inputs = rest
  seq : u.seq = .idle
  done : u.status.done = true
  code : u.status.code = .ok
  olen : u.olen = s.olen
  obuf : u.obuf = s.obuf

/-- What a command with a digest alone as its output leaves. -/
theorem hashed_commit {s s' : State} {d : Digest} (holen : s'.olen = s.olen)
    (hobuf : s'.obuf = s.obuf) :
    Hashed s (s'.commit .ok { digest := some d } none) d s'.inputs := by
  constructor <;> simp [holen, hobuf]

theorem run_shaInit {s : State} {rest : List PortInput} (hidle : s.seq = .idle)
    (hin : s.inputs = cmdInputs .shaInit ++ .quiet :: rest) :
    ∃ u, Host.Core.run core 2 s = .next u ∧ Hashed s u shaIv rest :=
  ⟨_, run_command rfl hidle hin (exec_shaInit _), hashed_commit rfl rfl⟩

/-- The inputs that hash one block: its sixteen words and SHA_BLOCK (R158 (a)). -/
def blockSteps (b : Block) : List PortInput := blockInputs b ++ cmdInputs .shaBlock ++ [.quiet]

theorem streamInputs_eq (m : List Byte) :
    streamInputs m = cmdInputs .shaInit ++ [.quiet] ++
      (List.range ((shaPad m).length / 64)).flatMap fun k => blockSteps (blockAt (shaPad m) k) := rfl

/-- One block's inputs compress it into the accumulators (R156). -/
theorem run_block {s u : State} {h : Digest} {rest : List PortInput} (b : Block)
    (hu : Hashed s u h (blockSteps b ++ rest)) :
    ∃ u', Host.Core.run core (blockSteps b).length u = .next u' ∧
      Hashed s u' (compress h b) rest := by
  have hin : u.inputs = blockInputs b ++ (cmdInputs .shaBlock ++ .quiet :: rest) := by
    simp [hu.inputs, blockSteps]
  obtain ⟨w, r, hrun, hw⟩ := run_blockWrites b (List.finRange 16) hu.seq hin
  obtain rfl : w = b := Vector.ext fun k hk => by simpa using hw ⟨k, hk⟩
  refine ⟨_, (run_add 2 hrun).trans (run_command rfl hu.seq rfl (exec_shaBlock _)), ?_⟩
  rw [State.issue_h, hu.h]
  exact hashed_commit hu.olen hu.obuf

/-- The inputs of the first n blocks of p, by induction on n (R159). -/
theorem run_blocks {s u : State} (p : List Byte) (n : Nat) {rest : List PortInput}
    (hu : Hashed s u shaIv (((List.range n).flatMap fun k => blockSteps (blockAt p k)) ++ rest)) :
    ∃ u', Host.Core.run core ((List.range n).flatMap fun k => blockSteps (blockAt p k)).length u =
        .next u' ∧ Hashed s u' (shaBlocks p n) rest := by
  induction n generalizing rest with
  | zero => exact ⟨u, rfl, hu⟩
  | succ n ih =>
    rw [List.range_succ, List.flatMap_append, List.flatMap_singleton] at hu ⊢
    rw [List.append_assoc] at hu
    obtain ⟨u₁, hrun₁, hu₁⟩ := ih hu
    obtain ⟨u₂, hrun₂, hu₂⟩ := run_block (blockAt p n) hu₁
    refine ⟨u₂, ?_, ?_⟩
    · rw [List.length_append, run_add _ hrun₁, hrun₂]
    · rw [shaBlocks, List.range_succ, List.foldl_concat]
      exact hu₂

/-! ## The statement -/

/-- Settles O35: SHA_INIT, then the blocks of the padded message in order. -/
theorem streamingEqualsShaMsg : Obligations.StreamingEqualsShaMsg := by
  intro s m rest src s' t' hidle hin hmsg hex
  cases (exec_shaMsg hmsg).symm.trans hex
  obtain ⟨u₁, hrun₁, hu₁⟩ := run_shaInit hidle (by simpa [streamInputs_eq] using hin)
  obtain ⟨u₂, hrun₂, hu₂⟩ := run_blocks (shaPad m) ((shaPad m).length / 64) hu₁
  refine ⟨u₂, ?_, hu₂.h.trans (shaMsg_h s' m).symm, hu₂.inputs, hu₂.seq, hu₂.done, hu₂.code,
    hu₂.olen, fun o => by rw [hu₂.obuf]⟩
  rw [streamInputs_eq, List.length_append]
  exact (run_add _ hrun₁).trans hrun₂

end Sys2Proof.Machine

/-! PROOFS. The statements of 42_base64.md: the alphabet (R180), the laws of the encoder (R181, R183),
B64_ENC (R182), and B64_ENC on the digest SHA_MSG leaves (00_scope.md R5 (c), program P1). -/

namespace Sys2Proof.Machine

/-! ## The encoder's text -/

/-- The padding character is no character of the alphabet (R180). -/
theorem enc6_ne_padChar (v : BitVec 6) : enc6 v ≠ padChar := by
  revert v; decide

/-- Bytes in whole groups of three are encoded by themselves (R183 (b)). -/
theorem base64_append {t : List Byte} (u : List Byte) (h : t.length % 3 = 0) :
    base64 (t ++ u) = base64 t ++ base64 u := by
  induction t using tripleInduction with
  | nil => rfl
  | one x => simp at h
  | two x y => simp at h
  | triple x y z t ih =>
    have ht : t.length % 3 = 0 := by
      simp only [List.length_cons] at h
      omega
    rw [List.cons_append, List.cons_append, List.cons_append, base64_triple, base64_triple, ih ht,
      List.append_assoc]

/-- A text is characters of the alphabet and at most two padding characters behind them (R183 (c)). -/
theorem base64_eq_chars_pads (bs : List Byte) :
    ∃ (vs : List (BitVec 6)) (k : Nat),
      base64 bs = vs.map enc6 ++ List.replicate k padChar ∧ k ≤ 2 := by
  induction bs using tripleInduction with
  | nil => exact ⟨[], 0, rfl, by decide⟩
  | one x => exact ⟨[_, _], 2, base64_one x, by decide⟩
  | two x y => exact ⟨[_, _, _], 1, base64_two x y, by decide⟩
  | triple x y z bs ih =>
    obtain ⟨vs, k, hbs, hk⟩ := ih
    obtain ⟨us, hus⟩ : ∃ us : List (BitVec 6), base64Triple x y z = us.map enc6 :=
      ⟨[_, _, _, _], rfl⟩
    refine ⟨us ++ vs, k, ?_, hk⟩
    rw [base64_triple, hus, hbs, List.map_append, List.append_assoc]

/-! ## Output bytes as a commit writes them -/

/-- A command whose only output is bytes keeps the engines' registers (R134). -/
theorem commit_enginesKept (k : ResultCode) (bs : Option (List Byte)) (s : State) :
    EnginesKept s (s.commit k { bytes := bs } none) := by
  constructor <;> simp

/-- What a command has output is the input of the next command with SRC = 1 (R103, R132). -/
theorem OutputIs.inputIs {out : List Byte} {s t : State} (h : OutputIs out s t) :
    InputIs .obuf t out :=
  ⟨h.olen.symm, fun i hi => by rw [h.obuf, dif_pos hi]⟩

/-- A second output that covers the first leaves of it nothing. -/
theorem OutputIs.trans {out out' : List Byte} {s t u : State} (h : OutputIs out s t)
    (h' : OutputIs out' t u) (hle : out.length ≤ out'.length) : OutputIs out' s u := by
  refine ⟨h'.olen, fun o => ?_⟩
  rw [h'.obuf]
  split
  · rfl
  · rw [h.obuf, dif_neg (by omega)]

/-- The digest bytes SHA_MSG leaves (R157). -/
theorem shaMsg_output (s : State) (m : List Byte) :
    OutputIs (digestBytes (sha1 m)) s (s.commit .ok (shaMsgOutputs m) none) :=
  commit_output rfl (by rw [digestBytes_length]; decide) none s

/-! ## The statements -/

/-- Settles O36: the 64 characters, one by one. -/
theorem base64Alphabet : Obligations.Base64Alphabet := by
  refine ⟨by decide +kernel, ?_, rfl⟩
  decide

/-- Settles O37: the encoder's laws. -/
theorem base64Laws : Obligations.Base64Laws := by
  refine ⟨base64_length, fun t u => base64_append u, fun x y z => base64_triple x y z [], base64_one,
    base64_two, fun s i h => ?_, enc6_ne_padChar⟩
  obtain ⟨vs, k, hs, hk⟩ := base64_eq_chars_pads s
  have hlen : (base64 s).length = vs.length + k := by simp [hs]
  by_cases hi : i < vs.length
  · left
    refine ⟨vs[i], ?_⟩
    simp [hs, hi]
  · right
    refine ⟨?_, by omega⟩
    simp only [hs]
    rw [List.getElem_append_right (by simpa using hi), List.getElem_replicate]
    rfl

/-- Settles O38: B64_ENC over its input is a commit of the text, or of OUT_OVERFLOW. -/
theorem base64EncodesInput : Obligations.Base64EncodesInput := by
  refine fun src s => ⟨fun bs hin => ⟨fun hlegal hfit => ?_, fun hover => ?_⟩, fun hlong => ?_⟩
  · have hobuf := (legal_bounds hlegal).2.1.2
    have hlen : (base64 bs).length = 4 * ((bs.length + 2) / 3) := base64_length bs
    have hout := commit_output (o := { bytes := some (base64 bs) }) rfl (by omega) none s
    exact ⟨_, exec_b64Enc_fits hin hfit, commit_frame _ _ _ _, commit_completed _ _ _ _,
      commit_enginesKept _ _ _, hout, hout.olen.trans hlen⟩
  · exact endsWithStatusOnly_of_raise (by decide) (exec_b64Enc_overflow hin hover)
  · exact endsWithStatusOnly_of_raise (by decide) (withInput_of_tooLong hlong)

/-- Settles O39: the digest SHA_MSG leaves is the input of B64_ENC. -/
theorem digestThenBase64 : Obligations.DigestThenBase64 := by
  intro src s m t hlegal hin hex
  cases (exec_shaMsg hin).symm.trans hex
  have hobuf := (legal_bounds hlegal).2.1.1
  have hdigest := digestBytes_length (sha1 m)
  have hsha := shaMsg_output s m
  have hlen : (base64 (digestBytes (sha1 m))).length = 28 := by
    rw [base64_length, hdigest]
    rfl
  have hfit : base64Length (digestBytes (sha1 m)).length ≤
      (s.commit .ok (shaMsgOutputs m) none).params.obufBytes := by
    rw [← base64_length, hlen, State.commit_params]
    omega
  have hout := commit_output (o := { bytes := some (base64 (digestBytes (sha1 m))) }) rfl
    (by omega) none (s.commit .ok (shaMsgOutputs m) none)
  have hboth := hsha.trans hout (by omega)
  refine ⟨_, exec_b64Enc_fits hsha.inputIs hfit, commit_completed _ _ _ _, ?_, ?_, hboth⟩
  · exact (commit_enginesKept _ _ _).h.trans (shaMsg_h s m)
  · exact BitVec.eq_of_toNat_eq (hout.olen.trans hlen)

end Sys2Proof.Machine

/-! PROOFS. The first statement of 43_frame_decoder.md: the ends of FD_DECODE check by check (R205,
R206), the registers it leaves, and that bytes behind the input change no decoding but an INCOMPLETE
one (R208). -/

namespace Sys2Proof.Machine

/-! ## The decoder's ends, one equation each -/

/-- A frame passes the MASK check where MASK = 1 or the mode is lenient (R207). -/
theorem not_refused {lenient : Bool} {b1 : Byte} (h : maskBit b1 = true ∨ lenient = true) :
    (!maskBit b1 && !lenient) = false := by
  rcases h with h | h <;> simp [h]

section ends
variable {lenient : Bool} {maxPayload : Nat} {b0 b1 : Byte} {rest : List Byte}

theorem fdDecode_short {src : List Byte} (h : src.length < 2) :
    fdDecode lenient maxPayload src = fdStop .incomplete FdRegs.zero := by
  match src with
  | [] => rfl
  | [_] => rfl
  | _ :: _ :: _ => simp at h

theorem fdDecode_reserved (h1 : reservedOpcode (frameOpcode b0) = true) :
    fdDecode lenient maxPayload (b0 :: b1 :: rest) =
      fdStop .protoOpcode (fdRegs (fdHeader b0 b1 1) 0 0) := by
  simp [fdDecode, h1]

variable (h1 : reservedOpcode (frameOpcode b0) = false)
include h1

theorem fdDecode_unmasked (h2 : maskBit b1 = false ∧ lenient = false) :
    fdDecode lenient maxPayload (b0 :: b1 :: rest) =
      fdStop .protoUnmasked (fdRegs (fdHeader b0 b1 1) 0 0) := by
  simp [fdDecode, h1, h2]

variable (h2 : maskBit b1 = true ∨ lenient = true)
include h2

theorem fdDecode_lengthMissing (h3 : (b0 :: b1 :: rest).length < 2 + extLength (baseLength b1)) :
    fdDecode lenient maxPayload (b0 :: b1 :: rest) =
      fdStop .incomplete (fdRegs (fdHeader b0 b1 1) 0 0) := by
  simp only [fdDecode, h1, not_refused h2, Bool.false_eq_true, if_false]
  rw [if_pos h3]

variable (h3 : 2 + extLength (baseLength b1) ≤ (b0 :: b1 :: rest).length)
include h3

theorem fdDecode_tooLong (h4 : maxPayload < payloadLength (baseLength b1) (b0 :: b1 :: rest)) :
    fdDecode lenient maxPayload (b0 :: b1 :: rest) = fdStop .protoTooLong
      (fdRegs (fdHeader b0 b1 2) (payloadLength (baseLength b1) (b0 :: b1 :: rest)) 0) := by
  simp only [fdDecode, h1, not_refused h2, Bool.false_eq_true, if_false]
  rw [if_neg (by omega), if_pos h4]

variable (h4 : payloadLength (baseLength b1) (b0 :: b1 :: rest) ≤ maxPayload)
include h4

theorem fdDecode_keyMissing (h5 : (b0 :: b1 :: rest).length < headerLength b1) :
    fdDecode lenient maxPayload (b0 :: b1 :: rest) = fdStop .incomplete
      (fdRegs (fdHeader b0 b1 2) (payloadLength (baseLength b1) (b0 :: b1 :: rest)) 0) := by
  simp only [fdDecode, h1, not_refused h2, Bool.false_eq_true, if_false]
  rw [if_neg (by omega), if_neg (by omega), if_pos h5]

omit h3 in
theorem fdDecode_payloadMissing (h5 : headerLength b1 ≤ (b0 :: b1 :: rest).length)
    (h6 : (b0 :: b1 :: rest).length <
      headerLength b1 + payloadLength (baseLength b1) (b0 :: b1 :: rest)) :
    fdDecode lenient maxPayload (b0 :: b1 :: rest) = fdStop .incomplete
      (fdRegs (fdHeader b0 b1 3) (payloadLength (baseLength b1) (b0 :: b1 :: rest))
        (if maskBit b1 then be32 (b0 :: b1 :: rest) (2 + extLength (baseLength b1)) else 0)) := by
  have hge := headerLength_ge b1
  simp only [fdDecode, h1, not_refused h2, Bool.false_eq_true, if_false]
  rw [if_neg (by omega), if_neg (by omega), if_neg (by omega), if_pos h6]

end ends

/-- A sequence whose bytes 0 and 1 are given. -/
theorem exists_cons_cons {bs : List Byte} {b0 b1 : Byte} (h0 : bs[0]? = some b0)
    (h1 : bs[1]? = some b1) : ∃ rest, bs = b0 :: b1 :: rest := by
  match bs with
  | [] => simp at h0
  | [_] => simp at h1
  | c0 :: c1 :: rest => exact ⟨rest, by simp_all⟩

/-! ## What FD_DECODE commits -/

/-- The state after a legal FD_DECODE with the given decoding (R205, R206). -/
def State.afterDecoding (s : State) (r : FdResult) : State :=
  s.commit r.code { bytes := some r.payload } (some r.regs)

theorem exec_fdDecode_eq {src : Src} {s : State} {bs : List Byte} (h : InputIs src s bs) :
    exec (.fdDecode src) s =
      .next (s.afterDecoding (fdDecode s.ctrl.lenientUnmasked s.maxPayload.toNat bs)) :=
  exec_fdDecode h

section afterDecoding
variable (s : State) (r : FdResult)

@[simp] theorem State.afterDecoding_params : (s.afterDecoding r).params = s.params := by
  simp [State.afterDecoding]

@[simp] theorem State.afterDecoding_fd : (s.afterDecoding r).fd = r.regs := by
  simp [State.afterDecoding]

@[simp] theorem State.afterDecoding_code : (s.afterDecoding r).status.code = r.code := by
  simp [State.afterDecoding]

theorem afterDecoding_frame : CommandFrame s (s.afterDecoding r) := commit_frame _ _ _ _

theorem afterDecoding_completed : Completed r.code (s.afterDecoding r) := commit_completed _ _ _ _

end afterDecoding

/-- On OK the payload is output (R206). -/
theorem afterDecoding_output {r : FdResult} (hok : r.code = .ok) (hlen : r.payload.length < 2 ^ 32)
    (s : State) : OutputIs r.payload s (s.afterDecoding r) := by
  rw [State.afterDecoding, hok]
  exact commit_output rfl hlen _ _

/-- On OK two states with the same decoding have the same OLEN and the same bytes below it. -/
theorem afterDecoding_output_eq {r : FdResult} (hok : r.code = .ok) (s s' : State) :
    (s'.afterDecoding r).olen = (s.afterDecoding r).olen ∧
      ∀ o, o < (s.afterDecoding r).olen.toNat →
        (s'.afterDecoding r).obuf.get? o = (s.afterDecoding r).obuf.get? o := by
  have holen : (s'.afterDecoding r).olen = (s.afterDecoding r).olen := by
    simp [State.afterDecoding, hok]
  refine ⟨holen, fun o ho => ?_⟩
  have ho' := holen ▸ ho
  unfold State.afterDecoding at ho ho' ⊢
  rw [hok] at ho ho' ⊢
  rw [commit_obuf_get? rfl _ ho, commit_obuf_get? rfl _ ho']

/-- A decoding that ends with a code other than OK (R135, R206). -/
theorem decoderStops_of_fdStop {src : Src} {s : State} {bs : List Byte} {k : ResultCode}
    {r : FdRegs} (hin : InputIs src s bs) (hk : k ≠ .ok)
    (h : fdDecode s.ctrl.lenientUnmasked s.maxPayload.toNat bs = fdStop k r) :
    DecoderStops src s k r := by
  have hex := exec_fdDecode_eq hin
  rw [h] at hex
  obtain ⟨hh, hw, hout⟩ := commit_no_output hk { bytes := some [] } (some r) s
  exact ⟨_, hex, afterDecoding_frame _ _, commit_completed k _ _ s, State.afterDecoding_fd _ _,
    hh, hw, hout⟩

/-- A decoding that ends with OK; its payload is at most MAX_PAYLOAD long (R205, R206). -/
theorem decoderDelivers_of_ok {src : Src} {s : State} {bs : List Byte} {r : FdResult}
    (hin : InputIs src s bs) (hok : r.code = .ok)
    (h : fdDecode s.ctrl.lenientUnmasked s.maxPayload.toNat bs = r) :
    DecoderDelivers src s r.payload r.regs := by
  have hex := exec_fdDecode_eq hin
  have hlen : r.payload.length ≤ s.maxPayload.toNat := h ▸ fdDecode_payload_length (h ▸ hok)
  rw [h] at hex
  refine ⟨_, hex, afterDecoding_frame _ _, hok ▸ afterDecoding_completed _ _,
    State.afterDecoding_fd _ _, ?_, ?_, afterDecoding_output hok (hlen.trans_lt s.maxPayload.isLt) s⟩
  · simp [State.afterDecoding]
  · simp [State.afterDecoding]

/-! ## Header fields in the rule's own numbers (R200 to R203, R206) -/

theorem headerLength_eq (b1 : Byte) :
    headerLength b1 = 2 + extLength (b1.toNat % 128) + if 128 ≤ b1.toNat then 4 else 0 := by
  simp only [headerLength, baseLength_eq, maskBit_eq, decide_eq_true_eq]

theorem fdRegs_fdHeader_eq (b0 b1 : Byte) (stage : BitVec 2) (plen : Nat) (key : Word) :
    fdRegs (fdHeader b0 b1 stage) plen key =
      { hdr := { b0 := b0, b1 := b1, hlen := BitVec.ofNat 4 (headerLength b1),
                 close := decide (b0.toNat % 16 = 8), stage := stage }
        plenLo := BitVec.ofNat 32 plen
        plenHi := BitVec.ofNat 32 (plen / 2 ^ 32)
        maskkey := key } := by
  have hclose : decide (frameOpcode b0 = 0x8) = decide (b0.toNat % 16 = 8) := by
    rw [decide_eq_decide, ← BitVec.toNat_inj, frameOpcode_toNat]
    rfl
  rw [fdRegs, fdHeader, hclose, Nat.shiftRight_eq_div_pow]

theorem reservedOpcode_frameOpcode_iff (b0 : Byte) : reservedOpcode (frameOpcode b0) = true ↔
    (0x3 ≤ b0.toNat % 16 ∧ b0.toNat % 16 ≤ 0x7) ∨ 0xB ≤ b0.toNat % 16 := by
  rw [reservedOpcode_iff, frameOpcode_toNat]

/-! ## Bytes behind the input -/

/-- A decoding that does not end with INCOMPLETE is not changed by bytes behind its input (R208). -/
theorem fdDecode_append {lenient : Bool} {maxPayload : Nat} {x : List Byte} (y : List Byte)
    (h : (fdDecode lenient maxPayload x).code ≠ .incomplete) :
    fdDecode lenient maxPayload (x ++ y) = fdDecode lenient maxPayload x := by
  match x, h with
  | [], h => simp [fdDecode, fdStop] at h
  | [_], h => simp [fdDecode, fdStop] at h
  | b0 :: b1 :: rest, h =>
    by_cases h1 : reservedOpcode (frameOpcode b0) = true
    · exact (fdDecode_reserved h1).trans (fdDecode_reserved h1).symm
    replace h1 := Bool.not_eq_true _ ▸ h1
    by_cases h2 : maskBit b1 = true ∨ lenient = true
    case neg =>
      have h2 : maskBit b1 = false ∧ lenient = false := by simpa using h2
      exact (fdDecode_unmasked h1 h2).trans (fdDecode_unmasked h1 h2).symm
    by_cases h3 : 2 + extLength (baseLength b1) ≤ (b0 :: b1 :: rest).length
    case neg =>
      rw [fdDecode_lengthMissing h1 h2 (Nat.not_le.mp h3)] at h
      exact absurd rfl h
    have hlen : (b0 :: b1 :: (rest ++ y)).length = (b0 :: b1 :: rest).length + y.length := by
      simp [Nat.add_right_comm]
    have hplen : payloadLength (baseLength b1) (b0 :: b1 :: (rest ++ y)) =
      payloadLength (baseLength b1) (b0 :: b1 :: rest) := payloadLength_append h3
    by_cases h4 : payloadLength (baseLength b1) (b0 :: b1 :: rest) ≤ maxPayload
    case neg =>
      rw [fdDecode_tooLong h1 h2 h3 (Nat.not_le.mp h4), List.cons_append, List.cons_append,
        fdDecode_tooLong h1 h2 (by omega) (by omega), hplen]
    by_cases h5 : headerLength b1 ≤ (b0 :: b1 :: rest).length
    case neg =>
      rw [fdDecode_keyMissing h1 h2 h3 h4 (Nat.not_le.mp h5)] at h
      exact absurd rfl h
    by_cases h6 : headerLength b1 + payloadLength (baseLength b1) (b0 :: b1 :: rest) ≤
        (b0 :: b1 :: rest).length
    case neg =>
      rw [fdDecode_payloadMissing h1 h2 h4 h5 (Nat.not_le.mp h6)] at h
      exact absurd rfl h
    have hkey : (if maskBit b1 then be32 (b0 :: b1 :: (rest ++ y)) (2 + extLength (baseLength b1))
        else 0) =
        if maskBit b1 then be32 (b0 :: b1 :: rest) (2 + extLength (baseLength b1)) else 0 := by
      split
      case isTrue hm => exact be32_append (headerLength_masked hm ▸ h5)
      case isFalse => rfl
    rw [fdDecode_eq_ok h1 h2 h4 h6, List.cons_append, List.cons_append,
      fdDecode_eq_ok h1 h2 (by omega) (by omega), hplen, hkey, ← unmask_append (tail := y) _ h6]
    rfl

/-! ## The statements -/

/-- Settles O40: each end of the decoder is its equation, in the rule's numbers. -/
theorem frameDecoderOutcomes : Obligations.FrameDecoderOutcomes := by
  refine fun src s => ⟨fun hlong => ?_, fun bs hin => ⟨fun hshort => ?_, fun b0 b1 h0 h1 => ?_⟩⟩
  · obtain ⟨hh, hw, hout⟩ := commit_no_output (k := .badLength) (by decide) {} (some FdRegs.zero) s
    exact ⟨_, exec_fdDecode_tooLong hlong, commit_frame _ _ _ _, commit_completed _ _ _ _, rfl,
      hh, hw, hout⟩
  · exact decoderStops_of_fdStop hin (by decide) (fdDecode_short hshort)
  obtain ⟨rest, rfl⟩ := exists_cons_cons h0 h1
  intro opc masked l7 x hlen plen key regs reserved refused
  have hx : x = extLength (baseLength b1) := by rw [baseLength_eq]; rfl
  have hhlen : hlen = headerLength b1 := (headerLength_eq b1).symm
  have hplen : plen = payloadLength (baseLength b1) (b0 :: b1 :: rest) := by rw [baseLength_eq]; rfl
  have hkey : key =
      if maskBit b1 then be32 (b0 :: b1 :: rest) (2 + extLength (baseLength b1)) else 0 := by
    rw [← hx, maskBit_eq]
    simp only [decide_eq_true_eq]
    rfl
  have hregs : ∀ stage plen key, regs stage plen key = fdRegs (fdHeader b0 b1 stage) plen key := by
    intro stage plen key
    rw [fdRegs_fdHeader_eq, ← hhlen]
  have hres : ¬ reserved → reservedOpcode (frameOpcode b0) = false := fun h =>
    Bool.not_eq_true _ ▸ mt (reservedOpcode_frameOpcode_iff b0).mp h
  have href : refused ↔ maskBit b1 = false ∧ s.ctrl.lenientUnmasked = false := by
    rw [maskBit_eq, decide_eq_false_iff_not]
  have hacc : ¬ refused → maskBit b1 = true ∨ s.ctrl.lenientUnmasked = true := by
    rw [href, not_and_or, Bool.not_eq_false, Bool.not_eq_false]
    exact id
  simp only [hregs, hhlen, hplen, hkey, hx]
  refine ⟨fun hr => decoderStops_of_fdStop hin (by decide)
      (fdDecode_reserved ((reservedOpcode_frameOpcode_iff b0).mpr hr)),
    fun hr hu => decoderStops_of_fdStop hin (by decide) (fdDecode_unmasked (hres hr) (href.mp hu)),
    fun hr hu h3 => decoderStops_of_fdStop hin (by decide)
      (fdDecode_lengthMissing (hres hr) (hacc hu) h3),
    fun hr hu h3 h4 => decoderStops_of_fdStop hin (by decide)
      (fdDecode_tooLong (hres hr) (hacc hu) h3 h4),
    fun hr hu h3 h4 h5 => decoderStops_of_fdStop hin (by decide)
      (fdDecode_keyMissing (hres hr) (hacc hu) h3 h4 h5),
    fun hr hu h5 h4 h6 => decoderStops_of_fdStop hin (by decide)
      (fdDecode_payloadMissing (hres hr) (hacc hu) h4 h5 h6),
    fun hr hu h6 h4 => decoderDelivers_of_ok hin rfl
      (fdDecode_eq_ok (hres hr) (hacc hu) h4 h6)⟩

end Sys2Proof.Machine

/-! PROOFS. The remaining statements of 43_frame_decoder.md: the XOR mask (R204), LENIENT_UNMASKED
(R207), bytes behind the input (R208) and the extent of a frame (R209). -/

namespace Sys2Proof.Machine

/-! ## The XOR mask -/

/-- Byte i of an unmasked payload (R204). -/
theorem unmask_getD {raw : List Byte} {hlen plen i : Nat} (key : Word) (h : hlen + plen ≤ raw.length)
    (hi : i < plen) :
    (unmask raw hlen plen key).getD i 0 = raw.getD (hlen + i) 0 ^^^ keyByte key i := by
  have hlt : i < (xorMask key 0 ((raw.drop hlen).take plen)).length := by
    rw [← unmask, unmask_length key h]
    exact hi
  rw [unmask, List.getD_eq_getElem _ _ hlt, List.getD_eq_getElem _ _ (by omega), xorMask_getElem,
    Nat.zero_add, List.getElem_take, List.getElem_drop]

/-- With a zero key the payload is the raw bytes (R204). -/
theorem unmask_zero (raw : List Byte) (hlen plen : Nat) :
    unmask raw hlen plen 0 = (raw.drop hlen).take plen := xorMask_zero _ _

/-- Unmasking is its own inverse (R204). -/
theorem unmask_unmask {raw : List Byte} {hlen plen : Nat} (key : Word)
    (h : hlen + plen ≤ raw.length) :
    unmask (unmask raw hlen plen key) 0 plen key = (raw.drop hlen).take plen := by
  rw [unmask, List.drop_zero, List.take_of_length_le (unmask_length key h).le, unmask,
    xorMask_xorMask]

/-! ## LENIENT_UNMASKED -/

/-- For a frame with MASK = 1 the mode does not matter (R207). -/
theorem fdDecode_masked (lenient lenient' : Bool) (maxPayload : Nat) {b0 b1 : Byte}
    (rest : List Byte) (h : maskBit b1 = true) :
    fdDecode lenient maxPayload (b0 :: b1 :: rest) =
      fdDecode lenient' maxPayload (b0 :: b1 :: rest) := by
  simp [fdDecode, h]

theorem afterDecoding_withCtrl (s : State) (c : Ctrl) (r : FdResult) :
    { s with ctrl := c }.afterDecoding r = { s.afterDecoding r with ctrl := c } := by
  unfold State.afterDecoding State.commit
  split <;> rfl

/-- The byte of an input that is not the empty or one-byte sequence. -/
theorem exists_cons_of_getElem?_one {bs : List Byte} {b1 : Byte} (h : bs[1]? = some b1) :
    ∃ b0 rest, bs = b0 :: b1 :: rest := by
  have hlt : 1 < bs.length := (List.getElem?_eq_some_iff.mp h).1
  obtain ⟨rest, hbs⟩ := exists_cons_cons (List.getElem?_eq_getElem (Nat.zero_lt_of_lt hlt)) h
  exact ⟨_, rest, hbs⟩

/-- A header without mask key (R203). -/
theorem headerLength_unmasked {b1 : Byte} (h : maskBit b1 = false) :
    headerLength b1 = 2 ∨ headerLength b1 = 4 ∨ headerLength b1 = 10 := by
  rcases extLength_cases (baseLength b1) with hx | hx | hx <;> simp [headerLength, h, hx]

theorem fdHeader_hlen_toNat (b0 b1 : Byte) (stage : BitVec 2) :
    (fdHeader b0 b1 stage).hlen.toNat = headerLength b1 :=
  Nat.mod_eq_of_lt (headerLength_lt b1).2

/-! ## The extent of a frame -/

/-- The payload length the two length registers hold (R33). -/
def FdRegs.plen (r : FdRegs) : Nat := r.plenLo.toNat + 2 ^ 32 * r.plenHi.toNat

/-- The number of bytes of the frame: its header and its payload (R209). -/
def FdRegs.extent (r : FdRegs) : Nat := r.hdr.hlen.toNat + r.plen

theorem fdRegs_plen (hdr : FdHdr) {plen : Nat} (key : Word) (h : plen < 2 ^ 64) :
    (fdRegs hdr plen key).plen = plen := by
  simp only [FdRegs.plen, fdRegs, BitVec.toNat_ofNat, Nat.shiftRight_eq_div_pow]
  omega

theorem fdRegs_extent (b0 b1 : Byte) (stage : BitVec 2) {plen : Nat} (key : Word)
    (h : plen < 2 ^ 64) :
    (fdRegs (fdHeader b0 b1 stage) plen key).extent = headerLength b1 + plen := by
  rw [FdRegs.extent, fdRegs_plen _ _ h]
  exact congrArg (· + plen) (fdHeader_hlen_toNat b0 b1 stage)

/-- The first `hlen + plen` bytes of a frame that is accepted are accepted (R209). -/
theorem fdDecode_take_extent {lenient : Bool} {maxPayload : Nat} {b0 b1 : Byte} {rest : List Byte}
    (h1 : reservedOpcode (frameOpcode b0) = false) (h2 : maskBit b1 = true ∨ lenient = true)
    (h4 : payloadLength (baseLength b1) (b0 :: b1 :: rest) ≤ maxPayload)
    (h6 : headerLength b1 + payloadLength (baseLength b1) (b0 :: b1 :: rest) ≤
      (b0 :: b1 :: rest).length) :
    (fdDecode lenient maxPayload ((b0 :: b1 :: rest).take
      (headerLength b1 + payloadLength (baseLength b1) (b0 :: b1 :: rest)))).code = .ok := by
  have hge := headerLength_ge b1
  generalize hn : headerLength b1 + payloadLength (baseLength b1) (b0 :: b1 :: rest) = n at h6 ⊢
  have hlen : ((b0 :: b1 :: rest).take n).length = n := List.length_take_of_le h6
  have hplen : payloadLength (baseLength b1) (b0 :: b1 :: rest) =
      payloadLength (baseLength b1) ((b0 :: b1 :: rest).take n) := by
    conv_lhs => rw [← List.take_append_drop n (b0 :: b1 :: rest)]
    exact payloadLength_append (by omega)
  obtain ⟨rest', hrest'⟩ : ∃ rest', (b0 :: b1 :: rest).take n = b0 :: b1 :: rest' :=
    exists_cons_cons (by rw [List.getElem?_take_of_lt (by omega)]; rfl)
      (by rw [List.getElem?_take_of_lt (by omega)]; rfl)
  rw [hrest'] at hlen hplen ⊢
  rw [fdDecode_eq_ok h1 h2 (by omega) (by omega)]

/-- What a decoding that ends with OK says of its payload and its extent (R209). -/
theorem fdDecode_ok_extent {lenient : Bool} {maxPayload : Nat} {bs : List Byte}
    (h : (fdDecode lenient maxPayload bs).code = .ok) :
    (fdDecode lenient maxPayload bs).payload.length =
        (fdDecode lenient maxPayload bs).regs.plen ∧
      (fdDecode lenient maxPayload bs).regs.extent ≤ bs.length ∧
      (fdDecode lenient maxPayload
        (bs.take (fdDecode lenient maxPayload bs).regs.extent)).code = .ok := by
  obtain ⟨b0, b1, rest, rfl, h1, h2, h4, h6, heq⟩ := fdDecode_ok h
  have hlt := payloadLength_lt b1 (b0 :: b1 :: rest)
  rw [heq]
  simp only [fdRegs_plen _ _ hlt, fdRegs_extent _ _ _ _ hlt]
  exact ⟨unmask_length _ h6, h6, fdDecode_take_extent h1 h2 h4 h6⟩

/-! ## The statements -/

/-- Settles O41: the XOR mask by bytes, with a zero key, and twice. -/
theorem unmaskIsItsOwnInverse : Obligations.UnmaskIsItsOwnInverse :=
  fun _ _ _ key h => ⟨unmask_length key h, fun _ => unmask_getD key h, unmask_zero _ _ _,
    unmask_unmask key h⟩

/-- Settles O42: with MASK = 1 the decoding is the same in both modes, and with MASK = 0 an accepted
frame has no key. -/
theorem lenientModeOnlyForUnmasked : Obligations.LenientModeOnlyForUnmasked := by
  intro src s bs b1 hin h1
  obtain ⟨b0, rest, rfl⟩ := exists_cons_of_getElem?_one h1
  refine ⟨fun hmask lenient t hex => ?_, fun hmask t hex hok => ?_⟩
  · have hm : maskBit b1 = true := by rw [maskBit_eq]; exact decide_eq_true hmask
    cases (exec_fdDecode_eq hin).symm.trans hex
    have hin' : InputIs src { s with ctrl := { s.ctrl with lenientUnmasked := lenient } }
        (b0 :: b1 :: rest) := by cases src <;> exact hin
    rw [exec_fdDecode_eq hin', afterDecoding_withCtrl, fdDecode_masked _ s.ctrl.lenientUnmasked _ _ hm]
  · have hm : maskBit b1 = false := by rw [maskBit_eq, decide_eq_false_iff_not]; omega
    cases (exec_fdDecode_eq hin).symm.trans hex
    rw [State.afterDecoding_code] at hok
    have hfits := (fdDecode_payload_length hok).trans_lt s.maxPayload.isLt
    obtain ⟨_, _, _, ⟨⟩, -, hacc, -, h6, heq⟩ := fdDecode_ok hok
    rw [hm, if_neg Bool.false_ne_true, unmask_zero] at heq
    rw [heq] at hfits ⊢
    have hout := afterDecoding_output rfl hfits s
    rw [State.afterDecoding_fd]
    refine ⟨hacc.resolve_left (by simp [hm]), rfl, ?_, fun o ho => ?_⟩
    · show BitVec.ofNat 4 (headerLength b1) = 2 ∨ BitVec.ofNat 4 (headerLength b1) = 4 ∨
        BitVec.ofNat 4 (headerLength b1) = 10
      rcases headerLength_unmasked hm with h | h | h <;> simp [h]
    · have ho' := hout.olen ▸ ho
      rw [hout.obuf, dif_pos ho', List.getElem_take, List.getElem_drop, ← List.getElem?_eq_getElem]
      exact congrArg (fun k => (b0 :: b1 :: rest)[k + o]?) (fdHeader_hlen_toNat b0 b1 3).symm

/-- Settles O43: bytes behind its input do not change a decoding that is not INCOMPLETE. -/
theorem decoderPrefixLaw : Obligations.DecoderPrefixLaw := by
  intro src src' s s' t t' x y hctrl hmax hin hin' hex hex'
  cases (exec_fdDecode_eq hin).symm.trans hex
  cases (exec_fdDecode_eq hin').symm.trans hex'
  rw [hctrl, hmax]
  have happend := fdDecode_append (lenient := s.ctrl.lenientUnmasked)
    (maxPayload := s.maxPayload.toNat) (x := x) y
  simp only [State.afterDecoding_code, State.afterDecoding_fd]
  refine ⟨fun hok => ?_, fun hproto => ?_, fun hinc => ?_⟩
  · rw [happend (by simp [hok])]
    exact ⟨hok, rfl, afterDecoding_output_eq hok s s'⟩
  · rw [happend]
    rintro hinc
    simp [hinc] at hproto
  · by_contra hne
    rw [happend hne] at hinc
    exact hne hinc

/-- Settles O44: the decoding of the extent alone is OK, so it is that of any input it begins. -/
theorem frameExtent : Obligations.FrameExtent := by
  intro src s t bs hin hex hok
  cases (exec_fdDecode_eq hin).symm.trans hex
  rw [State.afterDecoding_code] at hok
  obtain ⟨hlen, hext, htake⟩ := fdDecode_ok_extent hok
  have hfits := (fdDecode_payload_length hok).trans_lt s.maxPayload.isLt
  intro plen extent
  have hplen : plen = (fdDecode s.ctrl.lenientUnmasked s.maxPayload.toNat bs).regs.plen := by
    rw [← State.afterDecoding_fd s (fdDecode _ _ _)]; rfl
  have hextent : extent = (fdDecode s.ctrl.lenientUnmasked s.maxPayload.toNat bs).regs.extent := by
    rw [← State.afterDecoding_fd s (fdDecode _ _ _)]; rfl
  rw [hextent, hplen]
  have hsame : ∀ y, fdDecode s.ctrl.lenientUnmasked s.maxPayload.toNat
      (bs.take (fdDecode s.ctrl.lenientUnmasked s.maxPayload.toNat bs).regs.extent ++ y) =
      fdDecode s.ctrl.lenientUnmasked s.maxPayload.toNat bs := by
    intro y
    rw [fdDecode_append y (by simp [htake])]
    conv_rhs => rw [← List.take_append_drop
      (fdDecode s.ctrl.lenientUnmasked s.maxPayload.toNat bs).regs.extent bs]
    exact (fdDecode_append _ (by simp [htake])).symm
  refine ⟨hext, (afterDecoding_output hok hfits s).olen.trans hlen, fun src' s' y hctrl hmax hin' => ?_⟩
  refine ⟨_, exec_fdDecode_eq hin', ?_⟩
  rw [hctrl, hmax, hsame y, State.afterDecoding_code, State.afterDecoding_fd, State.afterDecoding_fd]
  exact ⟨hok, rfl, afterDecoding_output_eq hok s s'⟩

end Sys2Proof.Machine

/-! PROOFS. The statements of 44_frame_encoder.md: the length multiplexer (R231), FE_ENCODE (R232), and
the round trips of a frame through the decoder and the encoder (R233, R234). -/

namespace Sys2Proof.Machine

/-! ## The length multiplexer's three forms (R231) -/

theorem lenhdr_short {n : Nat} (h : n ≤ 125) : lenhdr n = [BitVec.ofNat 8 n] := if_pos h

theorem lenhdr_medium {n : Nat} (h : 125 < n) (h' : n ≤ 65535) : lenhdr n = 126 :: bytesBE n 2 := by
  rw [lenhdr, if_neg (by omega), if_pos h']

theorem lenhdr_long {n : Nat} (h : 65535 < n) : lenhdr n = 127 :: bytesBE n 8 := by
  rw [lenhdr, if_neg (by omega), if_neg (by omega)]

/-! ## The parts of a frame, read back -/

/-- The decoder's length rule reads the length back, whatever stands before and behind the length's own
bytes (R202, R231). -/
theorem payloadLength_lenhdr {n : Nat} (hn : n < 2 ^ 64) {b : Byte} {ext : List Byte}
    (h : lenhdr n = b :: ext) (b0 b1 : Byte) (tail : List Byte) :
    payloadLength b.toNat (b0 :: b1 :: (ext ++ tail)) = n := by
  obtain ⟨b', ext', heq, -, hlen, hnil, hcons⟩ := lenhdr_eq n
  cases h.symm.trans heq
  unfold payloadLength
  rw [hlen]
  split
  case isTrue hzero => exact hnil (List.length_eq_zero_iff.mp hzero)
  case isFalse hpos =>
    rw [List.drop_succ_cons, List.drop_succ_cons, List.drop_zero, List.take_left]
    exact hcons (mt List.length_eq_zero_iff.mpr hpos) hn

/-- Byte 0 of an encoded frame has the frame opcode in its low bits (R200, R230). -/
theorem frameOpcode_frameByte0 (opc : BitVec 4) : frameOpcode (frameByte0 opc) = opc :=
  frameByte0_opcode opc

/-- Byte 1 of the masked client frame has MASK = 1 and the base length of the encoder's (R233). -/
theorem maskBit_baseLength_or {b : Byte} (h : b.toNat < 128) :
    maskBit (0x80 ||| b) = true ∧ baseLength (0x80 ||| b) = b.toNat := by
  revert b; decide

/-- A big-endian word is read back where it stands (R9). -/
theorem be32_bytesBE {pre : List Byte} {n : Nat} (h : pre.length = n) (key : Word)
    (tail : List Byte) : be32 (pre ++ (bytesBE key.toNat 4 ++ tail)) n = key := by
  rw [be32, List.drop_left' h, List.take_left' (bytesBE_length _ _), beValue_bytesBE]
  apply BitVec.eq_of_toNat_eq
  rw [BitVec.toNat_ofNat, Nat.mod_mod]
  exact Nat.mod_eq_of_lt key.isLt

/-! ## Frames the decoder accepts -/

/-- A header of the length its byte 1 says, and behind it a payload of the length it says, is accepted
(R205). -/
theorem fdDecode_header_payload {lenient : Bool} {maxPayload : Nat} {b0 b1 : Byte}
    {mid q : List Byte} {key : Word}
    (hopc : reservedOpcode (frameOpcode b0) = false) (hacc : maskBit b1 = true ∨ lenient = true)
    (hhlen : headerLength b1 = 2 + mid.length)
    (hplen : payloadLength (baseLength b1) (b0 :: b1 :: (mid ++ q)) = q.length)
    (hkey : (if maskBit b1 then be32 (b0 :: b1 :: (mid ++ q)) (2 + extLength (baseLength b1)) else 0) =
      key)
    (hmax : q.length ≤ maxPayload) :
    fdDecode lenient maxPayload (b0 :: b1 :: (mid ++ q)) =
      { code := .ok, regs := fdRegs (fdHeader b0 b1 3) q.length key, payload := xorMask key 0 q } := by
  have hsize : (b0 :: b1 :: (mid ++ q)).length = 2 + mid.length + q.length := by
    simp only [List.length_cons, List.length_append]
    omega
  have hpre : (b0 :: b1 :: mid).length = 2 + mid.length := Nat.add_comm _ 2
  have hpay : unmask (b0 :: b1 :: (mid ++ q)) (2 + mid.length) q.length key = xorMask key 0 q := by
    rw [unmask, ← List.cons_append, ← List.cons_append, List.drop_left' hpre, List.take_length]
  rw [fdDecode_eq_ok hopc hacc (by omega) (by omega), hplen, hkey, hhlen, hpay]

section frames
variable {lenient : Bool} {maxPayload : Nat} {opc : BitVec 4} {p : List Byte}
variable (hopc : reservedOpcode opc = false)
include hopc

/-- In strict mode the encoder's own frame ends with PROTO_UNMASKED (R207, R234 (b)). -/
theorem fdDecode_feFrame_strict :
    (fdDecode false maxPayload (feFrame opc p)).code = .protoUnmasked := by
  obtain ⟨b, ext, hb, hlt, -⟩ := lenhdr_eq p.length
  have hframe : feFrame opc p = frameByte0 opc :: b :: (ext ++ p) := by simp [feFrame, hb]
  have hmask : maskBit b = false := by rw [maskBit_eq, decide_eq_false_iff_not]; omega
  rw [hframe, fdDecode_unmasked (by rwa [frameOpcode_frameByte0]) ⟨hmask, rfl⟩]
  rfl

variable (hlen : p.length < 2 ^ 64) (hmax : p.length ≤ maxPayload)
include hlen hmax

/-- In lenient mode the encoder's own frame is decoded to its payload and opcode (R234 (a)). -/
theorem fdDecode_feFrame :
    ∃ regs, fdDecode true maxPayload (feFrame opc p) = { code := .ok, regs := regs, payload := p } ∧
      regs.hdr.b0 = frameByte0 opc := by
  obtain ⟨b, ext, hb, hlt, hext, -⟩ := lenhdr_eq p.length
  have hframe : feFrame opc p = frameByte0 opc :: b :: (ext ++ p) := by simp [feFrame, hb]
  have hbase : baseLength b = b.toNat := by rw [baseLength_eq]; exact Nat.mod_eq_of_lt hlt
  have hmask : maskBit b = false := by rw [maskBit_eq, decide_eq_false_iff_not]; omega
  have hdec := fdDecode_header_payload (lenient := true) (key := 0) (b1 := b) (mid := ext) (q := p)
    (by rwa [frameOpcode_frameByte0]) (.inr rfl) (by simp [headerLength, hbase, hext, hmask])
    (hbase ▸ payloadLength_lenhdr hlen hb (frameByte0 opc) b p) (by simp [hmask]) hmax
  rw [xorMask_zero] at hdec
  exact ⟨_, hframe ▸ hdec, rfl⟩

/-- The masked client frame is decoded to its payload and opcode, in both modes (R233). -/
theorem fdDecode_maskedFrame (key : Word) :
    ∃ regs, fdDecode lenient maxPayload (maskedFrame opc p key) =
        { code := .ok, regs := regs, payload := p } ∧
      regs.hdr.b0 = frameByte0 opc ∧ regs.hdr.hlen.toNat = encHeaderLength p.length + 4 := by
  obtain ⟨b, ext, hb, hlt, hext, -⟩ := lenhdr_eq p.length
  obtain ⟨hmask, hbase⟩ := maskBit_baseLength_or hlt
  have hraw : unmask p 0 p.length key = xorMask key 0 p := by simp [unmask]
  have hframe : maskedFrame opc p key = frameByte0 opc :: (0x80 ||| b) ::
      (ext ++ bytesBE key.toNat 4 ++ xorMask key 0 p) := by
    simp [maskedFrame, hb, hraw, frameByte0]
  generalize 0x80 ||| b = b1 at hmask hbase hframe
  have hhlen : headerLength b1 = 2 + (ext ++ bytesBE key.toNat 4).length := by
    rw [headerLength_masked hmask, hbase, hext, List.length_append, bytesBE_length]
    omega
  have hplen : payloadLength (baseLength b1)
      (frameByte0 opc :: b1 :: (ext ++ bytesBE key.toNat 4 ++ xorMask key 0 p)) =
        (xorMask key 0 p).length := by
    rw [hbase, xorMask_length, List.append_assoc]
    exact payloadLength_lenhdr hlen hb _ _ _
  have hkey : (if maskBit b1 then be32
      (frameByte0 opc :: b1 :: (ext ++ bytesBE key.toNat 4 ++ xorMask key 0 p))
        (2 + extLength (baseLength b1)) else 0) = key := by
    rw [if_pos hmask, hbase, hext, List.append_assoc]
    exact be32_bytesBE (pre := frameByte0 opc :: b1 :: ext) (Nat.add_comm _ 2) _ _
  have hdec := fdDecode_header_payload (lenient := lenient) (maxPayload := maxPayload)
    (by rwa [frameOpcode_frameByte0]) (.inl hmask) hhlen hplen hkey (by rwa [xorMask_length])
  rw [xorMask_xorMask] at hdec
  refine ⟨_, hframe ▸ hdec, rfl, (fdHeader_hlen_toNat _ _ _).trans ?_⟩
  rw [hhlen, encHeaderLength, hb, List.length_append, bytesBE_length, List.length_cons]
  omega

end frames

/-! ## What FE_ENCODE commits -/

/-- FE_ENCODE ends with OK only where the frame fits OBUF, and then OBUF holds the frame (R232). -/
theorem feEncode_ok {src : Src} {s t : State} {opc : BitVec 4} {p : List Byte}
    (hin : InputIs src s p) (hex : exec (.feEncode src opc true) s = .next t)
    (hok : t.status.code = .ok) :
    encHeaderLength p.length + p.length ≤ s.params.obufBytes ∧
      t = s.commit .ok { bytes := some (feFrame opc p) } none := by
  by_cases hfit : encHeaderLength p.length + p.length ≤ s.params.obufBytes
  · cases (exec_feEncode_fits hin hfit).symm.trans hex
    exact ⟨hfit, rfl⟩
  · cases (exec_feEncode_overflow hin (Nat.not_le.mp hfit)).symm.trans hex
    simp at hok

/-- The same output bytes from any two states (R36). -/
theorem commit_output_eq {o : Outputs} {out : List Byte} (ho : o.bytes = some out) (s s' : State) :
    (s'.commit .ok o none).olen = (s.commit .ok o none).olen ∧
      ∀ x, x < (s.commit .ok o none).olen.toNat →
        (s'.commit .ok o none).obuf.get? x = (s.commit .ok o none).obuf.get? x := by
  have holen : (s'.commit .ok o none).olen = (s.commit .ok o none).olen := by simp [ho]
  exact ⟨holen, fun x hx => by rw [commit_obuf_get? ho _ hx, commit_obuf_get? ho _ (holen ▸ hx)]⟩

/-- FE_ENCODE of the payload and the opcode that FD_DECODE delivered writes their frame (R234). -/
theorem feEncode_after_decoding {s : State} {opc : BitVec 4} {r : FdResult} (hok : r.code = .ok)
    (hlen : r.payload.length < 2 ^ 32) (hb0 : r.regs.hdr.b0 = frameByte0 opc)
    (hfit : encHeaderLength r.payload.length + r.payload.length ≤ s.params.obufBytes) :
    exec (.feEncode .obuf ((s.afterDecoding r).fd.hdr.b0.extractLsb 3 0) true) (s.afterDecoding r) =
      .next ((s.afterDecoding r).commit .ok { bytes := some (feFrame opc r.payload) } none) := by
  rw [State.afterDecoding_fd, hb0, frameByte0_opcode]
  exact exec_feEncode_fits (afterDecoding_output hok hlen s).inputIs
    (by rwa [State.afterDecoding_params])

/-! ## The statements -/

/-- Settles O46: the three brackets of the length, and the decoder's length rule on its header. -/
theorem lengthMultiplexerShortest : Obligations.LengthMultiplexerShortest := by
  intro n hn
  obtain ⟨b, ext, hb, hlt, hext, hnil, hcons⟩ := lenhdr_eq n
  refine ⟨b, ext, hb, ?_, ?_, ?_, ?_, ?_⟩
  · intro h
    cases hb.symm.trans (lenhdr_short h)
    exact ⟨hnil rfl, rfl⟩
  · intro h h'
    cases hb.symm.trans (lenhdr_medium h h')
    exact ⟨rfl, bytesBE_length _ _, hcons (by simp [bytesBE]) hn⟩
  · intro h
    cases hb.symm.trans (lenhdr_long h)
    exact ⟨rfl, bytesBE_length _ _, hcons (by simp [bytesBE]) hn⟩
  · rw [encHeaderLength_eq]
    split_ifs <;> simp
  · rw [Nat.mod_eq_of_lt hlt, hb]
    simpa using payloadLength_lenhdr hn hb 0 b []

/-- Settles O47: FE_ENCODE over its input is a commit of the frame, or of OUT_OVERFLOW. -/
theorem frameEncoderOutcomes : Obligations.FrameEncoderOutcomes := by
  refine fun src f s => ⟨fun bs hin => ?_, fun hlong => ?_, ?_⟩
  · intro hl
    have hhl : hl = encHeaderLength bs.length := (encHeaderLength_eq _).symm
    rw [hhl]
    refine ⟨fun hlegal hfit => ?_, fun hover => ?_⟩
    · have hobuf := (legal_bounds hlegal).2.1.2
      have hlen := feFrame_length f bs
      have hout := commit_output (o := { bytes := some (feFrame f bs) }) rfl (by omega) none s
      exact ⟨_, exec_feEncode_fits hin hfit, commit_frame _ _ _ _, commit_completed _ _ _ _,
        commit_enginesKept _ _ _, hout.olen.trans hlen, hout⟩
    · exact endsWithStatusOnly_of_raise (by decide) (exec_feEncode_overflow hin hover)
  · exact endsWithStatusOnly_of_raise (by decide) (withInput_of_tooLong hlong)
  · exact endsWithStatusOnly_of_raise (by decide) exec_feEncode_finClear

/-- Settles O48: the decoding of the masked client frame, and the five lengths by computation. -/
theorem maskedFrameRoundTrip : Obligations.MaskedFrameRoundTrip := by
  refine ⟨fun src s opc p key hin hopc hmax => ?_, by decide⟩
  have hp := hmax.trans_lt s.maxPayload.isLt
  have hfree : reservedOpcode opc = false := by
    rwa [← Bool.not_eq_true, reservedOpcode_iff]
  obtain ⟨regs, hdec, hb0, hhlen⟩ := fdDecode_maskedFrame (lenient := s.ctrl.lenientUnmasked) hfree
    (hp.trans (by decide)) hmax key
  have hex := exec_fdDecode_eq hin
  rw [hdec] at hex
  have hout := afterDecoding_output (r := { code := .ok, regs := regs, payload := p }) rfl hp s
  refine ⟨_, hex, commit_completed .ok _ _ s, hout.olen, fun o ho => ?_, ?_, ?_⟩
  · rw [hout.obuf, dif_pos ho]
  · rwa [State.afterDecoding_fd]
  · rw [State.afterDecoding_fd, hb0, frameByte0_opcode]

/-- Settles O49: the decoder gives the payload and the opcode back, and their frame is the same. -/
theorem encodeDecodeEncodeIdempotent : Obligations.EncodeDecodeEncodeIdempotent := by
  intro src s t opc p hlegal hin hopc hmax hex hok
  have hp := hmax.trans_lt s.maxPayload.isLt
  have hp64 : p.length < 2 ^ 64 := hp.trans (by decide)
  have hfree : reservedOpcode opc = false := by
    rwa [← Bool.not_eq_true, reservedOpcode_iff]
  obtain ⟨hfit, rfl⟩ := feEncode_ok hin hex hok
  have hobuf := (legal_bounds hlegal).2.1.2
  have hlen := feFrame_length opc p
  have hwire := (commit_output (o := { bytes := some (feFrame opc p) }) rfl (by omega) none
    s).inputIs
  have hdecode := exec_fdDecode_eq hwire
  rw [State.commit_ctrl, State.commit_maxPayload] at hdecode
  refine ⟨fun hlenient => ?_, fun hstrict => ⟨?_, fun src' s' key hparams hmax' hin' => ?_⟩⟩
  · obtain ⟨regs, hdec, hb0⟩ := fdDecode_feFrame hfree hp64 hmax
    rw [hlenient, hdec] at hdecode
    exact ⟨_, _, hdecode, State.afterDecoding_code _ _,
      by rw [State.afterDecoding_fd, hb0, frameByte0_opcode],
      (afterDecoding_output rfl hp _).inputIs,
      feEncode_after_decoding rfl hp hb0 (by rwa [State.commit_params]), by simp,
      commit_output_eq rfl _ _⟩
  · refine ⟨_, hdecode, ?_⟩
    rw [State.afterDecoding_code, hstrict, fdDecode_feFrame_strict hfree]
  · obtain ⟨regs, hdec, hb0, -⟩ := fdDecode_maskedFrame (lenient := s'.ctrl.lenientUnmasked) hfree
      hp64 hmax' key
    have hdecode' := exec_fdDecode_eq hin'
    rw [hdec] at hdecode'
    exact ⟨_, _, hdecode', State.afterDecoding_code _ _,
      feEncode_after_decoding rfl hp hb0 (by rwa [hparams]), by simp, commit_output_eq rfl _ _⟩

end Sys2Proof.Machine
